-- ==== Sys2Proof/Word.lean ====
section
/-! DEFINITION. The word types of the block (spec/00_scope.md R8, R9). -/

namespace Sys2Proof

/-- One byte of a frame. -/
abbrev Byte := BitVec 8

/-- A host command word `W` (R80). -/
abbrev CmdWord := BitVec 32

/-- The 128-bit operand `OPND`, and the 128-bit response datum `DATA` (R80). -/
abbrev Datum := BitVec 128

/-- A 40-bit device-time value or a delta held in a timestamp register (R21, R110). -/
abbrev Timestamp := BitVec 40

/-- A 32-bit timestamp delta or embedded timestamp field (R110). -/
abbrev Delta := BitVec 32

/-- `EventBits`, the 4-bit answer of `awaitStatus` and the type of its mask (R98). -/
abbrev EventBits := BitVec 4

/-- A timestamp register number 0 to 7 (R84). -/
abbrev RegNum := Fin 8

end Sys2Proof
end

