-- ==== Sys2Proof/Machine/RegisterMap.lean ====
section
/-! DEFINITION. The register index map used by CFGW and CFGR (spec/10_state.md R36): which index names which
register, and the access class of each. -/

namespace Sys2Proof.Machine

/-- The registers of the index map, in index order (R36). -/
inductive CfgReg where
  | ctrl | status | seq
  | respDelay | finalDelay | txAntDly
  | dPoll | dResp | dFinal
  | toPoll | toResp | toFinal | toAck
  | stsCtrInc
  | frameLenPoll | frameLenResponse | frameLenFinal | frameLenReport
  | pollCtrIdx | finalPollTxIdx | finalRespRxIdx | finalFinalTxIdx | reportPollRxIdx | reportRespTxIdx
  | tplPoll | tplResponse | tplFinal | tplReport
  | cntBadFrame | cntBadSts | cntRxTimeout | cntRxError
  | stsScore | pollCtr | stsCtr | k
  | aesCtr | aesSrc | aesFrameLen | aesHdrLen | aesMicLen | aesMode | aesBufCap | aesErrMask | fcsLen
  deriving DecidableEq, Repr

/-- The access classes of R36. -/
inductive RegClass where
  /-- Writable only when `STATE = Idle` and `SESSION = 0`. -/
  | cfg
  /-- Writable when `STATE` is `Idle` or terminal. -/
  | opd
  /-- Read-only. -/
  | ro
  deriving DecidableEq, Repr

/-- The register an index names; `none` for a reserved index (R36). -/
def regOf (idx : BitVec 8) : Option CfgReg :=
  match idx.toNat with
  | 0x00 => some .ctrl
  | 0x01 => some .status
  | 0x02 => some .seq
  | 0x03 => some .respDelay
  | 0x04 => some .finalDelay
  | 0x05 => some .txAntDly
  | 0x06 => some .dPoll
  | 0x07 => some .dResp
  | 0x08 => some .dFinal
  | 0x09 => some .toPoll
  | 0x0A => some .toResp
  | 0x0B => some .toFinal
  | 0x0C => some .toAck
  | 0x0D => some .stsCtrInc
  | 0x10 => some .frameLenPoll
  | 0x11 => some .frameLenResponse
  | 0x12 => some .frameLenFinal
  | 0x13 => some .frameLenReport
  | 0x14 => some .pollCtrIdx
  | 0x15 => some .finalPollTxIdx
  | 0x16 => some .finalRespRxIdx
  | 0x17 => some .finalFinalTxIdx
  | 0x18 => some .reportPollRxIdx
  | 0x19 => some .reportRespTxIdx
  | 0x20 => some .tplPoll
  | 0x21 => some .tplResponse
  | 0x22 => some .tplFinal
  | 0x23 => some .tplReport
  | 0x30 => some .cntBadFrame
  | 0x31 => some .cntBadSts
  | 0x32 => some .cntRxTimeout
  | 0x33 => some .cntRxError
  | 0x34 => some .stsScore
  | 0x35 => some .pollCtr
  | 0x36 => some .stsCtr
  | 0x37 => some .k
  | 0x40 => some .aesCtr
  | 0x41 => some .aesSrc
  | 0x42 => some .aesFrameLen
  | 0x43 => some .aesHdrLen
  | 0x44 => some .aesMicLen
  | 0x45 => some .aesMode
  | 0x46 => some .aesBufCap
  | 0x47 => some .aesErrMask
  | 0x48 => some .fcsLen
  | _ => none

/-- The access class of each register (R36). -/
def regClass : CfgReg → RegClass
  | .status | .cntBadFrame | .cntBadSts | .cntRxTimeout | .cntRxError | .stsScore | .pollCtr | .stsCtr => .ro
  | .seq | .k => .opd
  | .aesCtr | .aesSrc | .aesFrameLen | .aesHdrLen | .aesMicLen | .aesMode | .aesBufCap | .aesErrMask | .fcsLen => .opd
  | .ctrl | .respDelay | .finalDelay | .txAntDly | .dPoll | .dResp | .dFinal | .toPoll | .toResp | .toFinal
  | .toAck | .stsCtrInc | .frameLenPoll | .frameLenResponse | .frameLenFinal | .frameLenReport | .pollCtrIdx
  | .finalPollTxIdx | .finalRespRxIdx | .finalFinalTxIdx | .reportPollRxIdx | .reportRespTxIdx
  | .tplPoll | .tplResponse | .tplFinal | .tplReport => .cfg

/-- The registers that exist only when `HAS_AES = 1` (R36, R40). -/
def regIsAes : CfgReg → Bool
  | .aesCtr | .aesSrc | .aesFrameLen | .aesHdrLen | .aesMicLen | .aesMode | .aesBufCap | .aesErrMask | .fcsLen => true
  | _ => false

end Sys2Proof.Machine
end

