-- ==== Sys2Proof/Syntax.lean ====
section
/-! DEFINITION. The command and event words as syntax: one constructor per row of spec/opcode_table.json
(spec/30_encoding.md R83, R98). -/

namespace Sys2Proof

/-- The four frame kinds (spec/42_frame_codec.md R155), numbered 0 to 3 in this order. -/
inductive FrameKind where
  | poll
  | response
  | final
  | report
  deriving DecidableEq, Repr

/-- The register aliases of spec/10_state.md R21. -/
abbrev RegNum.pollTx : RegNum := 0
abbrev RegNum.pollRx : RegNum := 1
abbrev RegNum.respTx : RegNum := 2
abbrev RegNum.respRx : RegNum := 3
abbrev RegNum.finalTx : RegNum := 4
abbrev RegNum.finalRx : RegNum := 5
abbrev RegNum.scratch0 : RegNum := 6
abbrev RegNum.scratch1 : RegNum := 7

/-- The 40 host commands and the 4 event words. `rd` is a destination register, `ra`, `rb`, `rs` are source
registers, `off` a frame-buffer offset, `idx` an index of the register map. -/
inductive Instr where
  | nop
  | tsld (rd : RegNum)
  | tsrd (rs : RegNum)
  | tsmov (rd ra : RegNum)
  | tscaptx (rd : RegNum)
  | tscaprx (rd : RegNum)
  | tsadd (rd ra rb : RegNum)
  | tssub (rd ra rb : RegNum)
  | tssub32 (rd ra rb : RegNum)
  | tslo32 (rd ra : RegNum)
  | tsalign (rd ra : RegNum)
  | tssched (rd ra rb : RegNum)
  | tscmp (ra rb : RegNum)
  | tscmp32 (ra rb : RegNum)
  | tofss
  | tofds
  | tofrd
  | fenc (kind : FrameKind)
  | fdec (kind : FrameKind)
  | fput32 (rs : RegNum) (off : BitVec 8)
  | fget32 (rd : RegNum) (off : BitVec 8)
  | fbwr (off : BitVec 8)
  | fbrd (off : BitVec 8)
  | flenw
  | flenr
  | stskey
  | stsiv
  | stsbegin
  | stschk
  | stsresync
  | stslock
  | stsunlock
  | xstart
  | xclr
  | cfgw (idx : BitVec 8)
  | cfgr (idx : BitVec 8)
  | aesnonce
  | aeslen
  | aescls
  | aesprot
  | evGood
  | evRxErr
  | evRxTo
  | evTxDone
  deriving DecidableEq, Repr

end Sys2Proof
end

