-- ==== Sys2Proof/WellFormed.lean ====
section
/-! DEFINITION. Static legality of an instruction: the part of check (1) of spec/30_encoding.md R93 that can be
told from the instruction alone. Register numbers, kinds and offsets are in range by their types; what is left is
the register index of CFGW and CFGR. -/

namespace Sys2Proof

/-- `CFGR idx` names a register; `CFGW idx` names a register that is not read-only (R93 (1), R274, R275). Every
other instruction is statically legal. -/
def Instr.wellFormed : Instr → Bool
  | .cfgr idx => (Machine.regOf idx).isSome
  | .cfgw idx =>
    match Machine.regOf idx with
    | some r => Machine.regClass r != .ro
    | none => false
  | .nop | .tsld _ | .tsrd _ | .tsmov _ _ | .tscaptx _ | .tscaprx _ | .tsadd _ _ _ | .tssub _ _ _
  | .tssub32 _ _ _ | .tslo32 _ _ | .tsalign _ _ | .tssched _ _ _ | .tscmp _ _ | .tscmp32 _ _ | .tofss | .tofds
  | .tofrd | .fenc _ | .fdec _ | .fput32 _ _ | .fget32 _ _ | .fbwr _ | .fbrd _ | .flenw | .flenr | .stskey
  | .stsiv | .stsbegin | .stschk | .stsresync | .stslock | .stsunlock | .xstart | .xclr | .aesnonce | .aeslen
  | .aescls | .aesprot | .evGood | .evRxErr | .evRxTo | .evTxDone => true

end Sys2Proof
end

