-- ==== Sys2Proof/Decode.lean ====
section
/-! DEFINITION. The decoder of command words and event words, the encoder, and the host's table word
(spec/30_encoding.md R81 to R84, R96 to R98). -/

namespace Sys2Proof

/-- Why a word encodes nothing. -/
inductive DecodeError where
  /-- The opcode is not in the table of R83 (R96). -/
  | reservedOpcode (op : BitVec 8)
  /-- A must-be-zero bit of the opcode's format is set (R81, R96). -/
  | mustBeZero (op : BitVec 8)
  /-- The four event bits are not exactly one bit (R98, R306). -/
  | notOneEvent (ev : EventBits)
  deriving DecidableEq, Repr

/-- A word at one of the block's two inputs: the 32-bit command port, or the 4-bit answer of `awaitStatus`. -/
inductive PortWord where
  | command (w : CmdWord)
  | event (ev : EventBits)
  deriving DecidableEq, Repr

/-- `W[31:24]`, the opcode in every format (R81). -/
def opcode (w : CmdWord) : BitVec 8 := w.extractLsb' 24 8
/-- `W[22:20]`: `rd`, `rs` of format R1, `r` of format FO (R81). -/
def fieldRd (w : CmdWord) : RegNum := (w.extractLsb' 20 3).toFin
/-- `W[18:16]`: `ra` (R81). -/
def fieldRa (w : CmdWord) : RegNum := (w.extractLsb' 16 3).toFin
/-- `W[14:12]`: `rb` (R81). -/
def fieldRb (w : CmdWord) : RegNum := (w.extractLsb' 12 3).toFin
/-- `W[15:8]`: the offset of formats FO and O (R81). -/
def fieldOff (w : CmdWord) : BitVec 8 := w.extractLsb' 8 8
/-- `W[23:16]`: the register index of format C (R81). -/
def fieldIdx (w : CmdWord) : BitVec 8 := w.extractLsb' 16 8

/-- The kind a 2-bit number names: 0 Poll, 1 Response, 2 Final, 3 Report (R84). -/
def kindOfBits (b : BitVec 2) : FrameKind :=
  match b.toNat with
  | 0 => .poll
  | 1 => .response
  | 2 => .final
  | _ => .report

/-- The 2-bit number of a kind (R84). -/
def kindBits : FrameKind → BitVec 2
  | .poll => 0
  | .response => 1
  | .final => 2
  | .report => 3

/-- `W[17:16]`: the kind of format K (R81). -/
def fieldKind (w : CmdWord) : FrameKind := kindOfBits (w.extractLsb' 16 2)

/-- The masks of R82: the bits of each format that must match `op << 24`. -/
abbrev maskN : CmdWord := 0xFFFFFFFF
abbrev maskR1 : CmdWord := 0xFF8FFFFF
abbrev maskR2 : CmdWord := 0xFF88FFFF
abbrev maskR3 : CmdWord := 0xFF888FFF
abbrev maskRC : CmdWord := 0xFFF88FFF
abbrev maskK : CmdWord := 0xFFFCFFFF
abbrev maskFO : CmdWord := 0xFF8F00FF
abbrev maskO : CmdWord := 0xFFFF00FF
abbrev maskC : CmdWord := 0xFF00FFFF

/-- `i`, when `W & mask = op << 24` (R82); otherwise a must-be-zero bit is set. -/
def checked (w mask : CmdWord) (i : Instr) : Except DecodeError Instr :=
  if w &&& mask = (opcode w).setWidth 32 <<< 24 then .ok i else .error (.mustBeZero (opcode w))

/-- The instruction a command word encodes, or why it encodes none (R82, R83, R96). A reserved register index, and
an AES opcode without the unit, are answered by the meanings (R274, R275; notes/assumptions/15.md). -/
def decodeCommand (w : CmdWord) : Except DecodeError Instr :=
  match (opcode w).toNat with
  | 0x00 => checked w maskN .nop
  | 0x10 => checked w maskR1 (.tsld (fieldRd w))
  | 0x11 => checked w maskR1 (.tsrd (fieldRd w))
  | 0x12 => checked w maskR2 (.tsmov (fieldRd w) (fieldRa w))
  | 0x13 => checked w maskR1 (.tscaptx (fieldRd w))
  | 0x14 => checked w maskR1 (.tscaprx (fieldRd w))
  | 0x15 => checked w maskR3 (.tsadd (fieldRd w) (fieldRa w) (fieldRb w))
  | 0x16 => checked w maskR3 (.tssub (fieldRd w) (fieldRa w) (fieldRb w))
  | 0x17 => checked w maskR3 (.tssub32 (fieldRd w) (fieldRa w) (fieldRb w))
  | 0x18 => checked w maskR2 (.tslo32 (fieldRd w) (fieldRa w))
  | 0x19 => checked w maskR2 (.tsalign (fieldRd w) (fieldRa w))
  | 0x1A => checked w maskR3 (.tssched (fieldRd w) (fieldRa w) (fieldRb w))
  | 0x1B => checked w maskRC (.tscmp (fieldRa w) (fieldRb w))
  | 0x1C => checked w maskRC (.tscmp32 (fieldRa w) (fieldRb w))
  | 0x20 => checked w maskN .tofss
  | 0x21 => checked w maskN .tofds
  | 0x22 => checked w maskN .tofrd
  | 0x30 => checked w maskK (.fenc (fieldKind w))
  | 0x31 => checked w maskK (.fdec (fieldKind w))
  | 0x32 => checked w maskFO (.fput32 (fieldRd w) (fieldOff w))
  | 0x33 => checked w maskFO (.fget32 (fieldRd w) (fieldOff w))
  | 0x34 => checked w maskO (.fbwr (fieldOff w))
  | 0x35 => checked w maskO (.fbrd (fieldOff w))
  | 0x36 => checked w maskN .flenw
  | 0x37 => checked w maskN .flenr
  | 0x40 => checked w maskN .stskey
  | 0x41 => checked w maskN .stsiv
  | 0x42 => checked w maskN .stsbegin
  | 0x43 => checked w maskN .stschk
  | 0x44 => checked w maskN .stsresync
  | 0x45 => checked w maskN .stslock
  | 0x46 => checked w maskN .stsunlock
  | 0x50 => checked w maskN .xstart
  | 0x51 => checked w maskN .xclr
  | 0x52 => checked w maskC (.cfgw (fieldIdx w))
  | 0x53 => checked w maskC (.cfgr (fieldIdx w))
  | 0x60 => checked w maskN .aesnonce
  | 0x61 => checked w maskN .aeslen
  | 0x62 => checked w maskN .aescls
  | 0x63 => checked w maskN .aesprot
  | _ => .error (.reservedOpcode (opcode w))

/-- The event a 4-bit `awaitStatus` answer names (R98). -/
def decodeEvent (ev : EventBits) : Except DecodeError Instr :=
  match ev.toNat with
  | 1 => .ok .evGood
  | 2 => .ok .evRxErr
  | 4 => .ok .evRxTo
  | 8 => .ok .evTxDone
  | _ => .error (.notOneEvent ev)

/-- The decoder: total on every word of both ports. -/
def decode : PortWord → Except DecodeError Instr
  | .command w => decodeCommand w
  | .event ev => decodeEvent ev

/-- A register number as the three bits of its field (R81). -/
def regBits (r : RegNum) : BitVec 3 := BitVec.ofFin r

/-- Format N: the opcode, every other bit 0 (R81). -/
def encN (op : BitVec 8) : CmdWord := op ++ 0#24
/-- Format R1 (R81). -/
def encR1 (op : BitVec 8) (rd : RegNum) : CmdWord := op ++ 0#1 ++ regBits rd ++ 0#20
/-- Format R2 (R81). -/
def encR2 (op : BitVec 8) (rd ra : RegNum) : CmdWord := op ++ 0#1 ++ regBits rd ++ 0#1 ++ regBits ra ++ 0#16
/-- Format R3 (R81). -/
def encR3 (op : BitVec 8) (rd ra rb : RegNum) : CmdWord :=
  op ++ 0#1 ++ regBits rd ++ 0#1 ++ regBits ra ++ 0#1 ++ regBits rb ++ 0#12
/-- Format RC (R81). -/
def encRC (op : BitVec 8) (ra rb : RegNum) : CmdWord := op ++ 0#5 ++ regBits ra ++ 0#1 ++ regBits rb ++ 0#12
/-- Format K (R81). -/
def encK (op : BitVec 8) (k : FrameKind) : CmdWord := op ++ 0#6 ++ kindBits k ++ 0#16
/-- Format FO (R81). -/
def encFO (op : BitVec 8) (r : RegNum) (off : BitVec 8) : CmdWord := op ++ 0#1 ++ regBits r ++ 0#4 ++ off ++ 0#8
/-- Format O (R81). -/
def encO (op : BitVec 8) (off : BitVec 8) : CmdWord := op ++ 0#8 ++ off ++ 0#8
/-- Format C (R81). -/
def encC (op : BitVec 8) (idx : BitVec 8) : CmdWord := op ++ idx ++ 0#16

/-- The word of an instruction (R81, R83, R98). -/
def encode : Instr → PortWord
  | .nop => .command (encN 0x00)
  | .tsld rd => .command (encR1 0x10 rd)
  | .tsrd rs => .command (encR1 0x11 rs)
  | .tsmov rd ra => .command (encR2 0x12 rd ra)
  | .tscaptx rd => .command (encR1 0x13 rd)
  | .tscaprx rd => .command (encR1 0x14 rd)
  | .tsadd rd ra rb => .command (encR3 0x15 rd ra rb)
  | .tssub rd ra rb => .command (encR3 0x16 rd ra rb)
  | .tssub32 rd ra rb => .command (encR3 0x17 rd ra rb)
  | .tslo32 rd ra => .command (encR2 0x18 rd ra)
  | .tsalign rd ra => .command (encR2 0x19 rd ra)
  | .tssched rd ra rb => .command (encR3 0x1A rd ra rb)
  | .tscmp ra rb => .command (encRC 0x1B ra rb)
  | .tscmp32 ra rb => .command (encRC 0x1C ra rb)
  | .tofss => .command (encN 0x20)
  | .tofds => .command (encN 0x21)
  | .tofrd => .command (encN 0x22)
  | .fenc k => .command (encK 0x30 k)
  | .fdec k => .command (encK 0x31 k)
  | .fput32 rs off => .command (encFO 0x32 rs off)
  | .fget32 rd off => .command (encFO 0x33 rd off)
  | .fbwr off => .command (encO 0x34 off)
  | .fbrd off => .command (encO 0x35 off)
  | .flenw => .command (encN 0x36)
  | .flenr => .command (encN 0x37)
  | .stskey => .command (encN 0x40)
  | .stsiv => .command (encN 0x41)
  | .stsbegin => .command (encN 0x42)
  | .stschk => .command (encN 0x43)
  | .stsresync => .command (encN 0x44)
  | .stslock => .command (encN 0x45)
  | .stsunlock => .command (encN 0x46)
  | .xstart => .command (encN 0x50)
  | .xclr => .command (encN 0x51)
  | .cfgw idx => .command (encC 0x52 idx)
  | .cfgr idx => .command (encC 0x53 idx)
  | .aesnonce => .command (encN 0x60)
  | .aeslen => .command (encN 0x61)
  | .aescls => .command (encN 0x62)
  | .aesprot => .command (encN 0x63)
  | .evGood => .event 0x1
  | .evRxErr => .event 0x2
  | .evRxTo => .event 0x4
  | .evTxDone => .event 0x8

/-- The port word that an instruction of spec/opcode_table.json with `nbits` bits (in whole bytes) and value `w`
is: an event word where the row has one byte (format EV, 4 bits; notes/assumptions/16.md), a command word
otherwise. `none` where `w` does not fit the port. -/
def portWordOf (nbits w : Nat) : Option PortWord :=
  if nbits ≤ 8 then (if w < 16 then some (.event (BitVec.ofNat 4 w)) else none)
  else if w < 4294967296 then some (.command (BitVec.ofNat 32 w)) else none

/-- The instruction the decoder reads from a table word. -/
def decodeTableWord (nbits w : Nat) : Option Instr :=
  match portWordOf nbits w with
  | some p => (decode p).toOption
  | none => none

/-- The pseudo-instructions of R102, each its core instruction; an operand is given at the port. -/
def pseudoStat : Instr := .cfgr 0x01
/-- `KLD #v` (R102). -/
def pseudoKld : Instr := .cfgw 0x37
/-- `SEQLD #v` (R102). -/
def pseudoSeqld : Instr := .cfgw 0x02
/-- `TSZERO rd`: `TSLD rd` with operand 0 (R102). -/
def pseudoTszero (rd : RegNum) : Instr := .tsld rd
/-- `TSDELTA rd, later, earlier` (R102). -/
def pseudoTsdelta (rd later earlier : RegNum) : Instr := .tssub32 rd later earlier
/-- `TSBEFORE ra, rb`: `TSCMP` and a test of `DATA[1]` (R102). -/
def pseudoTsbefore (ra rb : RegNum) : Instr := .tscmp ra rb

end Sys2Proof
end

