-- ==== Sys2Proof/Config.lean ====
section
/-! DEFINITION. The parameters of the block (spec/00_scope.md R8) and the free values that the spec leaves open.
Parameters with a value are definitions; OPEN parameters are constants without a body, so no proof can see
what they are. HAS_AES, the one open parameter that decides what a command does, is a field of State
(notes/assumptions/7.md). -/

namespace Sys2Proof.Config

/-- `FB_SIZE`: bytes of the frame buffer (R8, R24). -/
abbrev fbSize : Nat := 128

/-- `HDR_LEN`: bytes of the common frame header (R8, R100). -/
abbrev hdrLen : Nat := 10

/-- `SEQ_IDX`: byte offset of the sequence number in the header (R8, R25). -/
abbrev seqIdx : Nat := 2

/-- `FN_IDX`: byte offset of the function code in the header (R8, R25). -/
abbrev fnIdx : Nat := 9

/-- `ALIGN_BITS`: low bits zeroed in a delayed-transmit time (R8, R121). -/
abbrev alignBits : Nat := 9

/-- `NONCE_LEN`: bytes of the AES nonce (R8, R261). -/
abbrev nonceLen : Nat := 12

/-- What a byte of the frame buffer that nothing has written reads as: the reset contents (R41). -/
abbrev fbResetByte : BitVec 8 := 0

/-- `DTU_SECONDS` is an open positive rational (R8, D16); these two naturals carry it. -/
opaque dtuNum : Nat
/-- See `dtuNum`. -/
opaque dtuDen : Nat
/-- `SPEED_OF_LIGHT` is an open positive rational (R8, D16); these two naturals carry it. -/
opaque lightNum : Nat
/-- See `lightNum`. -/
opaque lightDen : Nat

/-- `DTU_SECONDS`: seconds per device time unit, any positive rational. DESIGN CHOICE (log 8). -/
def dtuSeconds : ℚ := (dtuNum + 1 : ℚ) / (dtuDen + 1)

/-- `SPEED_OF_LIGHT`: metres per second, any positive rational. DESIGN CHOICE (log 8). -/
def speedOfLight : ℚ := (lightNum + 1 : ℚ) / (lightDen + 1)

/-- `TIMEOUT0`: what a timeout operand of 0 means to the HAL, open (R8, D43): `none` is "no timeout",
`some n` is "n device time units". The block's own behaviour never depends on it (93 U5). DESIGN CHOICE (log 9). -/
opaque timeout0 : Option Nat

/-- What the HAL takes a timeout operand of `awaitStatus` to mean (R202, R334). -/
def timeoutMeaning (t : BitVec 32) : Option Nat := if t = 0 then timeout0 else some t.toNat

/-- Whether the n-th `transmitDelayed` call of a core step that the input list does not direct is answered
`LateStart`: a free value (93 U11). DESIGN CHOICE (log 3). -/
opaque freeLate : Nat → Bool

/-- The bits that a timestamp register of an exchange holds once XSTART has cleared its written tag: no defined
value, one free value for each such register (R22, 93 U10). DESIGN CHOICE (log 6). -/
opaque freeTimestamp : Nat → BitVec 40

end Sys2Proof.Config
end

