-- ==== Sys2Proof/Machine/State.lean ====
section
/-! DEFINITION. The state of the block as plain data, its faults and refusals, and the state after reset
(spec/10_state.md R20 to R42). -/

namespace Sys2Proof.Machine

/-- `STATE` (R29, R30): the phase of the exchange, the machine's only place of control. -/
inductive SeqState where
  | idle
  | pollSent
  | awaitResponse
  | respondValid
  | finalSent
  | awaitAck
  | awaitPoll
  | pollValid
  | respSent
  | awaitFinal
  | finalValid
  | done
  | timedOut
  | badFrame
  | badSts
  | failed
  deriving DecidableEq, Repr

/-- `OUTCOME` (R31): the result of the current or last exchange. -/
inductive ExchangeOutcome where
  | none
  | success
  | badFrame
  | badSts
  | rxTimeout
  | rxError
  | lateStart
  | degenerateTiming
  | lengthError
  | cryptoError
  deriving DecidableEq, Repr

/-- The six kinds that a sequencer step can raise (R300). -/
inductive ErrorKind where
  | badFrame
  | badSts
  | rxTimeout
  | rxError
  | lateStart
  | degenerateTiming
  deriving DecidableEq, Repr

/-- The response status codes (R91). -/
inductive Status where
  | ok
  | errIllegal
  | errBusy
  | errState
  | errUnwritten
  | errLocked
  | errRange
  | errConfig
  | mismatch
  | degenerate
  | errBadK
  | lengthError
  | cryptoError
  deriving DecidableEq, Repr

/-- The response to a host command (R80). -/
structure Response where
  status : Status
  data : Datum
  deriving DecidableEq, Repr

/-- The argument of `readTimestamp` (R99). -/
inductive TxRx where
  | tx
  | rx
  deriving DecidableEq, Repr

/-- The argument of `receiveEnable` (R305). -/
inductive RxStart where
  | immediate
  | delayedFromTimestamp (offset : BitVec 32)
  deriving DecidableEq, Repr

/-- The answer of `transmitDelayed` (R99). -/
inductive StartVerdict where
  | ok
  | lateStart
  deriving DecidableEq, Repr

/-- The AES job handed to `doAes` (R264): nonce byte j in bits 8j+7:8j of `nonce`. -/
structure AesJob where
  nonce : BitVec 96
  headerLen : BitVec 16
  payloadLen : Nat
  micLen : BitVec 8
  mode : BitVec 1
  deriving DecidableEq, Repr

/-- A HAL call with its arguments (R14, R305). The buffer argument of `readFrame` is always the frame buffer. -/
inductive HalCall where
  | transmit (frame : List Byte) (rangingBit : Bool)
  | transmitDelayed (frame : List Byte) (targetTime : Timestamp)
  | receiveEnable (start : RxStart)
  | awaitStatus (mask : EventBits) (timeout : BitVec 32)
  | readTimestamp (which : TxRx)
  | readClockOffsetRatio
  | readStsQuality
  | configureSts (key iv : BitVec 128)
  | reloadStsCounter (counter : BitVec 32)
  | doAes (job : AesJob)
  | readFrame (maxLen : Nat)
  /-- Part of the HAL contract; no step of this block emits it (R305). -/
  | writeFrame (frame : List Byte)
  deriving DecidableEq, Repr

/-- The HAL answers of one step (R6, R99): no step draws two answers of one kind. The event answer of
`awaitStatus` is the event word itself. -/
structure HalAnswers where
  /-- `readTimestamp -> u64`. -/
  timestamp : BitVec 64
  /-- `readClockOffsetRatio -> f32`. -/
  ratio : BitVec 32
  /-- `readStsQuality -> i16`. -/
  score : BitVec 16
  /-- `transmitDelayed -> Result<(), LateStart>`. -/
  start : StartVerdict
  /-- `doAes -> i8`. -/
  aes : BitVec 8
  /-- `readFrame -> len`. -/
  frameLen : Nat
  /-- The bytes `readFrame` delivers, the first on the air first. -/
  frameBytes : List Byte
  deriving DecidableEq, Repr

/-- One input of the environment, with the HAL answers that its step may draw (R5, R6). -/
inductive Input where
  /-- The host presents a command (R80). -/
  | command (w : CmdWord) (opnd : Datum) (ans : HalAnswers)
  /-- The HAL answers the outstanding `awaitStatus` (R98, R202). -/
  | event (ev : EventBits) (ans : HalAnswers)
  /-- The core takes its own step, if it has one (R201, tau). -/
  | core (ans : HalAnswers)
  /-- The reset input (R320). -/
  | reset
  deriving DecidableEq, Repr

/-- The class `cfg` registers of R36, `CTRL` and the templates among them. -/
structure CfgRegs where
  ctrl : BitVec 4
  respDelay : BitVec 40
  finalDelay : BitVec 40
  txAntDly : BitVec 40
  dPoll : BitVec 32
  dResp : BitVec 32
  dFinal : BitVec 32
  toPoll : BitVec 32
  toResp : BitVec 32
  toFinal : BitVec 32
  toAck : BitVec 32
  stsCtrInc : BitVec 32
  /-- `FRAME_LEN[k]`, by kind number. -/
  frameLen : Vector (BitVec 8) 4
  pollCtrIdx : BitVec 8
  finalPollTxIdx : BitVec 8
  finalRespRxIdx : BitVec 8
  finalFinalTxIdx : BitVec 8
  reportPollRxIdx : BitVec 8
  reportRespTxIdx : BitVec 8
  /-- `TPL[k]`, by kind number, byte j in bits 8j+7:8j (R25). -/
  tpl : Vector (BitVec 80) 4
  deriving DecidableEq, Repr

/-- The AES operand registers (R36, R40, R260). -/
structure AesRegs where
  ctr : BitVec 48
  src : BitVec 48
  frameLen : BitVec 16
  hdrLen : BitVec 16
  micLen : BitVec 8
  mode : BitVec 1
  bufCap : BitVec 16
  errMask : BitVec 8
  fcsLen : BitVec 8
  deriving DecidableEq, Repr

/-- The four diagnostic counters (R33). -/
structure Counters where
  badFrame : BitVec 32
  badSts : BitVec 32
  rxTimeout : BitVec 32
  rxError : BitVec 32
  deriving DecidableEq, Repr

/-- The frame buffer: the written bytes, addresses strictly rising, no entry equal to the reset byte; an unlisted
address reads as the reset byte 0 (R24, R41). -/
abbrev Memory := List Host.Cell

/-- The canonical form of the frame buffer, every address inside `0 .. FB_SIZE-1` (R60). -/
abbrev Memory.wf (m : Memory) : Prop :=
  m.Pairwise (fun c d => c.1 < d.1) ∧ ∀ c ∈ m, c.1 < Config.fbSize ∧ c.2 ≠ Config.fbResetByte

/-- The state of one TRC instance (R20), and the model's own fields: the environment's inputs, the operand and
answers of the step being run, and the recorded outputs (R6, R42). -/
structure State where
  /-- `T[0..7]` (R21). -/
  ts : Vector Timestamp 8
  /-- `W[0..7]` (R22). -/
  tsw : Vector Bool 8
  /-- `FB` (R24). -/
  fb : Memory
  /-- `FB_LEN` (R24). -/
  fbLen : BitVec 8
  /-- `STS_KEY` (R26). -/
  stsKey : BitVec 128
  /-- `STS_IV`; its bits 31:0 are `STS_CTR` (R26). -/
  stsIv : BitVec 128
  /-- `KEY_SET` (R26). -/
  keySet : Bool
  /-- `IV_SET` (R26). -/
  ivSet : Bool
  /-- `RESYNC_PENDING` (R26, R181). -/
  resyncPending : Bool
  /-- `FIRST_DONE` (R26, R184). -/
  firstDone : Bool
  /-- `POLL_CTR` (R26). -/
  pollCtr : BitVec 32
  /-- `STS_SCORE` (R26). -/
  stsScore : BitVec 16
  /-- `K` (R27). -/
  k : BitVec 32
  /-- `TOF` (R28). -/
  tof : ℚ
  /-- `TOF_VALID` (R28). -/
  tofValid : Bool
  /-- `STATE` (R29, R30). -/
  state : SeqState
  /-- `OUTCOME` (R31). -/
  outcome : ExchangeOutcome
  /-- `SEQ` (R32). -/
  seq : BitVec 8
  /-- `SESSION` (R32). -/
  session : Bool
  /-- The diagnostic counters (R33). -/
  cnt : Counters
  /-- The class `cfg` registers (R35, R36). -/
  cfg : CfgRegs
  /-- The AES operand registers (R40). -/
  aes : AesRegs
  /-- `HAS_AES`, fixed for an instance (R8); the model's field (log 7). -/
  hasAes : Bool
  /-- The environment's inputs still to come, the next first; the model's field (log 1). -/
  inputs : List Input
  /-- `OPND` of the step being run; the model's field (log 18). -/
  opnd : Datum
  /-- The HAL answers of the step being run; the model's field, free values (log 18). -/
  ans : HalAnswers
  /-- The HAL calls emitted so far, the first first (R6); the model's field (log 4). -/
  calls : List HalCall
  /-- The responses given so far, the first first (R80); the model's field (log 4). -/
  responses : List Response
  /-- Index of the next free value; the model's field (log 3, log 6). -/
  draws : Nat
  deriving DecidableEq, Repr

/-- Where a step stops because the spec defines no behaviour. -/
inductive Fault where
  /-- The radio answered `awaitStatus` with no bit, several bits, or a bit outside the mask: raised by the event
  words in a waiting state. Outside the HAL contract (R202, R306, 93 U2). DEDUCED (log 10). Safe: the model does not go on. -/
  | eventOutsideContract
  /-- The radio answered `readFrame` with a length above `maxLen`, or with another number of bytes than the length:
  raised by a good-frame step. Outside the HAL contract (R306, 93 U3). DEDUCED (log 12). Safe: the model does not go on. -/
  | frameOutsideContract
  /-- A sequencer step would reach frame bytes that `LayoutOK` has not bounded: raised by the sequencer's encode and
  decode. No run reaches it, since `XSTART` checks the layout and the configuration is then locked (R64, R203). DESIGN CHOICE (log 13).
  Safe: the model does not go on. -/
  | layoutViolated
  deriving DecidableEq, Repr

/-- Why a step is refused. -/
inductive Refusal where
  /-- The instruction has no meaning in this model: raised by an arm of exec that rejects by name; no arm does.
  Safe: the model does not go on. -/
  | notModelled (mnemonic : String)
  deriving DecidableEq, Repr

/-- The configuration after reset (R41): everything 0. -/
def CfgRegs.reset : CfgRegs :=
  { ctrl := 0, respDelay := 0, finalDelay := 0, txAntDly := 0, dPoll := 0, dResp := 0, dFinal := 0,
    toPoll := 0, toResp := 0, toFinal := 0, toAck := 0, stsCtrInc := 0,
    frameLen := Vector.replicate 4 0,
    pollCtrIdx := 0, finalPollTxIdx := 0, finalRespRxIdx := 0, finalFinalTxIdx := 0, reportPollRxIdx := 0,
    reportRespTxIdx := 0,
    tpl := Vector.replicate 4 0 }

/-- The AES operand registers after reset (R41): everything 0. -/
def AesRegs.reset : AesRegs :=
  { ctr := 0, src := 0, frameLen := 0, hdrLen := 0, micLen := 0, mode := 0, bufCap := 0, errMask := 0, fcsLen := 0 }

/-- The answers held in the port before any step: DESIGN CHOICE (log 18); every step that draws an answer first
takes its own answers from its input. -/
def HalAnswers.reset : HalAnswers :=
  { timestamp := 0, ratio := 0, score := 0, start := .ok, aes := 0, frameLen := 0, frameBytes := [] }

/-- The state after reset (R41, R321). `ts` has no specified value there: DESIGN CHOICE 0 (log 5). `hasAes`, and
the model's own fields, are DESIGN CHOICES (log 7, log 18). -/
def State.reset : State :=
  { ts := Vector.replicate 8 0, tsw := Vector.replicate 8 false,
    fb := [], fbLen := 0,
    stsKey := 0, stsIv := 0, keySet := false, ivSet := false, resyncPending := true, firstDone := false,
    pollCtr := 0, stsScore := 0,
    k := 0, tof := 0, tofValid := false,
    state := .idle, outcome := .none, seq := 0, session := false,
    cnt := { badFrame := 0, badSts := 0, rxTimeout := 0, rxError := 0 },
    cfg := CfgRegs.reset, aes := AesRegs.reset,
    hasAes := true, inputs := [], opnd := 0, ans := HalAnswers.reset, calls := [], responses := [], draws := 0 }

end Sys2Proof.Machine
end

