-- ==== Sys2Proof/Machine/Ops.lean ====
section
/-! DEFINITION. The named operations over the state: frame-buffer memory, timestamp registers, the two output
ports, admission by `STATE`, and the error entry of an exchange with the return from it. -/

namespace Sys2Proof.Machine

/-- What a step answers. -/
abbrev Result := Host.Outcome State Fault Refusal

/-! ## Frame-buffer memory (spec/20_memory.md) -/

/-- `FB[a]`: the listed byte, or the reset byte (R12, R41). -/
def Memory.read : Memory → Nat → Byte
  | [], _ => Config.fbResetByte
  | (a', b) :: m, a => if a' = a then b else Memory.read m a

/-- The memory with a byte put before a tail of higher addresses; the reset byte needs no entry. -/
def Memory.consByte (a : Nat) (b : Byte) (m : Memory) : Memory :=
  if b = Config.fbResetByte then m else (a, b) :: m

/-- `FB[a] <- b`, in canonical form (R12). -/
def Memory.write : Memory → Nat → Byte → Memory
  | [], a, b => Memory.consByte a b []
  | (a', b') :: m, a, b =>
    if a < a' then Memory.consByte a b ((a', b') :: m)
    else if a = a' then Memory.consByte a b m
    else (a', b') :: Memory.write m a b

/-- The bytes `bs` written at `a`, `a+1`, … in rising order. -/
def Memory.writeBytes : Memory → Nat → List Byte → Memory
  | m, _, [] => m
  | m, a, b :: bs => Memory.writeBytes (Memory.write m a b) (a + 1) bs

/-- The `n` bytes from `a` on. -/
def Memory.readBytes (m : Memory) (a n : Nat) : List Byte :=
  (List.range n).map fun j => Memory.read m (a + j)

/-- `bytesLE32(v)` (R10): the four bytes in rising address order. -/
def bytesLE32 (v : BitVec 32) : List Byte :=
  [v.extractLsb' 0 8, v.extractLsb' 8 8, v.extractLsb' 16 8, v.extractLsb' 24 8]

/-- `LE32(b0, b1, b2, b3)` (R10). -/
def le32 (b0 b1 b2 b3 : Byte) : BitVec 32 := b3 ++ b2 ++ b1 ++ b0

/-- `MemRead(a, 4)`: a little-endian span (R12, R61). -/
def Memory.read32 (m : Memory) (a : Nat) : BitVec 32 :=
  le32 (Memory.read m a) (Memory.read m (a + 1)) (Memory.read m (a + 2)) (Memory.read m (a + 3))

/-- `MemWrite(a, 4, v)`: a little-endian span (R12, R61). -/
def Memory.write32 (m : Memory) (a : Nat) (v : BitVec 32) : Memory := Memory.writeBytes m a (bytesLE32 v)

/-- The bytes of the frame held: `FB[0 .. FB_LEN-1]` (R75). -/
def State.frame (s : State) : List Byte := Memory.readBytes s.fb 0 s.fbLen.toNat

/-! ## Timestamp registers (spec/10_state.md R21, R22) -/

/-- `T[r] <- v`, which sets `W[r]` (R12, R22). -/
def State.setT (s : State) (r : RegNum) (v : Timestamp) : State :=
  { s with ts := s.ts.set r v, tsw := s.tsw.set r true }

/-- `T[0..5]` as six free values from index `n` on, `T[6]` and `T[7]` kept (R22, 93 U10; log 6). -/
def freshTimestamps (n : Nat) (ts : Vector Timestamp 8) : Vector Timestamp 8 :=
  #v[Config.freeTimestamp n, Config.freeTimestamp (n + 1), Config.freeTimestamp (n + 2), Config.freeTimestamp (n + 3),
    Config.freeTimestamp (n + 4), Config.freeTimestamp (n + 5), ts[6], ts[7]]

/-- `W[0..5] <- 0`, after which `T[0..5]` hold no defined value; the scratch registers are kept (R22, R272). -/
def State.clearTags (s : State) : State :=
  { s with
    ts := freshTimestamps s.draws s.ts
    tsw := #v[false, false, false, false, false, false, s.tsw[6], s.tsw[7]]
    draws := s.draws + 6 }

/-- The first of the registers `rs` with `W = 0` (R93 (6)). -/
def State.firstUnwritten (s : State) : List RegNum → Option RegNum
  | [] => none
  | r :: rs => if s.tsw[r] then State.firstUnwritten s rs else some r

/-! ## Timestamp arithmetic (spec/40_timestamp_unit.md) -/

/-- `lo(x) = x[31:0]` (R142). -/
def lo32 (t : Timestamp) : Delta := t.setWidth 32

/-- The 32-bit delta of R119, from the earlier instant `b` to the later instant `a`. -/
def delta32 (a b : Timestamp) : Delta := lo32 a - lo32 b

/-- The 512-unit alignment of R121: the 9 low bits zeroed. -/
def align512 (t : Timestamp) : Timestamp := t.extractLsb' 9 31 ++ 0#9

/-- `sched(t, d)` (R122). -/
def sched (t d : Timestamp) : Timestamp := align512 (t + d)

/-- `txstamp(g) = (g + CFG.TX_ANT_DLY) mod 2^40` (R127). -/
def State.txstamp (s : State) (g : Timestamp) : Timestamp := g + s.cfg.txAntDly

/-- The low 40 bits of a `readTimestamp` answer (R99). -/
def State.answerTime (s : State) : Timestamp := s.ans.timestamp.setWidth 40

/-! ## The output ports (spec/00_scope.md R6, R13, R14) -/

/-- Emits a HAL call. -/
def State.call (s : State) (c : HalCall) : State := { s with calls := s.calls ++ [c] }

/-- Gives a response. -/
def State.respond (s : State) (st : Status) (d : Datum) : State :=
  { s with responses := s.responses ++ [⟨st, d⟩] }

/-- `respond(STATUS, DATA)` as the end of a host command step (R13). -/
def reply (s : State) (st : Status) (d : Datum) : Result := .next (s.respond st d)

/-! ## Admission by STATE (spec/30_encoding.md R92) -/

/-- An active state: an exchange is in flight (R30). -/
def SeqState.isActive : SeqState → Bool
  | .pollSent | .awaitResponse | .respondValid | .finalSent | .awaitAck | .awaitPoll | .pollValid | .respSent
  | .awaitFinal | .finalValid => true
  | .idle | .done | .timedOut | .badFrame | .badSts | .failed => false

/-- A terminal state: the result is held until `XCLR` (R30). -/
def SeqState.isTerminal : SeqState → Bool
  | .done | .timedOut | .badFrame | .badSts | .failed => true
  | .idle | .pollSent | .awaitResponse | .respondValid | .finalSent | .awaitAck | .awaitPoll | .pollValid
  | .respSent | .awaitFinal | .finalValid => false

/-- Write class: admitted in `Idle` and in terminal states, else `ERR_BUSY` (R92). -/
def admitWrite (s : State) (k : Result) : Result :=
  if s.state.isActive then reply s .errBusy 0 else k

/-- Configuration class, and `XSTART`: admitted in `Idle` only; `ERR_BUSY` in an active state, `ERR_STATE` in a
terminal one (R92). -/
def admitIdle (s : State) (k : Result) : Result :=
  if s.state.isActive then reply s .errBusy 0
  else if s.state.isTerminal then reply s .errState 0
  else k

/-- `XCLR`: admitted in terminal states only (R92). -/
def admitTerminal (s : State) (k : Result) : Result :=
  if s.state.isActive then reply s .errBusy 0
  else if s.state.isTerminal then k
  else reply s .errState 0

/-! ## The error entry and the return (spec/60_exceptions.md R300, R303; spec/44_sequencer.md R204) -/

/-- `code(E)`: the outcome an error records (R291). -/
def ErrorKind.outcome : ErrorKind → ExchangeOutcome
  | .badFrame => .badFrame
  | .badSts => .badSts
  | .rxTimeout => .rxTimeout
  | .rxError => .rxError
  | .lateStart => .lateStart
  | .degenerateTiming => .degenerateTiming

/-- `terminal(E)`: the state an error ends in (R291). -/
def ErrorKind.terminal : ErrorKind → SeqState
  | .badFrame => .badFrame
  | .badSts => .badSts
  | .rxTimeout => .timedOut
  | .rxError => .failed
  | .lateStart => .failed
  | .degenerateTiming => .failed

/-- The counters after an error: the counted kinds advance theirs by 1 modulo 2^32 (R33, R300). -/
def ErrorKind.count (e : ErrorKind) (c : Counters) : Counters :=
  match e with
  | .badFrame => { c with badFrame := c.badFrame + 1 }
  | .badSts => { c with badSts := c.badSts + 1 }
  | .rxTimeout => { c with rxTimeout := c.rxTimeout + 1 }
  | .rxError => { c with rxError := c.rxError + 1 }
  | .lateStart => c
  | .degenerateTiming => c

/-- `raise E`: the error-entry sequence, the one way an exchange error is taken (R300). The step ends with it. -/
def State.raise (s : State) (e : ErrorKind) : State :=
  { s with cnt := e.count s.cnt, outcome := e.outcome, resyncPending := true, state := e.terminal }

/-- `conclude`: the successful conclusion (R204). -/
def State.conclude (s : State) : State :=
  { s with outcome := .success, resyncPending := true, state := .done }

/-- The return from a terminal state: nothing is restored, because nothing was saved (R273, R303). -/
def State.clear (s : State) : State := { s with state := .idle, outcome := .none }

end Sys2Proof.Machine
end

