-- ==== Sys2Proof/Machine/Flags.lean ====
section
/-! DEFINITION. The flag computations and the numeric codes: comparison verdicts (spec/40_timestamp_unit.md R123,
R124), the codes of `STATE`, `OUTCOME`, the response status and the events, the `STATUS` view (spec/10_state.md
R38), and the bits of `CTRL` (R35). The block stores no condition codes (R34). -/

namespace Sys2Proof.Machine

/-- One bit from a truth value. -/
def bit (b : Bool) : BitVec 1 := BitVec.ofBool b

/-- `{AMBIG, GT, LT, EQ}` from the modular difference `d` of `w` bits: `LT` when its top bit is set, `AMBIG` when it
is exactly half the range (R123, R124). -/
def compareVerdict {w : Nat} (d : BitVec w) : BitVec 4 :=
  bit (d = BitVec.twoPow w (w - 1)) ++ bit (d ≠ 0 ∧ d.msb = false) ++ bit d.msb ++ bit (d = 0)

/-- The number of a `STATE` value (R30). -/
def SeqState.code : SeqState → BitVec 4
  | .idle => 0
  | .pollSent => 1
  | .awaitResponse => 2
  | .respondValid => 3
  | .finalSent => 4
  | .awaitAck => 5
  | .awaitPoll => 6
  | .pollValid => 7
  | .respSent => 8
  | .awaitFinal => 9
  | .finalValid => 10
  | .done => 11
  | .timedOut => 12
  | .badFrame => 13
  | .badSts => 14
  | .failed => 15

/-- The number of an `OUTCOME` value (R31). -/
def ExchangeOutcome.code : ExchangeOutcome → BitVec 4
  | .none => 0
  | .success => 1
  | .badFrame => 2
  | .badSts => 3
  | .rxTimeout => 4
  | .rxError => 5
  | .lateStart => 6
  | .degenerateTiming => 7
  | .lengthError => 8
  | .cryptoError => 9

/-- The number of a response status (R91). -/
def Status.code : Status → BitVec 8
  | .ok => 0
  | .errIllegal => 1
  | .errBusy => 2
  | .errState => 3
  | .errUnwritten => 4
  | .errLocked => 5
  | .errRange => 6
  | .errConfig => 7
  | .mismatch => 8
  | .degenerate => 9
  | .errBadK => 10
  | .lengthError => 11
  | .cryptoError => 12

/-- `CTRL.ROLE`: 0 Initiator, 1 Responder (R35). -/
def State.isResponder (s : State) : Bool := s.cfg.ctrl.getLsbD 0
/-- `CTRL.SCHEME`: 0 single-sided, 1 double-sided (R35). -/
def State.isDoubleSided (s : State) : Bool := s.cfg.ctrl.getLsbD 1
/-- `CTRL.SECMODE`: 0 None, 1 Sts (R35). -/
def State.usesSts (s : State) : Bool := s.cfg.ctrl.getLsbD 2
/-- `CTRL.ACK_EN` (R35). -/
def State.ackEnabled (s : State) : Bool := s.cfg.ctrl.getLsbD 3

/-- `W[7:0]`, bit i is `W[i]` (R38). -/
def State.tagBits (s : State) : BitVec 8 :=
  bit s.tsw[7] ++ bit s.tsw[6] ++ bit s.tsw[5] ++ bit s.tsw[4] ++ bit s.tsw[3] ++ bit s.tsw[2] ++ bit s.tsw[1]
    ++ bit s.tsw[0]

/-- `STATUS` (0x01): a view, assembled when read (R38). -/
def State.statusView (s : State) : BitVec 22 :=
  s.tagBits ++ bit s.ivSet ++ bit s.keySet ++ bit s.session ++ bit s.firstDone ++ bit s.resyncPending
    ++ bit s.tofValid ++ s.outcome.code ++ s.state.code

/-- `STS_CTR = STS_IV[31:0]`: a view (R26). -/
def State.stsCtr (s : State) : BitVec 32 := s.stsIv.setWidth 32

/-- `STS_IV[31:0] <- c`, the upper 96 bits unchanged (R184, R187). -/
def State.setStsCtr (s : State) (c : BitVec 32) : State :=
  { s with stsIv := s.stsIv.extractLsb' 32 96 ++ c }

/-- `good(s) = (s >= 0)` of a signed quality score (R186). -/
def goodScore (score : BitVec 16) : Bool := !score.msb

/-- The event bits (R98). -/
abbrev evGoodBit : EventBits := 0x1
abbrev evRxErrBit : EventBits := 0x2
abbrev evRxToBit : EventBits := 0x4
abbrev evTxDoneBit : EventBits := 0x8
/-- `RXMASK` (R98). -/
abbrev rxMask : EventBits := 0b0111
/-- `TXMASK` (R98). -/
abbrev txMask : EventBits := 0b1000

end Sys2Proof.Machine
end

