-- ==== Sys2Proof/Machine/Operands.lean ====
section
/-! DEFINITION. The operand forms: slices of `OPND`, timestamp sources, frame-buffer offsets, frame kinds, and the
registers of the index map (spec/30_encoding.md R81, R84, R93; spec/10_state.md R36, R37). -/

namespace Sys2Proof.Machine

/-- `OPND[n-1:0]` (R84). -/
def State.opndLow (s : State) (n : Nat) : BitVec n := s.opnd.setWidth n

/-- A timestamp source: `k` with its value, or `ERR_UNWRITTEN` with its number in `DATA` (R22, R93 (6)). -/
def withSource (s : State) (r : RegNum) (k : Timestamp → Result) : Result :=
  if s.tsw[r] then k s.ts[r] else reply s .errUnwritten (BitVec.ofNat 128 r)

/-- Implicit timestamp sources, tested in the order listed (R93 (6)). -/
def withWritten (s : State) (rs : List RegNum) (k : Result) : Result :=
  match s.firstUnwritten rs with
  | some r => reply s .errUnwritten (BitVec.ofNat 128 r)
  | none => k

/-- A frame-buffer span of `n` bytes at `off`, or `ERR_RANGE` (R64, R93 (5)). -/
def withSpan (s : State) (off : BitVec 8) (n : Nat) (k : Result) : Result :=
  if off.toNat + n ≤ Config.fbSize then k else reply s .errRange 0

/-- The number of a frame kind (R84). -/
def kindIndex (k : FrameKind) : Fin 4 := (kindBits k).toFin

/-- `FRAME_LEN[k]` (R155). -/
def State.frameLenOf (s : State) (k : FrameKind) : BitVec 8 := s.cfg.frameLen[kindIndex k]

/-- `TPL[k][j]`; byte 2 reads as 0 (R25, R37; log 20). -/
def State.tplByte (s : State) (k : FrameKind) (j : Nat) : Byte :=
  if j = Config.seqIdx then 0 else s.cfg.tpl[kindIndex k].extractLsb' (8 * j) 8

/-- What a template register stores: the low 80 bits with byte 2 as 0 (R37, D18). -/
def tplStored (v : BitVec 80) : BitVec 80 := v &&& 0xFFFFFFFFFFFFFF00FFFF

/-- `reg[idx]` extended to 128 bits: zero-extended, but `STS_SCORE` sign-extended (R37, R275). A template reads with
byte 2 as 0. -/
def State.readReg (s : State) : CfgReg → Datum
  | .ctrl => s.cfg.ctrl.setWidth 128
  | .status => s.statusView.setWidth 128
  | .seq => s.seq.setWidth 128
  | .respDelay => s.cfg.respDelay.setWidth 128
  | .finalDelay => s.cfg.finalDelay.setWidth 128
  | .txAntDly => s.cfg.txAntDly.setWidth 128
  | .dPoll => s.cfg.dPoll.setWidth 128
  | .dResp => s.cfg.dResp.setWidth 128
  | .dFinal => s.cfg.dFinal.setWidth 128
  | .toPoll => s.cfg.toPoll.setWidth 128
  | .toResp => s.cfg.toResp.setWidth 128
  | .toFinal => s.cfg.toFinal.setWidth 128
  | .toAck => s.cfg.toAck.setWidth 128
  | .stsCtrInc => s.cfg.stsCtrInc.setWidth 128
  | .frameLenPoll => s.cfg.frameLen[0].setWidth 128
  | .frameLenResponse => s.cfg.frameLen[1].setWidth 128
  | .frameLenFinal => s.cfg.frameLen[2].setWidth 128
  | .frameLenReport => s.cfg.frameLen[3].setWidth 128
  | .pollCtrIdx => s.cfg.pollCtrIdx.setWidth 128
  | .finalPollTxIdx => s.cfg.finalPollTxIdx.setWidth 128
  | .finalRespRxIdx => s.cfg.finalRespRxIdx.setWidth 128
  | .finalFinalTxIdx => s.cfg.finalFinalTxIdx.setWidth 128
  | .reportPollRxIdx => s.cfg.reportPollRxIdx.setWidth 128
  | .reportRespTxIdx => s.cfg.reportRespTxIdx.setWidth 128
  | .tplPoll => (tplStored s.cfg.tpl[0]).setWidth 128
  | .tplResponse => (tplStored s.cfg.tpl[1]).setWidth 128
  | .tplFinal => (tplStored s.cfg.tpl[2]).setWidth 128
  | .tplReport => (tplStored s.cfg.tpl[3]).setWidth 128
  | .cntBadFrame => s.cnt.badFrame.setWidth 128
  | .cntBadSts => s.cnt.badSts.setWidth 128
  | .cntRxTimeout => s.cnt.rxTimeout.setWidth 128
  | .cntRxError => s.cnt.rxError.setWidth 128
  | .stsScore => s.stsScore.signExtend 128
  | .pollCtr => s.pollCtr.setWidth 128
  | .stsCtr => s.stsCtr.setWidth 128
  | .k => s.k.setWidth 128
  | .aesCtr => s.aes.ctr.setWidth 128
  | .aesSrc => s.aes.src.setWidth 128
  | .aesFrameLen => s.aes.frameLen.setWidth 128
  | .aesHdrLen => s.aes.hdrLen.setWidth 128
  | .aesMicLen => s.aes.micLen.setWidth 128
  | .aesMode => s.aes.mode.setWidth 128
  | .aesBufCap => s.aes.bufCap.setWidth 128
  | .aesErrMask => s.aes.errMask.setWidth 128
  | .fcsLen => s.aes.fcsLen.setWidth 128

/-- `reg[idx] <- OPND[bits-1:0]` (R37, R274). A read-only register keeps its value (CFGW refuses it before). -/
def State.writeReg (s : State) (r : CfgReg) : State :=
  match r with
  | .ctrl => { s with cfg := { s.cfg with ctrl := s.opndLow 4 } }
  | .seq => { s with seq := s.opndLow 8 }
  | .respDelay => { s with cfg := { s.cfg with respDelay := s.opndLow 40 } }
  | .finalDelay => { s with cfg := { s.cfg with finalDelay := s.opndLow 40 } }
  | .txAntDly => { s with cfg := { s.cfg with txAntDly := s.opndLow 40 } }
  | .dPoll => { s with cfg := { s.cfg with dPoll := s.opndLow 32 } }
  | .dResp => { s with cfg := { s.cfg with dResp := s.opndLow 32 } }
  | .dFinal => { s with cfg := { s.cfg with dFinal := s.opndLow 32 } }
  | .toPoll => { s with cfg := { s.cfg with toPoll := s.opndLow 32 } }
  | .toResp => { s with cfg := { s.cfg with toResp := s.opndLow 32 } }
  | .toFinal => { s with cfg := { s.cfg with toFinal := s.opndLow 32 } }
  | .toAck => { s with cfg := { s.cfg with toAck := s.opndLow 32 } }
  | .stsCtrInc => { s with cfg := { s.cfg with stsCtrInc := s.opndLow 32 } }
  | .frameLenPoll => { s with cfg := { s.cfg with frameLen := s.cfg.frameLen.set 0 (s.opndLow 8) } }
  | .frameLenResponse => { s with cfg := { s.cfg with frameLen := s.cfg.frameLen.set 1 (s.opndLow 8) } }
  | .frameLenFinal => { s with cfg := { s.cfg with frameLen := s.cfg.frameLen.set 2 (s.opndLow 8) } }
  | .frameLenReport => { s with cfg := { s.cfg with frameLen := s.cfg.frameLen.set 3 (s.opndLow 8) } }
  | .pollCtrIdx => { s with cfg := { s.cfg with pollCtrIdx := s.opndLow 8 } }
  | .finalPollTxIdx => { s with cfg := { s.cfg with finalPollTxIdx := s.opndLow 8 } }
  | .finalRespRxIdx => { s with cfg := { s.cfg with finalRespRxIdx := s.opndLow 8 } }
  | .finalFinalTxIdx => { s with cfg := { s.cfg with finalFinalTxIdx := s.opndLow 8 } }
  | .reportPollRxIdx => { s with cfg := { s.cfg with reportPollRxIdx := s.opndLow 8 } }
  | .reportRespTxIdx => { s with cfg := { s.cfg with reportRespTxIdx := s.opndLow 8 } }
  | .tplPoll => { s with cfg := { s.cfg with tpl := s.cfg.tpl.set 0 (tplStored (s.opndLow 80)) } }
  | .tplResponse => { s with cfg := { s.cfg with tpl := s.cfg.tpl.set 1 (tplStored (s.opndLow 80)) } }
  | .tplFinal => { s with cfg := { s.cfg with tpl := s.cfg.tpl.set 2 (tplStored (s.opndLow 80)) } }
  | .tplReport => { s with cfg := { s.cfg with tpl := s.cfg.tpl.set 3 (tplStored (s.opndLow 80)) } }
  | .k => { s with k := s.opndLow 32 }
  | .aesCtr => { s with aes := { s.aes with ctr := s.opndLow 48 } }
  | .aesSrc => { s with aes := { s.aes with src := s.opndLow 48 } }
  | .aesFrameLen => { s with aes := { s.aes with frameLen := s.opndLow 16 } }
  | .aesHdrLen => { s with aes := { s.aes with hdrLen := s.opndLow 16 } }
  | .aesMicLen => { s with aes := { s.aes with micLen := s.opndLow 8 } }
  | .aesMode => { s with aes := { s.aes with mode := s.opndLow 1 } }
  | .aesBufCap => { s with aes := { s.aes with bufCap := s.opndLow 16 } }
  | .aesErrMask => { s with aes := { s.aes with errMask := s.opndLow 8 } }
  | .fcsLen => { s with aes := { s.aes with fcsLen := s.opndLow 8 } }
  | .status | .cntBadFrame | .cntBadSts | .cntRxTimeout | .cntRxError | .stsScore | .pollCtr | .stsCtr => s

/-- The register an index names on this instance: an AES index names one only when `HAS_AES = 1` (R36). -/
def State.regAt (s : State) (idx : BitVec 8) : Option CfgReg :=
  match regOf idx with
  | some r => if regIsAes r && !s.hasAes then none else some r
  | none => none

end Sys2Proof.Machine
end

