-- ==== Sys2Proof/Machine/Aes.lean ====
section
/-! DEFINITION. The AES frame-security companion unit (spec/45_aes_frame_security.md R260 to R265), present when
`HAS_AES = 1`. -/

namespace Sys2Proof.Machine

/-- A command of the unit: `ERR_ILLEGAL` on an instance without it (R93 (1), R96). -/
def withAes (s : State) (k : Result) : Result := if s.hasAes then k else reply s .errIllegal 0

/-- The 12-byte nonce: the counter's six bytes, then the source address's six (R261). -/
def AesRegs.nonce (a : AesRegs) : BitVec 96 := a.src ++ a.ctr

/-- `payload_len`, an exact integer (R262). -/
def AesRegs.payloadLen (a : AesRegs) : ℤ :=
  (a.frameLen.toNat : ℤ) - a.hdrLen.toNat - a.micLen.toNat - a.fcsLen.toNat

/-- The length contract fails: negative, or not below the capacity (R262). -/
def AesRegs.badLength (a : AesRegs) : Bool := decide (a.payloadLen < 0 ∨ (a.bufCap.toNat : ℤ) ≤ a.payloadLen)

/-- The job handed to `doAes` (R264). -/
def AesRegs.job (a : AesRegs) : AesJob :=
  { nonce := a.nonce, headerLen := a.hdrLen, payloadLen := a.payloadLen.toNat, micLen := a.micLen, mode := a.mode }

/-- The classification of a completion status: the sign first, then the error bits (R263). -/
def replyClassified (s : State) (st : BitVec 8) : Result :=
  if st.msb then reply s .lengthError (st.signExtend 128)
  else if st &&& s.aes.errMask ≠ 0 then reply s .cryptoError ((st &&& s.aes.errMask).setWidth 128)
  else reply s .ok 0

/-- `AESNONCE` (R261). -/
def execAesnonce (s : State) : Result := withAes s <| reply s .ok (s.aes.nonce.setWidth 128)

/-- `AESLEN` (R262). -/
def execAeslen (s : State) : Result :=
  withAes s <|
    if s.aes.badLength then reply s .lengthError (BitVec.ofInt 128 s.aes.payloadLen)
    else reply s .ok (BitVec.ofInt 128 s.aes.payloadLen)

/-- `AESCLS` (R263). -/
def execAescls (s : State) : Result := withAes s <| replyClassified s (s.opndLow 8)

/-- `AESPROT` (R264): the length check before the hardware job, then the classification of its answer. -/
def execAesprot (s : State) : Result :=
  withAes s <| admitWrite s <|
    if s.aes.badLength then reply s .lengthError (BitVec.ofInt 128 s.aes.payloadLen)
    else replyClassified (s.call (.doAes s.aes.job)) s.ans.aes

end Sys2Proof.Machine
end

