-- ==== Sys2Proof/Machine/Estimator.lean ====
section
/-! DEFINITION. The time-of-flight estimator (spec/41_tof_estimator.md R140 to R147). The commands and the
sequencer share the two estimates. -/

namespace Sys2Proof.Machine

/-- `val(K)` (R141): the rational a binary32 pattern denotes, `none` for exponent 255. With `m = 2^23 + f`, a normal
number `2^(e-127) * (1 + f/2^23)` is `m * 2^e / 2^150`; a subnormal one is `f / 2^149`. -/
def f32Value (k : BitVec 32) : Option ℚ :=
  let e := (k.extractLsb' 23 8).toNat
  let f := (k.extractLsb' 0 23).toNat
  let magnitude : ℚ := if e = 0 then mkRat f (2 ^ 149) else mkRat ((2 ^ 23 + f) * 2 ^ e : Nat) (2 ^ 150)
  if e = 255 then none else some (if k.msb then -magnitude else magnitude)

/-- A natural number as an exact rational. -/
def ratOfNat (n : Nat) : ℚ := mkRat n 1

/-- What an estimate answers (R143 to R145). -/
inductive Estimate where
  | tof (q : ℚ)
  | degenerate
  | badK
  deriving DecidableEq, Repr

/-- `(Ra - Rb * (1 - k)) / 2`, exact (R143). -/
def tofSingle (ra rb : Delta) (k : ℚ) : ℚ := (ratOfNat ra.toNat - ratOfNat rb.toNat * (1 - k)) / 2

/-- The DS-TWR numerator `Ra * Rb - Da * Db`, exact (R144). -/
def numDouble (ra rb da db : Delta) : ℤ := ra.toNat * rb.toNat - da.toNat * db.toNat

/-- The DS-TWR denominator `Ra + Rb + Da + Db`, exact (R144). -/
def denDouble (ra rb da db : Delta) : Nat := ra.toNat + rb.toNat + da.toNat + db.toNat

/-- The SS-TWR estimate on `T0 .. T3` and `K`: the non-finite test precedes the degenerate test (R142, R143, R145,
R296 (3)). -/
def State.estimateSingle (s : State) : Estimate :=
  let ra := delta32 s.ts[3] s.ts[0]
  let rb := delta32 s.ts[2] s.ts[1]
  match f32Value s.k with
  | none => .badK
  | some k => if ra = 0 ∧ rb = 0 then .degenerate else .tof (tofSingle ra rb k)

/-- The DS-TWR estimate on `T0 .. T5` (R142, R144, R145). -/
def State.estimateDouble (s : State) : Estimate :=
  let ra := delta32 s.ts[3] s.ts[0]
  let rb := delta32 s.ts[5] s.ts[2]
  let da := delta32 s.ts[4] s.ts[3]
  let db := delta32 s.ts[2] s.ts[1]
  if denDouble ra rb da db = 0 then .degenerate
  else .tof (mkRat (numDouble ra rb da db) (denDouble ra rb da db))

/-- `TOF <- q; TOF_VALID <- 1` (R28). -/
def State.setTof (s : State) (q : ℚ) : State := { s with tof := q, tofValid := true }

/-- The end of `TOFSS` and `TOFDS`: the result, or a status with nothing written (R143, R144). -/
def replyEstimate (s : State) : Estimate → Result
  | .tof q => reply (s.setTof q) .ok 0
  | .degenerate => reply s .degenerate 0
  | .badK => reply s .errBadK 0

/-- `trunc0(q)`: rounding toward zero (R11, R146). -/
def trunc0 (q : ℚ) : ℤ := q.num.tdiv q.den

/-- `TOFSS` (R143). -/
def execTofss (s : State) : Result :=
  admitWrite s <| withWritten s [0, 1, 2, 3] <| replyEstimate s s.estimateSingle

/-- `TOFDS` (R144). -/
def execTofds (s : State) : Result :=
  admitWrite s <| withWritten s [0, 1, 2, 3, 4, 5] <| replyEstimate s s.estimateDouble

/-- `TOFRD` (R146): the integer view of `TOF` as a signed 64-bit number, sign-extended. -/
def execTofrd (s : State) : Result :=
  if s.tofValid = false then reply s .errUnwritten 0x10
  else if trunc0 s.tof < -2 ^ 63 ∨ 2 ^ 63 ≤ trunc0 s.tof then reply s .errRange 0
  else reply s .ok (BitVec.ofInt 128 (trunc0 s.tof))

/-- The distance in metres of a time of flight (R147): a function of the model, not a command. -/
def distanceMetres (tof : ℚ) : ℚ := tof * Config.dtuSeconds * Config.speedOfLight

/-- The document's `Success(distance)` (R31, R147): a distance exists when the exchange succeeded and ran the
estimator. -/
def State.distance (s : State) : Option ℚ :=
  if s.outcome = .success ∧ s.tofValid = true then some (distanceMetres s.tof) else none

end Sys2Proof.Machine
end

