-- ==== Sys2Proof/Machine/FrameCodec.lean ====
section
/-! DEFINITION. The frame codec (spec/42_frame_codec.md R155 to R166; the layout, spec/30_encoding.md R100). The
commands and the sequencer share encode and decode. -/

namespace Sys2Proof.Machine

/-- The embedded fields of R156. -/
inductive FrameField where
  | pollCtr
  | finalPollTx
  | finalRespRx
  | finalFinalTx
  | reportPollRx
  | reportRespTx
  deriving DecidableEq, Repr

/-- `Fields(k)` in table order; the Poll's counter exists only with `CTRL.SECMODE = 1` (R156). -/
def State.fields (s : State) : FrameKind → List FrameField
  | .poll => if s.usesSts then [.pollCtr] else []
  | .response => []
  | .final => [.finalPollTx, .finalRespRx, .finalFinalTx]
  | .report => [.reportPollRx, .reportRespTx]

/-- The offset register of a field (R156). -/
def State.fieldOffset (s : State) : FrameField → Nat
  | .pollCtr => s.cfg.pollCtrIdx.toNat
  | .finalPollTx => s.cfg.finalPollTxIdx.toNat
  | .finalRespRx => s.cfg.finalRespRxIdx.toNat
  | .finalFinalTx => s.cfg.finalFinalTxIdx.toNat
  | .reportPollRx => s.cfg.reportPollRxIdx.toNat
  | .reportRespTx => s.cfg.reportRespTxIdx.toNat

/-- The timestamp register a field is embedded from and extracted to; the Poll's counter has none (R156). -/
def fieldReg : FrameField → Option RegNum
  | .pollCtr => none
  | .finalPollTx => some .pollTx
  | .finalRespRx => some .respRx
  | .finalFinalTx => some .finalTx
  | .reportPollRx => some .pollRx
  | .reportRespTx => some .respTx

/-- What encode embeds: the low 32 bits of the field's register, or `STS_IV[31:0]` (R156). -/
def State.fieldValue (s : State) (f : FrameField) : BitVec 32 :=
  match fieldReg f with
  | some r => lo32 s.ts[r]
  | none => s.stsCtr

/-- Where decode puts an extracted field: its register zero-extended, or `POLL_CTR` (R156). -/
def State.storeField (s : State) (f : FrameField) (v : BitVec 32) : State :=
  match fieldReg f with
  | some r => s.setT r (v.setWidth 40)
  | none => { s with pollCtr := v }

/-- `LayoutOK(k)` (R157): the length holds the header and fits the buffer, every field lies in the payload, and no
two spans overlap. -/
def State.layoutOK (s : State) (k : FrameKind) : Bool :=
  let len := (s.frameLenOf k).toNat
  let offs := (s.fields k).map s.fieldOffset
  decide (Config.hdrLen ≤ len ∧ len ≤ Config.fbSize)
    && offs.all (fun o => decide (Config.hdrLen ≤ o ∧ o + 4 ≤ len))
    && decide (offs.Pairwise fun o1 o2 => o1 + 4 ≤ o2 ∨ o2 + 4 ≤ o1)

/-- The ten header bytes encode writes: the template, with `SEQ` in byte 2 (R100, R159). -/
def State.headerBytes (s : State) (k : FrameKind) : List Byte :=
  (List.range Config.hdrLen).map fun j => if j = Config.seqIdx then s.seq else s.tplByte k j

/-- The frame of kind `k` before its fields: the header, then zeros up to `FRAME_LEN[k]` (R159). -/
def State.blankFrame (s : State) (k : FrameKind) : List Byte :=
  s.headerBytes k ++ List.replicate ((s.frameLenOf k).toNat - Config.hdrLen) 0

/-- The frame buffer with the fields of the list embedded, in order (R159). -/
def State.embedFields (s : State) (fs : List FrameField) (m : Memory) : Memory :=
  fs.foldl (fun m f => Memory.write32 m (s.fieldOffset f) (s.fieldValue f)) m

/-- The encode of `FENC k` after its checks: `FB[0 .. L-1]` and `FB_LEN` written, `SEQ` unchanged (R159). -/
def State.encodeFrame (s : State) (k : FrameKind) : State :=
  { s with
    fb := s.embedFields (s.fields k) (Memory.writeBytes s.fb 0 (s.blankFrame k))
    fbLen := s.frameLenOf k }

/-- The ten header bytes of the buffer equal the template (R160). -/
def State.headerMatches (s : State) (k : FrameKind) : Bool :=
  (List.range Config.hdrLen).all fun j => Memory.read s.fb j == s.tplByte k j

/-- `FB[2] <- 0` (R160). -/
def State.clearSeqByte (s : State) : State := { s with fb := Memory.write s.fb Config.seqIdx 0 }

/-- The fields of the list extracted to their destinations, in order (R160). -/
def State.extractFields (s : State) (fs : List FrameField) : State :=
  fs.foldl (fun t f => t.storeField f (Memory.read32 s.fb (s.fieldOffset f))) s

/-- What the decode of a frame answers, with the state it leaves. -/
inductive Decoded where
  /-- The length differs; nothing written. -/
  | wrongLength
  /-- A header byte differs; `FB[2]` has been cleared. -/
  | wrongHeader (s : State)
  /-- The frame is of the kind; `FB[2]` cleared and the fields stored. -/
  | matched (s : State)

/-- The decode of `FDEC k` after its checks (R160): the length test, `FB[2] <- 0`, the compare, the fields. -/
def State.decodeFrame (s : State) (k : FrameKind) : Decoded :=
  if s.fbLen ≠ s.frameLenOf k then .wrongLength
  else if s.clearSeqByte.headerMatches k then .matched (s.clearSeqByte.extractFields (s.fields k))
  else .wrongHeader s.clearSeqByte

/-- The registers `FENC k` reads (R159): the implicit sources in rising order. -/
def encodeSources : FrameKind → List RegNum
  | .poll => []
  | .response => []
  | .final => [0, 3, 4]
  | .report => [1, 2]

/-- `FENC kind` (R159). -/
def execFenc (k : FrameKind) (s : State) : Result :=
  admitWrite s <|
    if s.layoutOK k = false then reply s .errConfig 0
    else withWritten s (encodeSources k) <|
      if k = .poll ∧ s.usesSts = true ∧ s.ivSet = false then reply s .errUnwritten 0x21
      else reply (s.encodeFrame k) .ok ((s.frameLenOf k).setWidth 128)

/-- `FDEC kind` (R160). -/
def execFdec (k : FrameKind) (s : State) : Result :=
  admitWrite s <|
    if s.layoutOK k = false then reply s .errConfig 0
    else match s.decodeFrame k with
      | .wrongLength => reply s .mismatch 0
      | .wrongHeader t => reply t .mismatch 0
      | .matched t => reply t .ok ((kindBits k).setWidth 128)

/-- `FPUT32 rs, off` (R161): range before the written tag. -/
def execFput32 (rs : RegNum) (off : BitVec 8) (s : State) : Result :=
  admitWrite s <| withSpan s off 4 <| withSource s rs fun v =>
    reply { s with fb := Memory.write32 s.fb off.toNat (lo32 v) } .ok 0

/-- `FGET32 rd, off` (R162). -/
def execFget32 (rd : RegNum) (off : BitVec 8) (s : State) : Result :=
  admitWrite s <| withSpan s off 4 <| reply (s.setT rd ((Memory.read32 s.fb off.toNat).setWidth 40)) .ok 0

/-- `FBWR off` (R163). -/
def execFbwr (off : BitVec 8) (s : State) : Result :=
  admitWrite s <| withSpan s off 1 <| reply { s with fb := Memory.write s.fb off.toNat (s.opndLow 8) } .ok 0

/-- `FBRD off` (R164). -/
def execFbrd (off : BitVec 8) (s : State) : Result :=
  withSpan s off 1 <| reply s .ok ((Memory.read s.fb off.toNat).setWidth 128)

/-- `FLENW` (R165). -/
def execFlenw (s : State) : Result :=
  admitWrite s <|
    if Config.fbSize < (s.opndLow 8).toNat then reply s .errRange 0
    else reply { s with fbLen := s.opndLow 8 } .ok 0

/-- `FLENR` (R166). -/
def execFlenr (s : State) : Result := reply s .ok (s.fbLen.setWidth 128)

end Sys2Proof.Machine
end

