-- ==== Sys2Proof/Machine/Sts.lean ====
section
/-! DEFINITION. The STS synchronisation manager (spec/43_sts_sync.md R181 to R189). The commands and the sequencer
share the exchange-start action and the resynchronisation. -/

namespace Sys2Proof.Machine

/-- The exchange-start action (R184): the first of the session loads the full key and IV, every later one bumps the
counter by `STS_CTR_INC` modulo 2^32 and reloads it. -/
def State.exchangeStart (s : State) : State :=
  if s.firstDone then
    let t := s.setStsCtr (s.stsCtr + s.cfg.stsCtrInc)
    t.call (.reloadStsCounter t.stsCtr)
  else { s.call (.configureSts s.stsKey s.stsIv) with firstDone := true }

/-- The conditional counter overwrite (R187): only while `RESYNC_PENDING = 1`. -/
def State.resync (s : State) : State := if s.resyncPending then s.setStsCtr s.pollCtr else s

/-- The quality score drawn into `STS_SCORE` (R185). -/
def State.drawScore (s : State) : State := { s.call .readStsQuality with stsScore := s.ans.score }

/-- A load of the session's key or IV: configuration class, locked once `FIRST_DONE = 1` (R182, R183). -/
def stsLoad (s t : State) : Result :=
  admitIdle s <| if s.firstDone then reply s .errLocked 0 else reply t .ok 0

/-- `STSKEY` (R182). -/
def execStskey (s : State) : Result := stsLoad s { s with stsKey := s.opnd, keySet := true }

/-- `STSIV` (R183). -/
def execStsiv (s : State) : Result := stsLoad s { s with stsIv := s.opnd, ivSet := true }

/-- `STSBEGIN` (R184). -/
def execStsbegin (s : State) : Result :=
  admitWrite s <|
    if s.keySet = false then reply s .errUnwritten 0x20
    else if s.ivSet = false then reply s .errUnwritten 0x21
    else reply s.exchangeStart .ok (s.exchangeStart.stsCtr.setWidth 128)

/-- `STSCHK` (R185, R186). -/
def execStschk (s : State) : Result :=
  admitWrite s <| reply s.drawScore .ok ((bit (goodScore s.ans.score)).setWidth 128)

/-- `STSRESYNC` (R187): `DATA` tells whether the counter was overwritten. -/
def execStsresync (s : State) : Result :=
  admitWrite s <| reply s.resync .ok ((bit s.resyncPending).setWidth 128)

/-- `STSLOCK` (R188). -/
def execStslock (s : State) : Result := admitWrite s <| reply { s with resyncPending := false } .ok 0

/-- `STSUNLOCK` (R189). -/
def execStsunlock (s : State) : Result := admitWrite s <| reply { s with resyncPending := true } .ok 0

end Sys2Proof.Machine
end

