-- ==== Sys2Proof/Machine/Sequencer.lean ====
section
/-! DEFINITION. The ranging sequencer (spec/44_sequencer.md R200 to R232): the starts of an exchange, the
transitions that an event word enables, and the tau transitions the core takes by itself. -/

namespace Sys2Proof.Machine

/-! ## Waits (R201, R202) -/

/-- The mask and timeout of the `awaitStatus` call that the present state waits on; `none` in a state that waits on
nothing (R201, R202). -/
def State.wait (s : State) : Option (EventBits × BitVec 32) :=
  match s.state with
  | .pollSent | .finalSent | .respSent => some (txMask, 0)
  | .awaitResponse => some (rxMask, s.cfg.toResp)
  | .awaitAck => some (rxMask, s.cfg.toAck)
  | .awaitPoll => some (rxMask, s.cfg.toPoll)
  | .awaitFinal => some (rxMask, s.cfg.toFinal)
  | .idle | .respondValid | .pollValid | .finalValid | .done | .timedOut | .badFrame | .badSts | .failed => none

/-- The step that an event word answers: not delivered where nothing waits (R294; log 11); no behaviour where its
bit is outside the mask (R202, R306, 93 U2; log 10); otherwise `awaitStatus` is emitted and answered, and `k` goes
on. -/
def onEvent (ev : EventBits) (s : State) (k : State → Result) : Result :=
  match s.wait with
  | none => .next s
  | some (mask, timeout) =>
    if ev &&& mask = 0 then .fault .eventOutsideContract else k (s.call (.awaitStatus mask timeout))

/-- An `awaitStatus` answer that is no event word: as an event outside the mask (log 10, log 11). -/
def strayEvent (s : State) : Result :=
  match s.wait with
  | none => .next s
  | some _ => .fault .eventOutsideContract

/-! ## The acceptance procedure (R203) -/

/-- The HAL's `readFrame` answer keeps its contract: `0 <= len <= maxLen` with `len` bytes (R306 (2)). -/
def HalAnswers.frameOK (a : HalAnswers) : Bool := decide (a.frameLen ≤ Config.fbSize ∧ a.frameBytes.length = a.frameLen)

/-- The received bytes stored in `FB[0 .. n-1]`, `FB_LEN <- n`; bytes from `n` on kept (R66, R203). -/
def State.loadFrame (s : State) : State :=
  { s with fb := Memory.writeBytes s.fb 0 s.ans.frameBytes, fbLen := BitVec.ofNat 8 s.ans.frameLen }

/-- The quality test of a matched frame (R186, R203): with STS, a negative score resynchronises on a Poll and raises
`BadSts`. -/
def checkQuality (k : FrameKind) (s : State) (accepted : State → Result) : Result :=
  if s.usesSts = false then accepted s
  else if goodScore s.ans.score then accepted s.drawScore
  else .next ((if k = .poll then s.drawScore.resync else s.drawScore).raise .badSts)

/-- `accept(k)` (R203): read the frame, decode it as `FDEC k` does, store its fields, then test the quality. A frame
that is rejected ends the step with `BadFrame` or `BadSts`. -/
def accept (k : FrameKind) (s : State) (accepted : State → Result) : Result :=
  if s.ans.frameOK = false then .fault .frameOutsideContract
  else
    let t := (s.call (.readFrame Config.fbSize)).loadFrame
    match t.decodeFrame k with
    | .wrongLength => .next (t.raise .badFrame)
    | .wrongHeader u => .next (u.raise .badFrame)
    | .matched u => if t.layoutOK k = false then .fault .layoutViolated else checkQuality k u accepted

/-- The receive timestamp of an accepted frame into `T[r]` (R211, R220, R225). -/
def State.stampRx (s : State) (r : RegNum) : State := (s.call (.readTimestamp .rx)).setT r s.answerTime

/-- The kind of the reply to the Poll: Report for SS-TWR, Response for DS-TWR (R210, D26). -/
def State.replyKind (s : State) : FrameKind := if s.isDoubleSided then .response else .report

/-! ## What follows an accepted frame -/

/-- `AwaitResponse`, accepted (R211): `T3`, for SS-TWR the clock-offset ratio, and `RESYNC_PENDING <- 0`. -/
def acceptedReply (s : State) : Result :=
  let t := s.stampRx .respRx
  let u := if t.isDoubleSided then t else { t.call .readClockOffsetRatio with k := t.ans.ratio }
  .next { u with resyncPending := false, state := .respondValid }

/-- `AwaitAck`, accepted (R218): no timestamp is read. -/
def acceptedAck (s : State) : Result := .next s.conclude

/-- `AwaitPoll`, accepted (R220). -/
def acceptedPoll (s : State) : Result := .next { s.stampRx .pollRx with state := .pollValid }

/-- `AwaitFinal`, accepted (R225). -/
def acceptedFinal (s : State) : Result := .next { s.stampRx .finalRx with state := .finalValid }

/-! ## Event words -/

/-- `EV_GOOD`: a good frame in a receive wait (R210, R211, R218, R220, R225). -/
def execEvGood (s : State) : Result :=
  onEvent evGoodBit s fun s =>
    match s.state with
    | .awaitResponse => accept s.replyKind s acceptedReply
    | .awaitAck => accept .report s acceptedAck
    | .awaitPoll => accept .poll s acceptedPoll
    | .awaitFinal => accept .final s acceptedFinal
    | .idle | .pollSent | .respondValid | .finalSent | .pollValid | .respSent | .finalValid | .done | .timedOut
    | .badFrame | .badSts | .failed => .fault .eventOutsideContract

/-- `EV_RXERR`: a PHY, CRC or sync-loss error in a receive wait (R209, R217, R222, R224). -/
def execEvRxErr (s : State) : Result := onEvent evRxErrBit s fun s => .next (s.raise .rxError)

/-- `EV_RXTO`: the timeout of a receive wait (R208, R217, R222, R224). -/
def execEvRxTo (s : State) : Result := onEvent evRxToBit s fun s => .next (s.raise .rxTimeout)

/-- `SEQ <- (SEQ + 1) mod 256` (R207, R216, R223). -/
def State.nextSeq (s : State) : State := { s with seq := s.seq + 1 }

/-- `PollSent`, tx-done (R207). -/
def pollTransmitted (s : State) : State :=
  { ((s.call (.readTimestamp .tx)).setT .pollTx s.answerTime).nextSeq with state := .awaitResponse }

/-- `FinalSent`, tx-done (R216). -/
def finalTransmitted (s : State) : State :=
  if s.ackEnabled then { s.nextSeq with state := .awaitAck } else s.nextSeq.conclude

/-- `RespSent`, tx-done (R223). -/
def replyTransmitted (s : State) : State :=
  let t := { s.nextSeq with resyncPending := false }
  if s.isDoubleSided then { t with state := .awaitFinal } else t.conclude

/-- `EV_TXDONE`: a transmission reported complete (R207, R216, R223). -/
def execEvTxDone (s : State) : Result :=
  onEvent evTxDoneBit s fun s =>
    match s.state with
    | .pollSent => .next (pollTransmitted s)
    | .finalSent => .next (finalTransmitted s)
    | .respSent => .next (replyTransmitted s)
    | .idle | .awaitResponse | .respondValid | .awaitAck | .awaitPoll | .pollValid | .awaitFinal | .finalValid
    | .done | .timedOut | .badFrame | .badSts | .failed => .fault .eventOutsideContract

/-! ## Tau transitions -/

/-- The transmission of a delayed frame (R213, R215, R221): schedule from the reception time `T[rx]` and the delay,
write the predicted timestamp `T[tx]`, encode, hand the frame to the HAL; `LateStart` ends the step, otherwise a
receive window opens where one follows, and `STATE` moves to `after`. No tag is tested (R22; log 14). -/
def sendDelayed (rx tx : RegNum) (delay : Timestamp) (k : FrameKind) (window : Option (BitVec 32)) (after : SeqState)
    (s : State) : Result :=
  let g := sched s.ts[rx] delay
  let t := s.setT tx (s.txstamp g)
  if t.layoutOK k = false then .fault .layoutViolated
  else
    let u := t.encodeFrame k
    let v := u.call (.transmitDelayed u.frame g)
    match v.ans.start with
    | .lateStart => .next (v.raise .lateStart)
    | .ok =>
      match window with
      | some d => .next { v.call (.receiveEnable (.delayedFromTimestamp d)) with state := after }
      | none => .next { v with state := after }

/-- The end of a step that ran the estimator (R212, R227): a non-finite ratio is `DegenerateTiming` too (D53). -/
def concludeEstimate (s : State) : Estimate → State
  | .tof q => (s.setTof q).conclude
  | .degenerate => s.raise .degenerateTiming
  | .badK => s.raise .degenerateTiming

/-- `RespondValid` (R212 for SS-TWR, R213 for DS-TWR). -/
def tauRespondValid (s : State) : Result :=
  if s.isDoubleSided then
    sendDelayed .respRx .finalTx s.cfg.finalDelay .final (if s.ackEnabled then some s.cfg.dFinal else none)
      .finalSent s
  else .next (concludeEstimate s s.estimateSingle)

/-- `PollValid` (R221): the reply's receive window opens only for DS-TWR. -/
def tauPollValid (s : State) : Result :=
  sendDelayed .pollRx .respTx s.cfg.respDelay s.replyKind (if s.isDoubleSided then some s.cfg.dResp else none)
    .respSent s

/-- `FinalValid` (R227). -/
def tauFinalValid (s : State) : Result := .next (concludeEstimate s s.estimateDouble)

/-- The core's own step: the tau transition of the state, or nothing where the state waits or holds (R201, R228). -/
def coreStep (s : State) : Result :=
  match s.state with
  | .respondValid => tauRespondValid s
  | .pollValid => tauPollValid s
  | .finalValid => tauFinalValid s
  | .idle | .pollSent | .awaitResponse | .finalSent | .awaitAck | .awaitPoll | .respSent | .awaitFinal | .done
  | .timedOut | .badFrame | .badSts | .failed => .next s

/-! ## The starts of an exchange -/

/-- The frame kinds the configured exchange uses (R272). -/
def State.kindsUsed (s : State) : List FrameKind :=
  if s.isDoubleSided then
    [.poll, .response, .final] ++ (if s.isResponder = false ∧ s.ackEnabled = true then [.report] else [])
  else [.poll, .report]

/-- The start predicate `ConfigOK` (R272). -/
def State.configOK (s : State) : Bool :=
  s.kindsUsed.all s.layoutOK && (!s.usesSts || (s.keySet && s.ivSet))

/-- The common initialisation of `XSTART` (R272). -/
def State.createExchange (s : State) : State :=
  { s.clearTags with tofValid := false, outcome := .none, session := true }

/-- The exchange-start action, made only with STS (R205, R219). -/
def State.startSts (s : State) : State := if s.usesSts then s.exchangeStart else s

/-- Initiator start (R205): encode and transmit the Poll, schedule the receive window. -/
def State.startInitiator (s : State) : State :=
  let t := s.startSts.encodeFrame .poll
  let u := (t.call (.transmit t.frame true)).call (.receiveEnable (.delayedFromTimestamp t.cfg.dPoll))
  { u with state := .pollSent }

/-- Responder start (R219): the frame buffer is not touched. -/
def State.startResponder (s : State) : State :=
  { s.startSts.call (.receiveEnable .immediate) with state := .awaitPoll }

end Sys2Proof.Machine
end

