-- ==== Sys2Proof/Machine/System.lean ====
section
/-! DEFINITION. The system commands (spec/46_system_commands.md R270 to R275). -/

namespace Sys2Proof.Machine

/-- `NOP` (R270). -/
def execNop (s : State) : Result := reply s .ok 0

/-- `XSTART` (R272): creates one exchange and starts the sequencer in the configured role. -/
def execXstart (s : State) : Result :=
  admitIdle s <|
    if s.configOK = false then reply s .errConfig 0
    else if s.isResponder then reply s.createExchange.startResponder .ok 0
    else reply s.createExchange.startInitiator .ok 0

/-- `XCLR` (R273): the return from a terminal state. -/
def execXclr (s : State) : Result := admitTerminal s <| reply s.clear .ok 0

/-- `CFGW idx` (R274): reserved, absent and read-only registers are `ERR_ILLEGAL`; then admission and the session
lock by class. -/
def execCfgw (idx : BitVec 8) (s : State) : Result :=
  match s.regAt idx with
  | none => reply s .errIllegal 0
  | some r =>
    match regClass r with
    | .ro => reply s .errIllegal 0
    | .cfg => admitIdle s <| if s.session then reply s .errLocked 0 else reply (s.writeReg r) .ok 0
    | .opd => admitWrite s <| reply (s.writeReg r) .ok 0

/-- `CFGR idx` (R275). -/
def execCfgr (idx : BitVec 8) (s : State) : Result :=
  match s.regAt idx with
  | none => reply s .errIllegal 0
  | some r => reply s .ok (s.readReg r)

end Sys2Proof.Machine
end

