-- ==== Sys2Proof/Machine/Timestamp.lean ====
section
/-! DEFINITION. The timestamp unit commands (spec/40_timestamp_unit.md R111 to R124). Write-class commands check
admission, then `ra`, then `rb` (R93); all sources are read before the destination is written (R111). -/

namespace Sys2Proof.Machine

/-- A write-class command of one source: `T[rd] <- f T[ra]`. -/
def tsUnary (f : Timestamp → Timestamp) (rd ra : RegNum) (s : State) : Result :=
  admitWrite s <| withSource s ra fun a => reply (s.setT rd (f a)) .ok 0

/-- A write-class command of two sources: `T[rd] <- f T[ra] T[rb]`. -/
def tsBinary (f : Timestamp → Timestamp → Timestamp) (rd ra rb : RegNum) (s : State) : Result :=
  admitWrite s <| withSource s ra fun a => withSource s rb fun b => reply (s.setT rd (f a b)) .ok 0

/-- A comparison: the verdict bits of `f T[ra] T[rb]` in `DATA`, no state written. -/
def tsVerdict (f : Timestamp → Timestamp → BitVec 4) (ra rb : RegNum) (s : State) : Result :=
  withSource s ra fun a => withSource s rb fun b => reply s .ok ((f a b).setWidth 128)

/-- A capture: `T[rd]` takes the low 40 bits of the radio's timestamp answer (R99, D9). -/
def tsCapture (which : TxRx) (rd : RegNum) (s : State) : Result :=
  admitWrite s <| reply ((s.call (.readTimestamp which)).setT rd s.answerTime) .ok 0

/-- `TSLD rd` (R112). -/
def execTsld (rd : RegNum) (s : State) : Result :=
  admitWrite s <| reply (s.setT rd (s.opndLow 40)) .ok 0

/-- `TSRD rs` (R113). -/
def execTsrd (rs : RegNum) (s : State) : Result :=
  withSource s rs fun v => reply s .ok (v.setWidth 128)

/-- `TSMOV rd, ra` (R114). -/
def execTsmov (rd ra : RegNum) (s : State) : Result := tsUnary (fun a => a) rd ra s

/-- `TSCAPTX rd` (R115). -/
def execTscaptx (rd : RegNum) (s : State) : Result := tsCapture .tx rd s

/-- `TSCAPRX rd` (R116). -/
def execTscaprx (rd : RegNum) (s : State) : Result := tsCapture .rx rd s

/-- `TSADD rd, ra, rb`: modulo 2^40 (R117). -/
def execTsadd (rd ra rb : RegNum) (s : State) : Result := tsBinary (fun a b => a + b) rd ra rb s

/-- `TSSUB rd, ra, rb`: modulo 2^40 (R118). -/
def execTssub (rd ra rb : RegNum) (s : State) : Result := tsBinary (fun a b => a - b) rd ra rb s

/-- `TSSUB32 rd, ra, rb`: the 32-bit delta, zero-extended (R119). -/
def execTssub32 (rd ra rb : RegNum) (s : State) : Result :=
  tsBinary (fun a b => (delta32 a b).setWidth 40) rd ra rb s

/-- `TSLO32 rd, ra` (R120). -/
def execTslo32 (rd ra : RegNum) (s : State) : Result := tsUnary (fun a => (lo32 a).setWidth 40) rd ra s

/-- `TSALIGN rd, ra` (R121). -/
def execTsalign (rd ra : RegNum) (s : State) : Result := tsUnary align512 rd ra s

/-- `TSSCHED rd, ra, rb` (R122). -/
def execTssched (rd ra rb : RegNum) (s : State) : Result := tsBinary sched rd ra rb s

/-- `TSCMP ra, rb` (R123). -/
def execTscmp (ra rb : RegNum) (s : State) : Result := tsVerdict (fun a b => compareVerdict (a - b)) ra rb s

/-- `TSCMP32 ra, rb` (R124). -/
def execTscmp32 (ra rb : RegNum) (s : State) : Result :=
  tsVerdict (fun a b => compareVerdict (delta32 a b)) ra rb s

end Sys2Proof.Machine
end

