-- ==== Sys2Proof/Machine/Dispatch.lean ====
section
/-! DEFINITION. The dispatch of an instruction to its meaning, one arm per constructor. -/

namespace Sys2Proof.Machine

-- The meaning of a command is the host command step; of an event word, the sequencer step that it answers.
def exec (i : Instr) (s : State) : Host.Outcome State Fault Refusal :=
  match i with
  | .nop => Sys2Proof.Machine.execNop s
  | .tsld rd => Sys2Proof.Machine.execTsld rd s
  | .tsrd rs => Sys2Proof.Machine.execTsrd rs s
  | .tsmov rd ra => Sys2Proof.Machine.execTsmov rd ra s
  | .tscaptx rd => Sys2Proof.Machine.execTscaptx rd s
  | .tscaprx rd => Sys2Proof.Machine.execTscaprx rd s
  | .tsadd rd ra rb => Sys2Proof.Machine.execTsadd rd ra rb s
  | .tssub rd ra rb => Sys2Proof.Machine.execTssub rd ra rb s
  | .tssub32 rd ra rb => Sys2Proof.Machine.execTssub32 rd ra rb s
  | .tslo32 rd ra => Sys2Proof.Machine.execTslo32 rd ra s
  | .tsalign rd ra => Sys2Proof.Machine.execTsalign rd ra s
  | .tssched rd ra rb => Sys2Proof.Machine.execTssched rd ra rb s
  | .tscmp ra rb => Sys2Proof.Machine.execTscmp ra rb s
  | .tscmp32 ra rb => Sys2Proof.Machine.execTscmp32 ra rb s
  | .tofss => Sys2Proof.Machine.execTofss s
  | .tofds => Sys2Proof.Machine.execTofds s
  | .tofrd => Sys2Proof.Machine.execTofrd s
  | .fenc kind => Sys2Proof.Machine.execFenc kind s
  | .fdec kind => Sys2Proof.Machine.execFdec kind s
  | .fput32 rs off => Sys2Proof.Machine.execFput32 rs off s
  | .fget32 rd off => Sys2Proof.Machine.execFget32 rd off s
  | .fbwr off => Sys2Proof.Machine.execFbwr off s
  | .fbrd off => Sys2Proof.Machine.execFbrd off s
  | .flenw => Sys2Proof.Machine.execFlenw s
  | .flenr => Sys2Proof.Machine.execFlenr s
  | .stskey => Sys2Proof.Machine.execStskey s
  | .stsiv => Sys2Proof.Machine.execStsiv s
  | .stsbegin => Sys2Proof.Machine.execStsbegin s
  | .stschk => Sys2Proof.Machine.execStschk s
  | .stsresync => Sys2Proof.Machine.execStsresync s
  | .stslock => Sys2Proof.Machine.execStslock s
  | .stsunlock => Sys2Proof.Machine.execStsunlock s
  | .xstart => Sys2Proof.Machine.execXstart s
  | .xclr => Sys2Proof.Machine.execXclr s
  | .cfgw idx => Sys2Proof.Machine.execCfgw idx s
  | .cfgr idx => Sys2Proof.Machine.execCfgr idx s
  | .aesnonce => Sys2Proof.Machine.execAesnonce s
  | .aeslen => Sys2Proof.Machine.execAeslen s
  | .aescls => Sys2Proof.Machine.execAescls s
  | .aesprot => Sys2Proof.Machine.execAesprot s
  | .evGood => Sys2Proof.Machine.execEvGood s
  | .evRxErr => Sys2Proof.Machine.execEvRxErr s
  | .evRxTo => Sys2Proof.Machine.execEvRxTo s
  | .evTxDone => Sys2Proof.Machine.execEvTxDone s

end Sys2Proof.Machine
end

