-- ==== Sys2Proof/Machine/Fetch.lean ====
section
/-! DEFINITION. How the block takes its next input: the environment's inputs stand in `State.inputs`, each with the
operand and the HAL answers of its step (spec/00_scope.md R5, R6; notes/assumptions/1.md). There is no program
memory and no fetch address (spec/10_state.md R29). -/

namespace Sys2Proof.Machine

/-- What the next step is, with the state it starts from. -/
inductive Fetched where
  /-- A command or event word that decodes. -/
  | run (i : Instr) (s : State)
  /-- A command word that encodes nothing (R96). -/
  | illegal (s : State)
  /-- An `awaitStatus` answer that is no event word (R98, R306). -/
  | stray (s : State)
  /-- The core's own step (R201). -/
  | core (s : State)
  /-- The reset input has taken effect (R320). -/
  | reset (s : State)

/-- A state that waits on nothing: the core takes its tau transition at once (R201). -/
def SeqState.isTau : SeqState → Bool
  | .respondValid | .pollValid | .finalValid => true
  | .idle | .pollSent | .awaitResponse | .finalSent | .awaitAck | .awaitPoll | .respSent | .awaitFinal | .done
  | .timedOut | .badFrame | .badSts | .failed => false

/-- The input's operand and answers become those of the step; the input is consumed. -/
def State.latch (s : State) (opnd : Datum) (ans : HalAnswers) (rest : List Input) : State :=
  { s with opnd := opnd, ans := ans, inputs := rest }

/-- The start verdict of a core step that no input directs: free (93 U11). DESIGN CHOICE (log 3). -/
def State.drawFree (s : State) : State :=
  { s with
    ans := { s.ans with start := if Config.freeLate s.draws then .lateStart else .ok }
    draws := s.draws + 1 }

/-- The reset event (R320): the state of R41, no HAL call; the instance parameter, the inputs still to come and the
recorded outputs are not the block's (log 17). `ts`, `opnd` and `ans` take the values the model names for reset
(log 5, log 18). -/
def State.resetEvent (s : State) : State :=
  { State.reset with
    hasAes := s.hasAes, inputs := s.inputs, calls := s.calls, responses := s.responses, draws := s.draws }

/-- The next step: the first input, or, where none stands, the core's own step (R5, R6; log 1, log 3). -/
def fetch (s : State) : Fetched :=
  match s.inputs with
  | [] => .core (if s.state.isTau then s.drawFree else s)
  | .command w o a :: rest =>
    match decodeCommand w with
    | .ok i => .run i (s.latch o a rest)
    | .error _ => .illegal (s.latch o a rest)
  | .event ev a :: rest =>
    match decodeEvent ev with
    | .ok i => .run i (s.latch s.opnd a rest)
    | .error _ => .stray (s.latch s.opnd a rest)
  | .core a :: rest => .core (s.latch s.opnd a rest)
  | .reset :: rest => .reset { s with inputs := rest }.resetEvent

/-- An illegal word writes no state, makes no HAL call and answers `ERR_ILLEGAL` (R96). -/
def illegalWord (s : State) : Result := reply s .errIllegal 0

/-- A port word placed as the next input, with the operand and the answers that the port holds (log 2). -/
def State.place (s : State) (p : PortWord) : State :=
  match p with
  | .command w => { s with inputs := .command w s.opnd s.ans :: s.inputs }
  | .event ev => { s with inputs := .event ev s.ans :: s.inputs }

end Sys2Proof.Machine
end

