-- ==== Sys2Proof/Machine/Step.lean ====
section
/-! DEFINITION. One step of the block (spec/00_scope.md R6). -/

namespace Sys2Proof.Machine

/-- One atomic step: a host command step, a sequencer step, or the reset event (R5, R6, R320). -/
def step (s : State) : Host.Outcome State Fault Refusal :=
  match fetch s with
  | .run i t => exec i t
  | .illegal t => illegalWord t
  | .stray t => strayEvent t
  | .core t => coreStep t
  | .reset t => .next t

/-- `s` with a table word of `nbits` bits and value `w` as its next input, operand and answers as the port holds
them; unchanged where the word fits no port. -/
def State.withFetchWord (s : State) (nbits w : Nat) : State :=
  match portWordOf nbits w with
  | some p => s.place p
  | none => s

end Sys2Proof.Machine
end

