-- ==== Sys2Proof/Safety.lean ====
section
/-! DEFINITION. What counts as a safe run: the invariant of the block, the HAL contract on the next input, and the
words in which the whole-machine statements are put. -/

namespace Sys2Proof.Machine

/-- `OUTCOME` agrees with `STATE` (spec/10_state.md R30, R31; spec/60_exceptions.md R291): none outside the terminal
states, `Success` exactly in `Done`, and each error in its own terminal state. -/
def outcomeFits : SeqState → ExchangeOutcome → Bool
  | .done, o => o = .success
  | .timedOut, o => o = .rxTimeout
  | .badFrame, o => o = .badFrame
  | .badSts, o => o = .badSts
  | .failed, o => o = .rxError || o = .lateStart || o = .degenerateTiming
  | .idle, o | .pollSent, o | .awaitResponse, o | .respondValid, o | .finalSent, o | .awaitAck, o | .awaitPoll, o
  | .pollValid, o | .respSent, o | .awaitFinal, o | .finalValid, o => o = .none

/-- A state is reached only in the roles and schemes that its row of R30 names. -/
def stateFits (s : State) : Bool :=
  match s.state with
  | .pollSent | .awaitResponse | .respondValid => !s.isResponder
  | .finalSent => !s.isResponder && s.isDoubleSided
  | .awaitAck => !s.isResponder && s.isDoubleSided && s.ackEnabled
  | .awaitPoll | .pollValid | .respSent => s.isResponder
  | .awaitFinal | .finalValid => s.isResponder && s.isDoubleSided
  | .idle | .done | .timedOut | .badFrame | .badSts | .failed => true

/-- The registers that the exchange has written by the time it is in the present state (spec/44_sequencer.md R230). -/
def writtenBy (s : State) : List RegNum :=
  match s.state with
  | .awaitResponse => [0]
  | .respondValid => if s.isDoubleSided then [0, 3] else [0, 1, 2, 3]
  | .finalSent | .awaitAck => [0, 3, 4]
  | .pollValid => [1]
  | .respSent | .awaitFinal => [1, 2]
  | .finalValid => [0, 1, 2, 3, 4, 5]
  | .idle | .pollSent | .awaitPoll | .done | .timedOut | .badFrame | .badSts | .failed => []

/-- The states of an exchange after its reply leg, where resynchronisation is suppressed (spec/43_sts_sync.md R181). -/
def SeqState.replyExchanged : SeqState → Bool
  | .respondValid | .finalSent | .awaitAck | .awaitFinal | .finalValid => true
  | .idle | .pollSent | .awaitResponse | .awaitPoll | .pollValid | .respSent | .done | .timedOut | .badFrame
  | .badSts | .failed => false

/-- The invariant of the block. Each clause names the rule it rests on. -/
structure State.Inv (s : State) : Prop where
  /-- The frame buffer is canonical and inside `FB_SIZE` (R60). -/
  memory : Memory.wf s.fb
  /-- `0 <= FB_LEN <= FB_SIZE` (R24). -/
  frameLen : s.fbLen.toNat ≤ Config.fbSize
  /-- Byte 2 of every template is 0 (R25). -/
  templates : ∀ i : Fin 4, s.cfg.tpl[i].extractLsb' 16 8 = 0
  /-- `OUTCOME` agrees with `STATE` (R30, R291). -/
  outcome : outcomeFits s.state s.outcome = true
  /-- `STATE` agrees with role, scheme and ack option (R30). -/
  role : stateFits s = true
  /-- An active exchange has the session locked and a configuration that `XSTART` accepted (R272). -/
  active : s.state.isActive = true → s.session = true ∧ s.configOK = true
  /-- The registers a sequencer step reads have been written (R22). -/
  written : ∀ r ∈ writtenBy s, s.tsw[r] = true
  /-- No distance exists while an exchange is active (R272, R300). -/
  noTof : s.state.isActive = true → s.tofValid = false
  /-- Resynchronisation is suppressed once the reply has been exchanged (R181). -/
  suppressed : s.state.replyExchanged = true → s.resyncPending = false
  /-- The key and IV reach the radio only after both were loaded (R184). -/
  loaded : s.firstDone = true → s.keySet = true ∧ s.ivSet = true

/-- The HAL answers of the next input keep the contract of R306 (1) and (2): an event answer is one bit, inside the
mask of the outstanding wait if there is one, and a frame read by a good-frame step is whole. The radio's other duties
are left out (log 19). -/
def State.contractNext (s : State) : Prop :=
  match s.inputs with
  | .event ev a :: _ =>
    (∃ i, decodeEvent ev = .ok i) ∧ (∀ mask t, s.wait = some (mask, t) → ev &&& mask ≠ 0)
      ∧ (ev = 0x1 → a.frameOK = true)
  | .command _ _ _ :: _ | .core _ :: _ | .reset :: _ | [] => True

/-- How many sequencer steps at most lie before a terminal state (spec/44_sequencer.md R231 (4)). -/
def SeqState.stepsLeft : SeqState → Nat
  | .pollSent => 5
  | .awaitResponse => 4
  | .respondValid => 3
  | .finalSent => 2
  | .awaitAck => 1
  | .awaitPoll => 5
  | .pollValid => 4
  | .respSent => 3
  | .awaitFinal => 2
  | .finalValid => 1
  | .idle | .done | .timedOut | .badFrame | .badSts | .failed => 0

/-- An event word (R98); every other instruction is a host command. -/
def isEventWord : Instr → Bool
  | .evGood | .evRxErr | .evRxTo | .evTxDone => true
  | .nop | .tsld _ | .tsrd _ | .tsmov _ _ | .tscaptx _ | .tscaprx _ | .tsadd _ _ _ | .tssub _ _ _
  | .tssub32 _ _ _ | .tslo32 _ _ | .tsalign _ _ | .tssched _ _ _ | .tscmp _ _ | .tscmp32 _ _ | .tofss | .tofds
  | .tofrd | .fenc _ | .fdec _ | .fput32 _ _ | .fget32 _ _ | .fbwr _ | .fbrd _ | .flenw | .flenr | .stskey
  | .stsiv | .stsbegin | .stschk | .stsresync | .stslock | .stsunlock | .xstart | .xclr | .cfgw _ | .cfgr _
  | .aesnonce | .aeslen | .aescls | .aesprot => false

/-- A read-class command (spec/30_encoding.md R92). -/
def isReadClass : Instr → Bool
  | .nop | .tsrd _ | .tscmp _ _ | .tscmp32 _ _ | .tofrd | .fbrd _ | .flenr | .cfgr _ | .aesnonce | .aeslen
  | .aescls => true
  | .tsld _ | .tsmov _ _ | .tscaptx _ | .tscaprx _ | .tsadd _ _ _ | .tssub _ _ _ | .tssub32 _ _ _ | .tslo32 _ _
  | .tsalign _ _ | .tssched _ _ _ | .tofss | .tofds | .fenc _ | .fdec _ | .fput32 _ _ | .fget32 _ _ | .fbwr _
  | .flenw | .stskey | .stsiv | .stsbegin | .stschk | .stsresync | .stslock | .stsunlock | .xstart | .xclr
  | .cfgw _ | .aesprot | .evGood | .evRxErr | .evRxTo | .evTxDone => false

/-! ## Words of the per-command statements -/

/-- The state with the answer `(st, d)` given and nothing else changed (spec/30_encoding.md R80). -/
def State.answered (s : State) (st : Status) (d : Nat) : State :=
  { s with responses := s.responses ++ [⟨st, BitVec.ofNat 128 d⟩] }

/-- `T[r] <- v`, `v` taken modulo 2^40, answered `(OK, 0)`, nothing else changed (spec/40_timestamp_unit.md R111). -/
def State.wroteT (s : State) (r : RegNum) (v : Nat) : State :=
  { s with ts := s.ts.set r (BitVec.ofNat 40 v), tsw := s.tsw.set r true, responses := s.responses ++ [⟨.ok, 0⟩] }

/-- Every register of the list has been written (R22). -/
abbrev State.allWritten (s : State) (rs : List RegNum) : Prop := ∀ r ∈ rs, s.tsw[r] = true

/-- `r` is the lowest register of the list with `W = 0` (R93 (6)). -/
abbrev State.firstMissing (s : State) (rs : List RegNum) (r : RegNum) : Prop :=
  r ∈ rs ∧ s.tsw[r] = false ∧ ∀ q ∈ rs, q < r → s.tsw[q] = true

/-- The 32-bit delta of R142 as an unsigned integer. -/
def State.delta (s : State) (later earlier : RegNum) : Nat :=
  (s.ts[later].toNat % 2 ^ 32 + 2 ^ 32 - s.ts[earlier].toNat % 2 ^ 32) % 2 ^ 32

/-- The state with one constant added modulo 2^40 to `T0`, `T3`, `T4` and another to `T1`, `T2`, `T5`
(spec/41_tof_estimator.md R148 (2)). -/
def State.shifted (s : State) (c d : Timestamp) : State :=
  { s with
    ts := #v[s.ts[0] + c, s.ts[1] + d, s.ts[2] + d, s.ts[3] + c, s.ts[4] + c, s.ts[5] + d, s.ts[6], s.ts[7]] }

/-- `val(K)` as spec/41_tof_estimator.md R141 writes it, for exponents below 255. -/
def ratioOfPattern (k : BitVec 32) : ℚ :=
  let sign : ℚ := if k.getLsbD 31 then -1 else 1
  let e : Nat := k.toNat / 2 ^ 23 % 2 ^ 8
  let f : Nat := k.toNat % 2 ^ 23
  if e = 0 then sign * (2 : ℚ) ^ (-126 : ℤ) * ((f : ℚ) / 2 ^ 23)
  else sign * (2 : ℚ) ^ ((e : ℤ) - 127) * (1 + (f : ℚ) / 2 ^ 23)

/-- The exponent field `K[30:23]` is 255: a non-finite pattern (R141). -/
abbrev nonFinite (k : BitVec 32) : Prop := k.toNat / 2 ^ 23 % 2 ^ 8 = 255

/-- `{AMBIG, GT, LT, EQ}` as a number, from a modular difference `d` and half its range (R123, R124). -/
def verdictNumber (d half : Nat) : Nat :=
  (if d = 0 then 1 else 0) + (if half ≤ d then 2 else 0) + (if 0 < d ∧ d < half then 4 else 0)
    + (if d = half then 8 else 0)

/-! ## Words of the codec statements -/

/-- The bytes of `t`'s frame buffer read as those of `s` outside `a .. a+n-1`. -/
abbrev sameBytesOutside (s t : State) (a n : Nat) : Prop :=
  ∀ x, x < a ∨ a + n ≤ x → Memory.read t.fb x = Memory.read s.fb x

/-- The four bytes from `a` on as a little-endian number (spec/20_memory.md R61). -/
def spanNumber (m : Memory) (a : Nat) : Nat :=
  (Memory.read m a).toNat + 2 ^ 8 * (Memory.read m (a + 1)).toNat + 2 ^ 16 * (Memory.read m (a + 2)).toNat
    + 2 ^ 24 * (Memory.read m (a + 3)).toNat

/-- The number of a frame kind (R84). -/
def kindNumber : FrameKind → Nat
  | .poll => 0
  | .response => 1
  | .final => 2
  | .report => 3

/-- The timestamp fields of a kind: register and offset, in table order (spec/42_frame_codec.md R156). -/
def timestampFields (s : State) : FrameKind → List (RegNum × Nat)
  | .poll => []
  | .response => []
  | .final => [(0, s.cfg.finalPollTxIdx.toNat), (3, s.cfg.finalRespRxIdx.toNat), (4, s.cfg.finalFinalTxIdx.toNat)]
  | .report => [(1, s.cfg.reportPollRxIdx.toNat), (2, s.cfg.reportRespTxIdx.toNat)]

/-- The kind carries the sender's counter: a Poll with `CTRL.SECMODE = 1` (R156). -/
abbrev carriesCounter (s : State) (k : FrameKind) : Prop := k = .poll ∧ s.usesSts = true

/-- The offsets of the fields of a kind (R156). -/
def fieldOffsets (s : State) (k : FrameKind) : List Nat :=
  (timestampFields s k).map Prod.snd ++ (if k = .poll ∧ s.usesSts = true then [s.cfg.pollCtrIdx.toNat] else [])

/-- `LayoutOK(k)` (R157). -/
abbrev layoutHolds (s : State) (k : FrameKind) : Prop :=
  (10 ≤ (s.frameLenOf k).toNat ∧ (s.frameLenOf k).toNat ≤ 128)
    ∧ (∀ o ∈ fieldOffsets s k, 10 ≤ o ∧ o + 4 ≤ (s.frameLenOf k).toNat)
    ∧ (fieldOffsets s k).Pairwise fun o1 o2 => o1 + 4 ≤ o2 ∨ o2 + 4 ≤ o1

/-- The start predicate `ConfigOK` (spec/46_system_commands.md R272). -/
abbrev configHolds (s : State) : Prop :=
  layoutHolds s .poll
    ∧ (s.isDoubleSided = false → layoutHolds s .report)
    ∧ (s.isDoubleSided = true → layoutHolds s .response ∧ layoutHolds s .final)
    ∧ (s.isDoubleSided = true → s.isResponder = false → s.ackEnabled = true → layoutHolds s .report)
    ∧ (s.usesSts = true → s.keySet = true ∧ s.ivSet = true)

/-- Every register and flag that the encode of a kind reads has been loaded (R159). -/
abbrev encodeReady (s : State) (k : FrameKind) : Prop :=
  s.allWritten ((timestampFields s k).map Prod.fst) ∧ (carriesCounter s k → s.ivSet = true)

/-- The header bytes of the buffer, the sequence number apart, are those of the template (R160). -/
abbrev prefixMatches (s : State) (k : FrameKind) : Prop :=
  ∀ j, j < 10 → j ≠ 2 → Memory.read s.fb j = s.tplByte k j

/-- The command answers `st` with the datum `d` as its one response. -/
def answers (i : Instr) (s : State) (st : Status) (d : Nat) : Prop :=
  ∃ t, exec i s = .next t ∧ t.responses = s.responses ++ [⟨st, BitVec.ofNat 128 d⟩]

/-! ## Words of the sequencer statements -/

/-- A receive wait, with the kind awaited (spec/44_sequencer.md R201, R210, R218, R220, R225). -/
abbrev State.awaits (s : State) (k : FrameKind) : Prop :=
  (s.state = .awaitResponse ∧ k = (if s.isDoubleSided then .response else .report))
    ∨ (s.state = .awaitAck ∧ k = .report) ∨ (s.state = .awaitPoll ∧ k = .poll)
    ∨ (s.state = .awaitFinal ∧ k = .final)

/-- The `TO_*` register of a receive wait (R201). -/
def State.rxTimeout (s : State) : BitVec 32 :=
  match s.state with
  | .awaitResponse => s.cfg.toResp
  | .awaitAck => s.cfg.toAck
  | .awaitPoll => s.cfg.toPoll
  | .awaitFinal => s.cfg.toFinal
  | .idle | .pollSent | .respondValid | .finalSent | .pollValid | .respSent | .finalValid | .done | .timedOut
  | .badFrame | .badSts | .failed => 0

/-- The same state seen by a host command between exchanges: with `STATE = Idle`, so that a command that shares its
work with a sequencer step is admitted. -/
def State.atRest (s : State) : State := { s with state := .idle }

/-- The received frame in the buffer, as `readFrame` leaves it (R66, R203). -/
def State.received (s : State) : State :=
  { s with fb := Memory.writeBytes s.fb 0 s.ans.frameBytes, fbLen := BitVec.ofNat 8 s.ans.frameLen }

/-- The radio's answer is a whole frame of at most `FB_SIZE` bytes (spec/60_exceptions.md R306 (2)). -/
abbrev State.wholeFrame (s : State) : Prop := s.ans.frameLen ≤ 128 ∧ s.ans.frameBytes.length = s.ans.frameLen

/-- The received frame is of the kind: its length is the kind's, and its header is the template's (R160, R203). -/
abbrev State.ofKind (s : State) (k : FrameKind) : Prop :=
  s.received.fbLen = s.frameLenOf k ∧ prefixMatches s.received k

/-- `FDEC k` of the received frame, between exchanges, answers `(st, d)` and leaves `t` (R160, R203). -/
def State.decodesTo (s : State) (k : FrameKind) (st : Status) (d : Nat) (t : State) : Prop :=
  exec (.fdec k) s.received.atRest = .next t ∧ t.responses = s.responses ++ [⟨st, BitVec.ofNat 128 d⟩]

/-- The quality of the frame is good, or no STS is used (R186, R203). -/
abbrev State.qualityPasses (s : State) : Prop := s.usesSts = true → 0 ≤ s.ans.score.toInt

/-- The calls of a receive step up to the quality test: the wait, the frame, and the quality with STS only (R202,
R203). -/
def State.receiveCalls (s : State) : List HalCall :=
  [.awaitStatus 0b0111 s.rxTimeout, .readFrame 128] ++ (if s.usesSts then [.readStsQuality] else [])

/-- The state after the acceptance procedure let a frame pass that `FDEC` decodes as in `t`: the frame, its fields
and the quality stored, nothing else changed (R203). -/
def State.accepted (s t : State) : State :=
  { s with
    fb := t.fb, fbLen := t.fbLen, ts := t.ts, tsw := t.tsw, pollCtr := t.pollCtr
    stsScore := if s.usesSts then s.ans.score else s.stsScore
    calls := s.calls ++ s.receiveCalls }

/-- The state after XSTART's common initialisation (spec/46_system_commands.md R272). The exchange's timestamps are
unwritten, their bits six free values (R22; log 6). -/
def State.exchangeCreated (s : State) : State :=
  { s with
    ts := freshTimestamps s.draws s.ts, draws := s.draws + 6
    tsw := #v[false, false, false, false, false, false, s.tsw[6], s.tsw[7]]
    tofValid := false, outcome := .none, session := true }

/-- The exchange-start action's call, counter and flag (spec/43_sts_sync.md R184). -/
def State.stsStarted (s : State) : State :=
  if s.firstDone then
    { s with
      stsIv := s.stsIv.extractLsb' 32 96 ++ BitVec.ofNat 32 (s.stsIv.toNat % 2 ^ 32 + s.cfg.stsCtrInc.toNat)
      calls := s.calls
        ++ [.reloadStsCounter (BitVec.ofNat 32 (s.stsIv.toNat % 2 ^ 32 + s.cfg.stsCtrInc.toNat))] }
  else { s with calls := s.calls ++ [.configureSts s.stsKey s.stsIv], firstDone := true }

/-- The exchange created, and with STS its exchange-start action made (R205, R219). -/
def State.exchangeStarted (s : State) : State :=
  if s.usesSts then s.exchangeCreated.stsStarted else s.exchangeCreated

/-- The aligned transmit time of a delayed transmission, as a number (R122). -/
def targetNumber (reception delay : Timestamp) : Nat := (reception.toNat + delay.toNat) % 2 ^ 40 / 512 * 512

/-- The state in which a delayed transmission encodes its frame: `T[tx]` holds the predicted time of the aligned
target (R127, R213, R221). -/
def State.scheduled (s : State) (rx tx : RegNum) (delay : Timestamp) : State :=
  { s with
    ts := s.ts.set tx (BitVec.ofNat 40 (targetNumber s.ts[rx] delay + s.cfg.txAntDly.toNat))
    tsw := s.tsw.set tx true }

/-! ## Words of the register-map statements -/

/-- The registers of the map with the value each reads as (spec/10_state.md R36 to R38), those of the AES unit and
`STS_SCORE` apart. -/
def registerReadings (s : State) : List (BitVec 8 × Nat) := timing ++ layout ++ counts
where
  /-- Control, delays and timeouts (R35, R36, R38). -/
  timing : List (BitVec 8 × Nat) :=
    [(0x00, s.cfg.ctrl.toNat), (0x01, statusNumber), (0x02, s.seq.toNat), (0x03, s.cfg.respDelay.toNat),
     (0x04, s.cfg.finalDelay.toNat), (0x05, s.cfg.txAntDly.toNat), (0x06, s.cfg.dPoll.toNat),
     (0x07, s.cfg.dResp.toNat), (0x08, s.cfg.dFinal.toNat), (0x09, s.cfg.toPoll.toNat), (0x0A, s.cfg.toResp.toNat),
     (0x0B, s.cfg.toFinal.toNat), (0x0C, s.cfg.toAck.toNat), (0x0D, s.cfg.stsCtrInc.toNat)]
  /-- Frame lengths, offsets and templates (R36). -/
  layout : List (BitVec 8 × Nat) :=
    [(0x10, s.cfg.frameLen[0].toNat), (0x11, s.cfg.frameLen[1].toNat), (0x12, s.cfg.frameLen[2].toNat),
     (0x13, s.cfg.frameLen[3].toNat), (0x14, s.cfg.pollCtrIdx.toNat), (0x15, s.cfg.finalPollTxIdx.toNat),
     (0x16, s.cfg.finalRespRxIdx.toNat), (0x17, s.cfg.finalFinalTxIdx.toNat),
     (0x18, s.cfg.reportPollRxIdx.toNat), (0x19, s.cfg.reportRespTxIdx.toNat),
     (0x20, templateNumber s.cfg.tpl[0]), (0x21, templateNumber s.cfg.tpl[1]),
     (0x22, templateNumber s.cfg.tpl[2]), (0x23, templateNumber s.cfg.tpl[3])]
  /-- Counters, the STS session's readable part and `K` (R26, R27, R33). -/
  counts : List (BitVec 8 × Nat) :=
    [(0x30, s.cnt.badFrame.toNat), (0x31, s.cnt.badSts.toNat), (0x32, s.cnt.rxTimeout.toNat),
     (0x33, s.cnt.rxError.toNat), (0x35, s.pollCtr.toNat), (0x36, s.stsIv.toNat % 2 ^ 32), (0x37, s.k.toNat)]
  /-- `STATUS` (R38). -/
  statusNumber : Nat :=
    s.state.code.toNat + 2 ^ 4 * s.outcome.code.toNat + 2 ^ 8 * s.tofValid.toNat + 2 ^ 9 * s.resyncPending.toNat
      + 2 ^ 10 * s.firstDone.toNat + 2 ^ 11 * s.session.toNat + 2 ^ 12 * s.keySet.toNat + 2 ^ 13 * s.ivSet.toNat
      + 2 ^ 14 * s.tsw[0].toNat + 2 ^ 15 * s.tsw[1].toNat + 2 ^ 16 * s.tsw[2].toNat + 2 ^ 17 * s.tsw[3].toNat
      + 2 ^ 18 * s.tsw[4].toNat + 2 ^ 19 * s.tsw[5].toNat + 2 ^ 20 * s.tsw[6].toNat + 2 ^ 21 * s.tsw[7].toNat
  /-- A template with byte 2 as 0 (R25). -/
  templateNumber (v : BitVec 80) : Nat := v.toNat % 2 ^ 16 + 2 ^ 24 * (v.toNat / 2 ^ 24)

/-- The AES operand registers with the value each reads as (R36, R40). -/
def aesReadings (s : State) : List (BitVec 8 × Nat) :=
  [(0x40, s.aes.ctr.toNat), (0x41, s.aes.src.toNat), (0x42, s.aes.frameLen.toNat), (0x43, s.aes.hdrLen.toNat),
   (0x44, s.aes.micLen.toNat), (0x45, s.aes.mode.toNat), (0x46, s.aes.bufCap.toNat), (0x47, s.aes.errMask.toNat),
   (0x48, s.aes.fcsLen.toNat)]

/-- The index, width and class `cfg` flag of each writable register (R36). -/
def writableRegisters : List (BitVec 8 × Nat × Bool) :=
  [(0x00, 4, true), (0x02, 8, false), (0x03, 40, true), (0x04, 40, true), (0x05, 40, true), (0x06, 32, true),
   (0x07, 32, true), (0x08, 32, true), (0x09, 32, true), (0x0A, 32, true), (0x0B, 32, true), (0x0C, 32, true),
   (0x0D, 32, true), (0x10, 8, true), (0x11, 8, true), (0x12, 8, true), (0x13, 8, true), (0x14, 8, true),
   (0x15, 8, true), (0x16, 8, true), (0x17, 8, true), (0x18, 8, true), (0x19, 8, true), (0x20, 80, true),
   (0x21, 80, true), (0x22, 80, true), (0x23, 80, true), (0x37, 32, false), (0x40, 48, false), (0x41, 48, false),
   (0x42, 16, false), (0x43, 16, false), (0x44, 8, false), (0x45, 1, false), (0x46, 16, false), (0x47, 8, false),
   (0x48, 8, false)]

/-- An index of the AES unit's registers (R36). -/
abbrev aesIndex (idx : BitVec 8) : Prop := 0x40 ≤ idx.toNat ∧ idx.toNat ≤ 0x48

/-- A command that is legal only where the AES unit exists, the read class apart: AESPROT, and CFGW of an AES index
(R36; spec/30_encoding.md R93 (1)). -/
abbrev needsAes (i : Instr) : Prop := i = .aesprot ∨ ∃ idx : BitVec 8, i = .cfgw idx ∧ aesIndex idx

/-- What a write of the operand to a register of `bits` bits reads back as: the low bits, a template's byte 2 as 0
(R37). -/
def readBack (idx : BitVec 8) (bits : Nat) (opnd : Datum) : Nat :=
  if 0x20 ≤ idx.toNat ∧ idx.toNat ≤ 0x23 then opnd.toNat % 2 ^ 16 + 2 ^ 24 * (opnd.toNat % 2 ^ 80 / 2 ^ 24)
  else opnd.toNat % 2 ^ bits

/-- The command rows of spec/opcode_table.json as (mask, match); the last four exist only when `HAS_AES = 1`
(spec/30_encoding.md R82, R83, R96). -/
def commandRows (hasAes : Bool) : List (BitVec 32 × BitVec 32) :=
  [(0xFFFFFFFF, 0x00000000), (0xFF8FFFFF, 0x10000000), (0xFF8FFFFF, 0x11000000), (0xFF88FFFF, 0x12000000),
   (0xFF8FFFFF, 0x13000000), (0xFF8FFFFF, 0x14000000), (0xFF888FFF, 0x15000000), (0xFF888FFF, 0x16000000),
   (0xFF888FFF, 0x17000000), (0xFF88FFFF, 0x18000000), (0xFF88FFFF, 0x19000000), (0xFF888FFF, 0x1A000000),
   (0xFFF88FFF, 0x1B000000), (0xFFF88FFF, 0x1C000000), (0xFFFFFFFF, 0x20000000), (0xFFFFFFFF, 0x21000000),
   (0xFFFFFFFF, 0x22000000), (0xFFFCFFFF, 0x30000000), (0xFFFCFFFF, 0x31000000), (0xFF8F00FF, 0x32000000),
   (0xFF8F00FF, 0x33000000), (0xFFFF00FF, 0x34000000), (0xFFFF00FF, 0x35000000), (0xFFFFFFFF, 0x36000000),
   (0xFFFFFFFF, 0x37000000), (0xFFFFFFFF, 0x40000000), (0xFFFFFFFF, 0x41000000), (0xFFFFFFFF, 0x42000000),
   (0xFFFFFFFF, 0x43000000), (0xFFFFFFFF, 0x44000000), (0xFFFFFFFF, 0x45000000), (0xFFFFFFFF, 0x46000000),
   (0xFFFFFFFF, 0x50000000), (0xFFFFFFFF, 0x51000000), (0xFF00FFFF, 0x52000000), (0xFF00FFFF, 0x53000000)]
  ++ if hasAes then
       [(0xFFFFFFFF, 0x60000000), (0xFFFFFFFF, 0x61000000), (0xFFFFFFFF, 0x62000000), (0xFFFFFFFF, 0x63000000)]
     else []

end Sys2Proof.Machine
end

