-- ==== Sys2Proof/Certificates/Slice0/Obligations.lean ====
section
/-! DEFINITION. The statements about the block, for the provers. Section by section they follow the files of spec/;
the rules a statement formalises are cited in its docstring. -/

open Sys2Proof Sys2Proof.Machine

/-! ## Encodings (spec/30_encoding.md) -/

/-- Every instruction, at every value of every operand field, is read back from its own word (R81 to R83, R98). -/
def Obligations.DecodeOfEncode : Prop := ∀ i : Instr, decode (encode i) = .ok i

/-- A word that decodes is the one word of its instruction: no bit is ignored (R81, R96, R98). -/
def Obligations.EncodeOfDecode : Prop := ∀ (p : PortWord) (i : Instr), decode p = .ok i → encode i = p

/-- The command words that decode are those that match a row of the opcode table under its mask, and no word matches
two rows (R82, R83). -/
def Obligations.DecodedWordsMatchTheTable : Prop :=
  (∀ w : CmdWord, (∃ i, decodeCommand w = .ok i) ↔ ∃ r ∈ commandRows true, w &&& r.1 = r.2) ∧
  (∀ w : CmdWord, ∀ r ∈ commandRows true, ∀ q ∈ commandRows true, w &&& r.1 = r.2 → w &&& q.1 = q.2 → r = q)

/-- Words that the spec writes out decode to the instructions it names, and an event answer that is not exactly one
bit decodes to nothing (R98; the examples of R112 to R165). -/
def Obligations.WrittenOutWordsDecode : Prop :=
  decodeCommand 0x12610000 = .ok (.tsmov 6 1) ∧
  decodeCommand 0x15617000 = .ok (.tsadd 6 1 7) ∧
  decodeCommand 0x17630000 = .ok (.tssub32 6 3 0) ∧
  decodeCommand 0x1A216000 = .ok (.tssched 2 1 6) ∧
  decodeCommand 0x1C030000 = .ok (.tscmp32 3 0) ∧
  decodeCommand 0x21000000 = .ok .tofds ∧
  decodeCommand 0x30020000 = .ok (.fenc .final) ∧
  decodeCommand 0x33600E00 = .ok (.fget32 6 14) ∧
  decodeCommand 0x35000200 = .ok (.fbrd 2) ∧
  decodeCommand 0x44000000 = .ok .stsresync ∧
  decodeCommand 0x52030000 = .ok (.cfgw 0x03) ∧
  decodeCommand 0x63000000 = .ok .aesprot ∧
  (∀ ev : EventBits,
    (decodeEvent ev = .ok .evGood ↔ ev = 1) ∧ (decodeEvent ev = .ok .evRxErr ↔ ev = 2) ∧
    (decodeEvent ev = .ok .evRxTo ↔ ev = 4) ∧ (decodeEvent ev = .ok .evTxDone ↔ ev = 8) ∧
    (ev ≠ 1 → ev ≠ 2 → ev ≠ 4 → ev ≠ 8 → decodeEvent ev = .error (.notOneEvent ev)))

/-! ## Steps (spec/00_scope.md R5, R6; spec/70_reset_and_hazards.md) -/

/-- A command or event word presented next, if it decodes, is run by the step with its own operand and answers: the
step is exec of it (R6). The input list is the model's (log 1). -/
def Obligations.StepRunsTheDecodedInstruction : Prop :=
  (∀ (s : State) (w : CmdWord) (o : Datum) (a : HalAnswers) (rest : List Input) (i : Instr),
    s.inputs = .command w o a :: rest → decode (.command w) = .ok i →
    step s = exec i { s with opnd := o, ans := a, inputs := rest }) ∧
  (∀ (s : State) (ev : EventBits) (a : HalAnswers) (rest : List Input) (i : Instr),
    s.inputs = .event ev a :: rest → decode (.event ev) = .ok i →
    step s = exec i { s with ans := a, inputs := rest })

/-- A command word that matches no row of the table, the AES rows counted only where the unit exists, writes no
state, makes no HAL call and is answered `(ERR_ILLEGAL, 0)` (R96). -/
def Obligations.IllegalWordsAreRefused : Prop :=
  ∀ (s : State) (w : CmdWord) (o : Datum) (a : HalAnswers) (rest : List Input),
    s.inputs = .command w o a :: rest → (∀ r ∈ commandRows s.hasAes, w &&& r.1 ≠ r.2) →
    step s = .next (State.answered { s with opnd := o, ans := a, inputs := rest } .errIllegal 0)

/-- The core steps by itself only in the states that wait on nothing (R201, R228); where no input directs that step,
the start verdict it draws is one of the two answers of R99, left open (the model's: log 3). -/
def Obligations.CoreStepsOnlyInTauStates : Prop :=
  (∀ s : State, s.inputs = [] → s.state ∉ [.respondValid, .pollValid, .finalValid] → step s = .next s) ∧
  (∀ (s : State) (a : HalAnswers) (rest : List Input), s.inputs = .core a :: rest →
    step s = coreStep { s with ans := a, inputs := rest }) ∧
  (∀ s : State, s.state ∉ [.respondValid, .pollValid, .finalValid] → coreStep s = .next s) ∧
  (∀ s : State, s.inputs = [] → s.state ∈ [.respondValid, .pollValid, .finalValid] →
    ∃ v : StartVerdict, step s = coreStep { s with ans := { s.ans with start := v }, draws := s.draws + 1 })

/-- The reset input, in every state, gives the reset state and makes no HAL call (R320). The model's choices in the
equation: the timestamp registers hold 0 where R41 leaves them unspecified (log 5); what the environment holds and has
received, the instance's parameter and the counter of draws stay (log 17); the operand and the answers in the port are
0 with verdict Ok (log 18). -/
def Obligations.ResetInputGivesTheResetState : Prop :=
  ∀ (s : State) (rest : List Input), s.inputs = .reset :: rest →
    step s = .next { State.reset with
      hasAes := s.hasAes, inputs := rest, calls := s.calls, responses := s.responses, draws := s.draws }

/-- The table of reset values, read as the state and as the host reads it (R41, R321). -/
def Obligations.ResetValues : Prop :=
  (∀ r : RegNum, State.reset.tsw[r] = false) ∧ (∀ a, Memory.read State.reset.fb a = 0) ∧ State.reset.fbLen = 0 ∧
  (∀ k : Fin 4, State.reset.cfg.tpl[k] = 0 ∧ State.reset.cfg.frameLen[k] = 0) ∧
  State.reset.stsKey = 0 ∧ State.reset.stsIv = 0 ∧ State.reset.keySet = false ∧ State.reset.ivSet = false ∧
  State.reset.resyncPending = true ∧ State.reset.firstDone = false ∧ State.reset.pollCtr = 0 ∧
  State.reset.stsScore = 0 ∧ State.reset.k = 0 ∧ State.reset.tof = 0 ∧ State.reset.tofValid = false ∧
  State.reset.state = .idle ∧ State.reset.outcome = .none ∧ State.reset.seq = 0 ∧ State.reset.session = false ∧
  State.reset.cnt = { badFrame := 0, badSts := 0, rxTimeout := 0, rxError := 0 } ∧
  (∀ p ∈ registerReadings State.reset, p.1 ≠ 0x01 → p.2 = 0) ∧ (∀ p ∈ aesReadings State.reset, p.2 = 0) ∧
  exec (.cfgr 0x01) State.reset = .next (State.reset.answered .ok 0x200) ∧
  exec .xstart State.reset = .next (State.reset.answered .errConfig 0)

/-! ## The timestamp unit (spec/40_timestamp_unit.md) -/

/-- TSLD loads the low 40 bits of the operand, TSCAPTX and TSCAPRX the low 40 bits of the radio's answer; in an
active state all three are refused (R112, R115, R116). -/
def Obligations.LoadsAndCaptures : Prop :=
  ∀ (rd : RegNum) (s : State),
    (s.state.isActive = false →
      exec (.tsld rd) s = .next (s.wroteT rd s.opnd.toNat) ∧
      exec (.tscaptx rd) s =
        .next { s.wroteT rd s.ans.timestamp.toNat with calls := s.calls ++ [.readTimestamp .tx] } ∧
      exec (.tscaprx rd) s =
        .next { s.wroteT rd s.ans.timestamp.toNat with calls := s.calls ++ [.readTimestamp .rx] }) ∧
    (s.state.isActive = true →
      ∀ i ∈ [Instr.tsld rd, .tscaptx rd, .tscaprx rd], exec i s = .next (s.answered .errBusy 0))

/-- TSRD answers a written register's value in every state, and `ERR_UNWRITTEN` with its number for another
(R113). -/
def Obligations.TsrdReadsWrittenRegisters : Prop :=
  ∀ (rs : RegNum) (s : State),
    (s.tsw[rs] = true → exec (.tsrd rs) s = .next (s.answered .ok s.ts[rs].toNat)) ∧
    (s.tsw[rs] = false → exec (.tsrd rs) s = .next (s.answered .errUnwritten rs))

/-- TSMOV copies, TSLO32 keeps the low 32 bits, TSALIGN rounds down to a multiple of 512; each writes its destination
and tag and nothing else, needs a written source, and is refused in an active state (R114, R120, R121). -/
def Obligations.OneSourceCommands : Prop :=
  ∀ (rd ra : RegNum) (s : State),
    (s.state.isActive = false → s.tsw[ra] = true →
      exec (.tsmov rd ra) s = .next (s.wroteT rd s.ts[ra].toNat) ∧
      exec (.tslo32 rd ra) s = .next (s.wroteT rd (s.ts[ra].toNat % 2 ^ 32)) ∧
      exec (.tsalign rd ra) s = .next (s.wroteT rd (s.ts[ra].toNat - s.ts[ra].toNat % 512))) ∧
    (∀ i ∈ [Instr.tsmov rd ra, .tslo32 rd ra, .tsalign rd ra],
      (s.state.isActive = false → s.tsw[ra] = false → exec i s = .next (s.answered .errUnwritten ra)) ∧
      (s.state.isActive = true → exec i s = .next (s.answered .errBusy 0)))

/-- TSADD and TSSUB are addition and subtraction modulo 2^40, TSSUB32 the difference of the low words modulo 2^32,
TSSCHED the sum modulo 2^40 rounded down to a multiple of 512; sources are tested `ra` before `rb` (R117 to R119,
R122). -/
def Obligations.TwoSourceCommands : Prop :=
  ∀ (rd ra rb : RegNum) (s : State),
    (s.state.isActive = false → s.tsw[ra] = true → s.tsw[rb] = true →
      exec (.tsadd rd ra rb) s = .next (s.wroteT rd ((s.ts[ra].toNat + s.ts[rb].toNat) % 2 ^ 40)) ∧
      exec (.tssub rd ra rb) s = .next (s.wroteT rd ((s.ts[ra].toNat + 2 ^ 40 - s.ts[rb].toNat) % 2 ^ 40)) ∧
      exec (.tssub32 rd ra rb) s = .next (s.wroteT rd (s.delta ra rb)) ∧
      exec (.tssched rd ra rb) s = .next (s.wroteT rd (targetNumber s.ts[ra] s.ts[rb]))) ∧
    (∀ i ∈ [Instr.tsadd rd ra rb, .tssub rd ra rb, .tssub32 rd ra rb, .tssched rd ra rb],
      (s.state.isActive = false → s.tsw[ra] = false → exec i s = .next (s.answered .errUnwritten ra)) ∧
      (s.state.isActive = false → s.tsw[ra] = true → s.tsw[rb] = false →
        exec i s = .next (s.answered .errUnwritten rb)) ∧
      (s.state.isActive = true → exec i s = .next (s.answered .errBusy 0)))

/-- TSCMP answers the sign of the 40-bit difference and TSCMP32 that of the low words' difference, with AMBIG at
exactly half the range, in every state (R123, R124). -/
def Obligations.ComparisonVerdicts : Prop :=
  ∀ (ra rb : RegNum) (s : State),
    (s.tsw[ra] = true → s.tsw[rb] = true →
      exec (.tscmp ra rb) s =
        .next (s.answered .ok (verdictNumber ((s.ts[ra].toNat + 2 ^ 40 - s.ts[rb].toNat) % 2 ^ 40) (2 ^ 39))) ∧
      exec (.tscmp32 ra rb) s = .next (s.answered .ok (verdictNumber (s.delta ra rb) (2 ^ 31)))) ∧
    (∀ i ∈ [Instr.tscmp ra rb, .tscmp32 ra rb],
      (s.tsw[ra] = false → exec i s = .next (s.answered .errUnwritten ra)) ∧
      (s.tsw[ra] = true → s.tsw[rb] = false → exec i s = .next (s.answered .errUnwritten rb)))

/-- The verdict is the true order of two instants of an unbounded device time: TSCMP when they are less than 2^39
units apart, TSCMP32 when less than 2^31, whatever wraps lie between them (R123, R124). -/
def Obligations.ComparisonGivesTheTrueOrder : Prop :=
  ∀ (ra rb : RegNum) (s : State) (earlier elapsed : Nat),
    s.tsw[ra] = true → s.tsw[rb] = true → 0 < elapsed →
    s.ts[ra] = BitVec.ofNat 40 (earlier + elapsed) → s.ts[rb] = BitVec.ofNat 40 earlier →
    (elapsed < 2 ^ 39 →
      exec (.tscmp ra rb) s = .next (s.answered .ok 4) ∧ exec (.tscmp rb ra) s = .next (s.answered .ok 2)) ∧
    (elapsed < 2 ^ 31 →
      exec (.tscmp32 ra rb) s = .next (s.answered .ok 4) ∧ exec (.tscmp32 rb ra) s = .next (s.answered .ok 2))

/-- The differences are the elapsed time of an unbounded device time: TSSUB exact below 2^40 units, TSSUB32 below
2^32, and TSSUB32 that time modulo 2^32 beyond (R118, R119, R125 (3)). -/
def Obligations.DifferencesAreElapsedTime : Prop :=
  ∀ (rd ra rb : RegNum) (s : State) (earlier elapsed : Nat),
    s.state.isActive = false → s.tsw[ra] = true → s.tsw[rb] = true →
    s.ts[ra] = BitVec.ofNat 40 (earlier + elapsed) → s.ts[rb] = BitVec.ofNat 40 earlier →
    (elapsed < 2 ^ 40 → exec (.tssub rd ra rb) s = .next (s.wroteT rd elapsed)) ∧
    exec (.tssub32 rd ra rb) s = .next (s.wroteT rd (elapsed % 2 ^ 32))

/-! ## The estimator (spec/41_tof_estimator.md) -/

/-- TOFSS: the exact rational `(Ra - Rb * (1 - k)) / 2`, or the refusal of a non-finite ratio, of degenerate timing,
of an unwritten register, or in an active state (R141, R143, R145). -/
def Obligations.TofssEstimates : Prop :=
  ∀ s : State,
    (s.state.isActive = false → s.allWritten [0, 1, 2, 3] →
      (nonFinite s.k → exec .tofss s = .next (s.answered .errBadK 0)) ∧
      (¬ nonFinite s.k → s.delta 3 0 = 0 ∧ s.delta 2 1 = 0 → exec .tofss s = .next (s.answered .degenerate 0)) ∧
      (¬ nonFinite s.k → ¬ (s.delta 3 0 = 0 ∧ s.delta 2 1 = 0) →
        exec .tofss s = .next (State.answered
          { s with
            tof := ((s.delta 3 0 : ℚ) - (s.delta 2 1 : ℚ) * (1 - ratioOfPattern s.k)) / 2, tofValid := true }
          .ok 0))) ∧
    (∀ r, s.state.isActive = false → s.firstMissing [0, 1, 2, 3] r →
      exec .tofss s = .next (s.answered .errUnwritten r)) ∧
    (s.state.isActive = true → exec .tofss s = .next (s.answered .errBusy 0))

/-- TOFDS: the exact rational `(Ra*Rb - Da*Db) / (Ra+Rb+Da+Db)`, of magnitude below 2^32, or its refusals (R142,
R144, R145). -/
def Obligations.TofdsEstimates : Prop :=
  ∀ s : State,
    (s.state.isActive = false → s.allWritten [0, 1, 2, 3, 4, 5] →
      ∀ ra rb da db : Nat, ra = s.delta 3 0 → rb = s.delta 5 2 → da = s.delta 4 3 → db = s.delta 2 1 →
      (ra + rb + da + db = 0 → exec .tofds s = .next (s.answered .degenerate 0)) ∧
      (ra + rb + da + db ≠ 0 → ∃ q : ℚ,
        q * (ra + rb + da + db) = (ra : ℚ) * rb - (da : ℚ) * db ∧ |q| < 2 ^ 32 ∧
        exec .tofds s = .next (State.answered { s with tof := q, tofValid := true } .ok 0))) ∧
    (∀ r, s.state.isActive = false → s.firstMissing [0, 1, 2, 3, 4, 5] r →
      exec .tofds s = .next (s.answered .errUnwritten r)) ∧
    (s.state.isActive = true → exec .tofds s = .next (s.answered .errBusy 0))

/-- TOFRD answers `TOF` rounded toward zero as a signed 64-bit number in two's complement, `ERR_RANGE` where it does
not fit, `ERR_UNWRITTEN` with 0x10 where no result is valid, in every state (R146). -/
def Obligations.TofrdRoundsTowardZero : Prop :=
  ∀ s : State,
    (s.tofValid = false → exec .tofrd s = .next (s.answered .errUnwritten 0x10)) ∧
    (s.tofValid = true → ∀ q : ℤ, q = (if 0 ≤ s.tof then ⌊s.tof⌋ else ⌈s.tof⌉) →
      (-2 ^ 63 ≤ q ∧ q < 2 ^ 63 →
        exec .tofrd s = .next { s with responses := s.responses ++ [⟨.ok, BitVec.ofInt 128 q⟩] }) ∧
      (q < -2 ^ 63 ∨ 2 ^ 63 ≤ q → exec .tofrd s = .next (s.answered .errRange 0)))

/-- Both estimates depend on the timestamps only through the deltas: one constant added modulo 2^40 to one device's
timestamps and another to the other's changes nothing else (R148 (2)). A symmetric DS-TWR exchange gives
`(R - D) / 2` whatever `K` holds, and so does TOFSS of a round trip `R` and a reply time `D` with `val(K) = 0`, of
either sign (R141, R148 (1), (3)). -/
def Obligations.EstimatesDependOnDeltasOnly : Prop :=
  (∀ (s t : State) (c d : Timestamp), ∀ i ∈ [Instr.tofss, .tofds], exec i s = .next t →
    exec i (s.shifted c d) = .next { t with ts := (s.shifted c d).ts }) ∧
  (∀ (s : State) (r d : Nat), s.state.isActive = false → s.delta 3 0 = r → s.delta 2 1 = d → 0 < r + d →
    (s.allWritten [0, 1, 2, 3, 4, 5] → s.delta 5 2 = r → s.delta 4 3 = d →
      exec .tofds s = .next (State.answered { s with tof := ((r : ℚ) - d) / 2, tofValid := true } .ok 0)) ∧
    (s.allWritten [0, 1, 2, 3] → ¬ nonFinite s.k → ratioOfPattern s.k = 0 →
      exec .tofss s = .next (State.answered { s with tof := ((r : ℚ) - d) / 2, tofValid := true } .ok 0)))

/-! ## The frame codec (spec/42_frame_codec.md, spec/20_memory.md) -/

/-- The layout predicate is that of R157, and FENC and FDEC of a kind whose layout fails are refused with
`ERR_CONFIG`, in an active state with `ERR_BUSY`, and write nothing (R157, R159, R160). -/
def Obligations.LayoutIsChecked : Prop :=
  ∀ (k : FrameKind) (s : State),
    (s.layoutOK k = true ↔ layoutHolds s k) ∧
    (∀ i ∈ [Instr.fenc k, .fdec k],
      (s.state.isActive = true → exec i s = .next (s.answered .errBusy 0)) ∧
      (s.state.isActive = false → ¬ layoutHolds s k → exec i s = .next (s.answered .errConfig 0)))

/-- FENC builds the frame: the template's header with SEQ in byte 2, each field little-endian at its offset, zeros
elsewhere up to the frame length, the bytes beyond kept, `FB_LEN` the frame length, nothing else changed; an
unloaded source is refused (R100, R156, R159, R66). The premise on the buffer is the invariant's. -/
def Obligations.FencBuildsTheFrame : Prop :=
  ∀ (k : FrameKind) (s : State), s.state.isActive = false → layoutHolds s k →
    (Memory.wf s.fb → encodeReady s k →
      ∃ t : State, exec (.fenc k) s = .next t ∧
        t = State.answered { s with fb := t.fb, fbLen := s.frameLenOf k } .ok (s.frameLenOf k).toNat ∧
        Memory.wf t.fb ∧
        (∀ j, j < 10 → Memory.read t.fb j = if j = 2 then s.seq else s.tplByte k j) ∧
        (∀ p ∈ timestampFields s k, spanNumber t.fb p.2 = s.ts[p.1].toNat % 2 ^ 32) ∧
        (carriesCounter s k → spanNumber t.fb s.cfg.pollCtrIdx.toNat = s.stsIv.toNat % 2 ^ 32) ∧
        (∀ x, 10 ≤ x → x < (s.frameLenOf k).toNat → (∀ o ∈ fieldOffsets s k, x < o ∨ o + 4 ≤ x) →
          Memory.read t.fb x = 0) ∧
        (∀ x, (s.frameLenOf k).toNat ≤ x → Memory.read t.fb x = Memory.read s.fb x)) ∧
    (∀ r, s.firstMissing ((timestampFields s k).map Prod.fst) r →
      exec (.fenc k) s = .next (s.answered .errUnwritten r)) ∧
    (carriesCounter s k → s.ivSet = false → exec (.fenc k) s = .next (s.answered .errUnwritten 0x21))

/-- FDEC: another length is a mismatch that writes nothing; a differing header byte is a mismatch that has cleared
byte 2; otherwise byte 2 is cleared and each field stored in its destination, zero-extended, and nothing else changes
(R160). -/
def Obligations.FdecDecodesTheFrame : Prop :=
  ∀ (k : FrameKind) (s : State), s.state.isActive = false → layoutHolds s k →
    (s.fbLen ≠ s.frameLenOf k → exec (.fdec k) s = .next (s.answered .mismatch 0)) ∧
    (s.fbLen = s.frameLenOf k → Memory.wf s.fb →
      ∃ t : State, exec (.fdec k) s = .next t ∧ Memory.read t.fb 2 = 0 ∧ sameBytesOutside s t 2 1 ∧
        (¬ prefixMatches s k → t = State.answered { s with fb := t.fb } .mismatch 0) ∧
        (prefixMatches s k →
          t = State.answered { s with fb := t.fb, ts := t.ts, tsw := t.tsw, pollCtr := t.pollCtr } .ok
            (kindNumber k) ∧
          (∀ p ∈ timestampFields s k, t.ts[p.1].toNat = spanNumber s.fb p.2 ∧ t.tsw[p.1] = true) ∧
          (∀ r : RegNum, r ∉ (timestampFields s k).map Prod.fst → t.ts[r] = s.ts[r] ∧ t.tsw[r] = s.tsw[r]) ∧
          (carriesCounter s k → t.pollCtr.toNat = spanNumber s.fb s.cfg.pollCtrIdx.toNat) ∧
          (¬ carriesCounter s k → t.pollCtr = s.pollCtr)))

/-- The round-trip law: FENC then FDEC of a kind answers `(OK, k)`, whatever SEQ is, and leaves in every destination
the low 32 bits of its source (R167). -/
def Obligations.CodecRoundTrip : Prop :=
  ∀ (k : FrameKind) (s : State), s.state.isActive = false → layoutHolds s k → Memory.wf s.fb → encodeReady s k →
    ∃ t u : State, exec (.fenc k) s = .next t ∧ exec (.fdec k) t = .next u ∧
      u.responses =
        s.responses ++ [⟨.ok, (s.frameLenOf k).setWidth 128⟩, ⟨.ok, BitVec.ofNat 128 (kindNumber k)⟩] ∧
      (∀ p ∈ timestampFields s k, u.tsw[p.1] = true ∧ u.ts[p.1].toNat = s.ts[p.1].toNat % 2 ^ 32) ∧
      (carriesCounter s k → u.pollCtr.toNat = s.stsIv.toNat % 2 ^ 32) ∧
      Memory.read u.fb 2 = 0

/-- Mismatch detection: a frame that FDEC accepts, with one header byte other than byte 2 changed, is answered
`MISMATCH`; with byte 2 or a byte from offset 10 on changed, it is still accepted (R168). -/
def Obligations.PrefixCorruptionIsDetected : Prop :=
  ∀ (k : FrameKind) (s : State) (j : Nat) (b : Byte),
    s.state.isActive = false → Memory.wf s.fb → answers (.fdec k) s .ok (kindNumber k) →
    (j < 10 → j ≠ 2 → b ≠ Memory.read s.fb j →
      answers (.fdec k) { s with fb := Memory.write s.fb j b } .mismatch 0) ∧
    (j = 2 ∨ 10 ≤ j ∧ j < 128 → answers (.fdec k) { s with fb := Memory.write s.fb j b } .ok (kindNumber k))

/-- FPUT32 stores the low 32 bits of a register little-endian at any offset up to 124 and nothing else; FGET32 loads
such a span zero-extended; offsets 125 to 255 are `ERR_RANGE`, tested before the written tag (R61, R64, R161,
R162). -/
def Obligations.SpanAccess : Prop :=
  ∀ (r : RegNum) (off : BitVec 8) (s : State),
    (s.state.isActive = false → off.toNat + 4 ≤ 128 →
      (Memory.wf s.fb → s.tsw[r] = true →
        ∃ t : State, exec (.fput32 r off) s = .next t ∧ t = State.answered { s with fb := t.fb } .ok 0 ∧
          Memory.wf t.fb ∧ spanNumber t.fb off.toNat = s.ts[r].toNat % 2 ^ 32 ∧
          sameBytesOutside s t off.toNat 4) ∧
      (s.tsw[r] = false → exec (.fput32 r off) s = .next (s.answered .errUnwritten r)) ∧
      exec (.fget32 r off) s = .next (s.wroteT r (spanNumber s.fb off.toNat))) ∧
    (∀ i ∈ [Instr.fput32 r off, .fget32 r off],
      (s.state.isActive = false → 128 < off.toNat + 4 → exec i s = .next (s.answered .errRange 0)) ∧
      (s.state.isActive = true → exec i s = .next (s.answered .errBusy 0)))

/-- FBWR writes one byte, FBRD reads one in every state, beyond `FB_LEN` too; FLENW sets the frame length up to 128;
FLENR reads it; each out-of-range value is `ERR_RANGE` with nothing written (R163 to R166). -/
def Obligations.ByteAndLengthAccess : Prop :=
  ∀ (off : BitVec 8) (s : State),
    (off.toNat < 128 →
      exec (.fbrd off) s = .next (s.answered .ok (Memory.read s.fb off.toNat).toNat) ∧
      (s.state.isActive = false → Memory.wf s.fb →
        ∃ t : State, exec (.fbwr off) s = .next t ∧ t = State.answered { s with fb := t.fb } .ok 0 ∧
          Memory.wf t.fb ∧ (Memory.read t.fb off.toNat).toNat = s.opnd.toNat % 256 ∧
          sameBytesOutside s t off.toNat 1)) ∧
    (128 ≤ off.toNat →
      exec (.fbrd off) s = .next (s.answered .errRange 0) ∧
      (s.state.isActive = false → exec (.fbwr off) s = .next (s.answered .errRange 0))) ∧
    (s.state.isActive = false → s.opnd.toNat % 256 ≤ 128 →
      exec .flenw s = .next (State.answered { s with fbLen := BitVec.ofNat 8 s.opnd.toNat } .ok 0)) ∧
    (s.state.isActive = false → 128 < s.opnd.toNat % 256 → exec .flenw s = .next (s.answered .errRange 0)) ∧
    (s.state.isActive = true →
      exec (.fbwr off) s = .next (s.answered .errBusy 0) ∧ exec .flenw s = .next (s.answered .errBusy 0)) ∧
    exec .flenr s = .next (s.answered .ok s.fbLen.toNat)

/-! ## The STS manager (spec/43_sts_sync.md) -/

/-- STSKEY and STSIV load the whole operand and set their flag, in Idle before the first exchange start only; no HAL
call is made (R182, R183). -/
def Obligations.SessionLoads : Prop :=
  ∀ s : State,
    (s.state = .idle → s.firstDone = false →
      exec .stskey s = .next (State.answered { s with stsKey := s.opnd, keySet := true } .ok 0) ∧
      exec .stsiv s = .next (State.answered { s with stsIv := s.opnd, ivSet := true } .ok 0)) ∧
    (∀ i ∈ [Instr.stskey, .stsiv],
      (s.state = .idle → s.firstDone = true → exec i s = .next (s.answered .errLocked 0)) ∧
      (s.state.isActive = true → exec i s = .next (s.answered .errBusy 0)) ∧
      (s.state.isTerminal = true → exec i s = .next (s.answered .errState 0)))

/-- STSBEGIN: the first exchange start of the session hands the full key and IV to the radio; every later one adds
`STS_CTR_INC` to the low 32 bits of the IV, without a carry beyond them, and reloads that counter; both answer the
counter; a missing key or IV is refused (R184). -/
def Obligations.StsbeginStartsTheExchange : Prop :=
  ∀ s : State,
    (s.state.isActive = false → s.keySet = true → s.ivSet = true →
      exec .stsbegin s = .next (s.stsStarted.answered .ok (s.stsStarted.stsIv.toNat % 2 ^ 32)) ∧
      s.stsStarted.stsIv.toNat / 2 ^ 32 = s.stsIv.toNat / 2 ^ 32 ∧
      s.stsStarted.stsIv.toNat % 2 ^ 32 =
        (s.stsIv.toNat + if s.firstDone then s.cfg.stsCtrInc.toNat else 0) % 2 ^ 32) ∧
    (s.state.isActive = false → s.keySet = false → exec .stsbegin s = .next (s.answered .errUnwritten 0x20)) ∧
    (s.state.isActive = false → s.keySet = true → s.ivSet = false →
      exec .stsbegin s = .next (s.answered .errUnwritten 0x21)) ∧
    (s.state.isActive = true → exec .stsbegin s = .next (s.answered .errBusy 0))

/-- STSCHK draws the quality score, stores it, and answers whether it is non-negative (R185, R186). -/
def Obligations.StschkReadsTheQuality : Prop :=
  ∀ s : State,
    (s.state.isActive = false →
      exec .stschk s = .next (State.answered
        { s with stsScore := s.ans.score, calls := s.calls ++ [.readStsQuality] } .ok
        (if 0 ≤ s.ans.score.toInt then 1 else 0))) ∧
    (s.state.isActive = true → exec .stschk s = .next (s.answered .errBusy 0))

/-- STSRESYNC overwrites the counter with the peer's exactly while `RESYNC_PENDING = 1`, and makes no HAL call;
STSLOCK and STSUNLOCK write that flag (R187 to R189). -/
def Obligations.ResyncCommands : Prop :=
  ∀ s : State,
    (s.state.isActive = false →
      (s.resyncPending = true → ∃ iv : BitVec 128,
        iv.toNat = s.stsIv.toNat / 2 ^ 32 * 2 ^ 32 + s.pollCtr.toNat ∧
        exec .stsresync s = .next (State.answered { s with stsIv := iv } .ok 1)) ∧
      (s.resyncPending = false → exec .stsresync s = .next (s.answered .ok 0)) ∧
      exec .stslock s = .next (State.answered { s with resyncPending := false } .ok 0) ∧
      exec .stsunlock s = .next (State.answered { s with resyncPending := true } .ok 0)) ∧
    (s.state.isActive = true →
      ∀ i ∈ [Instr.stsresync, .stslock, .stsunlock], exec i s = .next (s.answered .errBusy 0))

/-- The overwrite realigns two blocks: when `b` has taken `a`'s counter from its Poll and resynchronises, the next
exchange start of each, with the same increment, reloads the same counter into both radios (R191). -/
def Obligations.OverwriteRealignsTheCounters : Prop :=
  ∀ a b : State,
    a.state.isActive = false → b.state.isActive = false → a.keySet = true → a.ivSet = true → b.keySet = true →
    b.ivSet = true → a.firstDone = true → b.firstDone = true → b.resyncPending = true →
    a.cfg.stsCtrInc = b.cfg.stsCtrInc → b.pollCtr.toNat = a.stsIv.toNat % 2 ^ 32 →
    ∃ (a' b' b'' : State) (c : BitVec 32), exec .stsbegin a = .next a' ∧ exec .stsresync b = .next b' ∧
      exec .stsbegin b' = .next b'' ∧ c.toNat = (a.stsIv.toNat + a.cfg.stsCtrInc.toNat) % 2 ^ 32 ∧
      a'.calls = a.calls ++ [.reloadStsCounter c] ∧ b''.calls = b.calls ++ [.reloadStsCounter c] ∧
      a'.stsIv.toNat % 2 ^ 32 = c.toNat ∧ b''.stsIv.toNat % 2 ^ 32 = c.toNat

/-! ## System commands (spec/46_system_commands.md) -/

/-- XSTART of an Initiator: the exchange is created, started with STS where configured, the Poll is built as FENC
POLL builds it, handed to the radio with its ranging bit, and the receive window scheduled (R205, R272). The bits
behind the cleared tags are free values (the model's: log 6). -/
def Obligations.XstartAsInitiator : Prop :=
  ∀ s : State, s.state = .idle → configHolds s → s.isResponder = false →
    ∃ t : State, exec (.fenc .poll) s.exchangeStarted = .next t ∧
      t.responses = s.responses ++ [⟨.ok, (s.frameLenOf .poll).setWidth 128⟩] ∧
      exec .xstart s = .next (State.answered
        { s.exchangeStarted with
          fb := t.fb, fbLen := t.fbLen, state := .pollSent
          calls := s.exchangeStarted.calls
            ++ [.transmit (Memory.readBytes t.fb 0 t.fbLen.toNat) true,
                .receiveEnable (.delayedFromTimestamp s.cfg.dPoll)] } .ok 0)

/-- XSTART of a Responder: the exchange is created, started with STS where configured, and the receiver enabled at
once; the frame buffer is not touched (R219, R272). The bits behind the cleared tags are free values (the model's:
log 6). -/
def Obligations.XstartAsResponder : Prop :=
  ∀ s : State, s.state = .idle → configHolds s → s.isResponder = true →
    exec .xstart s = .next (State.answered
      { s.exchangeStarted with
        state := .awaitPoll, calls := s.exchangeStarted.calls ++ [.receiveEnable .immediate] } .ok 0)

/-- XCLR returns from a terminal state and restores nothing; it is refused elsewhere, and XSTART is refused outside
Idle and, in Idle, where the start predicate fails (R272, R273). -/
def Obligations.XclrReturnsAndXstartIsRefused : Prop :=
  ∀ s : State,
    (s.state.isTerminal = true →
      exec .xclr s = .next (State.answered { s with state := .idle, outcome := .none } .ok 0) ∧
      exec .xstart s = .next (s.answered .errState 0)) ∧
    (s.state.isActive = true →
      exec .xclr s = .next (s.answered .errBusy 0) ∧ exec .xstart s = .next (s.answered .errBusy 0)) ∧
    (s.state = .idle →
      exec .xclr s = .next (s.answered .errState 0) ∧
      (¬ configHolds s → exec .xstart s = .next (s.answered .errConfig 0)))

/-- CFGW stores the low bits of the operand in the register its index names, which then reads back so, and changes no
other register that CFGR reads and nothing else of the state (R36, R37, R274). -/
def Obligations.CfgwWritesOneRegister : Prop :=
  ∀ (idx : BitVec 8) (bits : Nat) (isCfg : Bool) (s : State), (idx, bits, isCfg) ∈ writableRegisters →
    (aesIndex idx → s.hasAes = true) → (isCfg = true → s.state = .idle ∧ s.session = false) →
    (isCfg = false → s.state.isActive = false) →
    ∃ t : State, exec (.cfgw idx) s = .next t ∧
      t = State.answered { s with seq := t.seq, k := t.k, cfg := t.cfg, aes := t.aes } .ok 0 ∧
      exec (.cfgr idx) t = .next (t.answered .ok (readBack idx bits s.opnd)) ∧
      (∀ (j : BitVec 8) (st : Status) (d : Datum), j ≠ idx →
        exec (.cfgr j) s = .next { s with responses := s.responses ++ [⟨st, d⟩] } →
        exec (.cfgr j) t = .next { t with responses := t.responses ++ [⟨st, d⟩] })

/-- CFGW refused, and nothing written: a reserved, absent or read-only index is illegal in every state; then, by
class, an active state is busy, a terminal state is a wrong state, and the session locks the configuration (R93,
R274). -/
def Obligations.CfgwRefusals : Prop :=
  ∀ (idx : BitVec 8) (s : State),
    (idx ∉ writableRegisters.map Prod.fst ∨ aesIndex idx ∧ s.hasAes = false →
      exec (.cfgw idx) s = .next (s.answered .errIllegal 0)) ∧
    (∀ (bits : Nat) (isCfg : Bool), (idx, bits, isCfg) ∈ writableRegisters → (aesIndex idx → s.hasAes = true) →
      (s.state.isActive = true → exec (.cfgw idx) s = .next (s.answered .errBusy 0)) ∧
      (isCfg = true → s.state.isTerminal = true → exec (.cfgw idx) s = .next (s.answered .errState 0)) ∧
      (isCfg = true → s.state = .idle → s.session = true → exec (.cfgw idx) s = .next (s.answered .errLocked 0)))

/-- CFGR answers every register of the map in every state, zero-extended, the score sign-extended, the STATUS view
assembled; a reserved index, or an AES index without the unit, is illegal (R36, R38, R275). -/
def Obligations.CfgrReadsTheMap : Prop :=
  ∀ (idx : BitVec 8) (s : State),
    (∀ v, (idx, v) ∈ registerReadings s → exec (.cfgr idx) s = .next (s.answered .ok v)) ∧
    (s.hasAes = true → ∀ v, (idx, v) ∈ aesReadings s → exec (.cfgr idx) s = .next (s.answered .ok v)) ∧
    (idx = 0x34 → exec (.cfgr idx) s =
      .next { s with responses := s.responses ++ [⟨.ok, BitVec.ofInt 128 s.stsScore.toInt⟩] }) ∧
    (idx ≠ 0x34 → idx ∉ (registerReadings s).map Prod.fst →
      (s.hasAes = true → idx ∉ (aesReadings s).map Prod.fst) →
      exec (.cfgr idx) s = .next (s.answered .errIllegal 0))

/-! ## The AES companion unit (spec/45_aes_frame_security.md) -/

/-- AESNONCE answers the counter's bytes below the source address's; AESLEN the exact payload length, or a length
error with it where negative or not below the capacity; both in every state; neither exists without the unit (R261,
R262). -/
def Obligations.AesNonceAndLength : Prop :=
  ∀ (s : State) (p : ℤ),
    p = (s.aes.frameLen.toNat : ℤ) - s.aes.hdrLen.toNat - s.aes.micLen.toNat - s.aes.fcsLen.toNat →
    (s.hasAes = true →
      exec .aesnonce s = .next (s.answered .ok (s.aes.ctr.toNat + 2 ^ 48 * s.aes.src.toNat)) ∧
      (0 ≤ p ∧ p < s.aes.bufCap.toNat →
        exec .aeslen s = .next { s with responses := s.responses ++ [⟨.ok, BitVec.ofInt 128 p⟩] }) ∧
      (p < 0 ∨ (s.aes.bufCap.toNat : ℤ) ≤ p →
        exec .aeslen s = .next { s with responses := s.responses ++ [⟨.lengthError, BitVec.ofInt 128 p⟩] })) ∧
    (s.hasAes = false →
      exec .aesnonce s = .next (s.answered .errIllegal 0) ∧ exec .aeslen s = .next (s.answered .errIllegal 0))

/-- AESCLS: a negative status is a length error, one with a masked error bit a crypto error, any other is OK, in
every state (R263). -/
def Obligations.AesclsClassifies : Prop :=
  ∀ (s : State) (st : BitVec 8), st.toNat = s.opnd.toNat % 256 →
    (s.hasAes = true →
      (st.toInt < 0 → exec .aescls s =
        .next { s with responses := s.responses ++ [⟨.lengthError, BitVec.ofInt 128 st.toInt⟩] }) ∧
      (0 ≤ st.toInt → st &&& s.aes.errMask ≠ 0 →
        exec .aescls s = .next (s.answered .cryptoError (st &&& s.aes.errMask).toNat)) ∧
      (0 ≤ st.toInt → st &&& s.aes.errMask = 0 → exec .aescls s = .next (s.answered .ok 0))) ∧
    (s.hasAes = false → exec .aescls s = .next (s.answered .errIllegal 0))

/-- AESPROT: a bad length is answered before any HAL call; otherwise exactly one job is handed to the radio, and the
response is what AESCLS answers for the radio's status, whatever the mode (R264, R265). -/
def Obligations.AesprotRunsOneJob : Prop :=
  ∀ (s : State) (p : ℤ),
    p = (s.aes.frameLen.toNat : ℤ) - s.aes.hdrLen.toNat - s.aes.micLen.toNat - s.aes.fcsLen.toNat →
    (s.hasAes = true → s.state.isActive = false →
      (p < 0 ∨ (s.aes.bufCap.toNat : ℤ) ≤ p →
        exec .aesprot s = .next { s with responses := s.responses ++ [⟨.lengthError, BitVec.ofInt 128 p⟩] }) ∧
      (0 ≤ p ∧ p < s.aes.bufCap.toNat →
        ∃ (st : Status) (d : Datum) (nonce : BitVec 96),
          nonce.toNat = s.aes.ctr.toNat + 2 ^ 48 * s.aes.src.toNat ∧
          (∀ u : State, u.hasAes = true → u.aes.errMask = s.aes.errMask → u.opnd = s.ans.aes.setWidth 128 →
            exec .aescls u = .next { u with responses := u.responses ++ [⟨st, d⟩] }) ∧
          exec .aesprot s = .next { s with
            calls := s.calls ++ [.doAes ⟨nonce, s.aes.hdrLen, p.toNat, s.aes.micLen, s.aes.mode⟩]
            responses := s.responses ++ [⟨st, d⟩] })) ∧
    (s.hasAes = true → s.state.isActive = true → exec .aesprot s = .next (s.answered .errBusy 0)) ∧
    (s.hasAes = false → exec .aesprot s = .next (s.answered .errIllegal 0))

/-! ## The sequencer (spec/44_sequencer.md, spec/60_exceptions.md) -/

/-- A timeout or a reception error in any receive wait ends the exchange: the wait is the one HAL call, the counter
of the kind advances, the outcome and the terminal state record it, resynchronisation is permitted again, nothing
else changes (R208, R209, R217, R222, R224, R300). -/
def Obligations.ReceptionFailuresEndTheExchange : Prop :=
  ∀ (s : State) (k : FrameKind), s.awaits k →
    exec .evRxTo s = .next { s with
      calls := s.calls ++ [.awaitStatus 0b0111 s.rxTimeout]
      cnt := { s.cnt with rxTimeout := s.cnt.rxTimeout + 1 }
      outcome := .rxTimeout, resyncPending := true, state := .timedOut } ∧
    exec .evRxErr s = .next { s with
      calls := s.calls ++ [.awaitStatus 0b0111 s.rxTimeout]
      cnt := { s.cnt with rxError := s.cnt.rxError + 1 }
      outcome := .rxError, resyncPending := true, state := .failed }

/-- A completed transmission: after the Poll, `T0` takes the transmit timestamp; after every frame, SEQ advances;
after the Final or the reply, the exchange concludes or waits for the next frame, with resynchronisation suppressed
while it waits for the Final (R204, R207, R216, R223). -/
def Obligations.TransmissionsComplete : Prop :=
  ∀ s : State,
    (s.state = .pollSent → exec .evTxDone s = .next { s with
      calls := s.calls ++ [.awaitStatus 0b1000 0, .readTimestamp .tx]
      ts := s.ts.set 0 (BitVec.ofNat 40 s.ans.timestamp.toNat), tsw := s.tsw.set 0 true
      seq := s.seq + 1, state := .awaitResponse }) ∧
    (s.state = .finalSent →
      (s.ackEnabled = true → exec .evTxDone s = .next { s with
        calls := s.calls ++ [.awaitStatus 0b1000 0], seq := s.seq + 1, state := .awaitAck }) ∧
      (s.ackEnabled = false → exec .evTxDone s = .next { s with
        calls := s.calls ++ [.awaitStatus 0b1000 0], seq := s.seq + 1
        outcome := .success, resyncPending := true, state := .done })) ∧
    (s.state = .respSent →
      (s.isDoubleSided = true → exec .evTxDone s = .next { s with
        calls := s.calls ++ [.awaitStatus 0b1000 0], seq := s.seq + 1
        resyncPending := false, state := .awaitFinal }) ∧
      (s.isDoubleSided = false → exec .evTxDone s = .next { s with
        calls := s.calls ++ [.awaitStatus 0b1000 0], seq := s.seq + 1
        outcome := .success, resyncPending := true, state := .done }))

/-- A good frame of the awaited kind and of good quality, in each receive wait: it is decoded as FDEC decodes it, the
receive timestamp goes to its register, and the exchange moves on (R203, R211, R218, R220, R225). The premises on the
buffer and the layout are the invariant's. -/
def Obligations.GoodFramesAreAccepted : Prop :=
  ∀ (s : State) (k : FrameKind), s.awaits k → Memory.wf s.fb → layoutHolds s k → s.wholeFrame → s.ofKind k →
    s.qualityPasses →
    ∃ t : State, s.decodesTo k .ok (kindNumber k) t ∧
      (s.state = .awaitPoll → exec .evGood s = .next { s.accepted t with
        calls := s.calls ++ s.receiveCalls ++ [.readTimestamp .rx]
        ts := t.ts.set 1 (BitVec.ofNat 40 s.ans.timestamp.toNat), tsw := t.tsw.set 1 true
        state := .pollValid }) ∧
      (s.state = .awaitFinal → exec .evGood s = .next { s.accepted t with
        calls := s.calls ++ s.receiveCalls ++ [.readTimestamp .rx]
        ts := t.ts.set 5 (BitVec.ofNat 40 s.ans.timestamp.toNat), tsw := t.tsw.set 5 true
        state := .finalValid }) ∧
      (s.state = .awaitAck → exec .evGood s = .next { s.accepted t with
        outcome := .success, resyncPending := true, state := .done }) ∧
      (s.state = .awaitResponse → exec .evGood s = .next { s.accepted t with
        calls := s.calls ++ s.receiveCalls ++ [.readTimestamp .rx]
          ++ (if s.isDoubleSided then [] else [.readClockOffsetRatio])
        ts := t.ts.set 3 (BitVec.ofNat 40 s.ans.timestamp.toNat), tsw := t.tsw.set 3 true
        k := if s.isDoubleSided then s.k else s.ans.ratio
        resyncPending := false, state := .respondValid })

/-- A good frame that is not of the awaited kind ends the exchange in BadFrame, whatever its quality, which is not
read; the buffer is left as FDEC leaves it, no timestamp and no field is stored (R203, R210, R218, R220, R225, R296
(2), R300). -/
def Obligations.ForeignFramesEndInBadFrame : Prop :=
  ∀ (s : State) (k : FrameKind), s.awaits k → Memory.wf s.fb → layoutHolds s k → s.wholeFrame → ¬ s.ofKind k →
    ∃ t : State, s.decodesTo k .mismatch 0 t ∧
      exec .evGood s = .next { s with
        fb := t.fb, fbLen := t.fbLen
        calls := s.calls ++ [.awaitStatus 0b0111 s.rxTimeout, .readFrame 128]
        cnt := { s.cnt with badFrame := s.cnt.badFrame + 1 }
        outcome := .badFrame, resyncPending := true, state := .badFrame }

/-- A good frame of the awaited kind with a negative score ends the exchange in BadSts with its fields stored and no
timestamp read; only on a Poll, and only while permitted, the counter takes the peer's value (R187, R192, R203,
R210, R218, R220, R225, R300). -/
def Obligations.BadQualityEndsInBadSts : Prop :=
  ∀ (s : State) (k : FrameKind), s.awaits k → Memory.wf s.fb → layoutHolds s k → s.wholeFrame → s.ofKind k →
    s.usesSts = true → s.ans.score.toInt < 0 →
    ∃ (t : State) (iv : BitVec 128), s.decodesTo k .ok (kindNumber k) t ∧
      iv.toNat = (if k = .poll ∧ s.resyncPending = true then s.stsIv.toNat / 2 ^ 32 * 2 ^ 32 + t.pollCtr.toNat
        else s.stsIv.toNat) ∧
      exec .evGood s = .next { s.accepted t with
        stsIv := iv
        cnt := { s.cnt with badSts := s.cnt.badSts + 1 }
        outcome := .badSts, resyncPending := true, state := .badSts }

/-- The estimating steps: in RespondValid of SS-TWR and in FinalValid the core evaluates TOFSS or TOFDS on the
registers; a result concludes the exchange with it, and degenerate timing or a non-finite ratio ends it in Failed
without one; no HAL call is made (R204, R212, R227). -/
def Obligations.EstimatingStepsConclude : Prop :=
  ∀ (s t : State) (i : Instr) (st : Status),
    s.state = .respondValid ∧ s.isDoubleSided = false ∧ i = .tofss ∨ s.state = .finalValid ∧ i = .tofds →
    exec i s.atRest = .next t → t.responses = s.responses ++ [⟨st, 0⟩] →
    (st = .ok → coreStep s = .next { s with
      tof := t.tof, tofValid := true, outcome := .success, resyncPending := true, state := .done }) ∧
    (st = .degenerate ∨ st = .errBadK → coreStep s = .next { s with
      outcome := .degenerateTiming, resyncPending := true, state := .failed })

/-- The transmitting steps: the aligned time of reception time plus delay is handed to the radio with the frame that
FENC builds once the predicted timestamp is in its register; `Ok` schedules the next receive window where one
follows, `LateStart` ends the exchange in Failed with what was written kept (R213, R215, R221). -/
def Obligations.TransmittingStepsScheduleAndSend : Prop :=
  ∀ (s t : State) (k : FrameKind) (rx tx : RegNum) (delay g : Timestamp) (window : List HalCall) (after : SeqState),
    (s.state = .respondValid ∧ s.isDoubleSided = true ∧ k = .final ∧ rx = 3 ∧ tx = 4 ∧
        delay = s.cfg.finalDelay ∧ after = .finalSent ∧
        window = (if s.ackEnabled then [.receiveEnable (.delayedFromTimestamp s.cfg.dFinal)] else [])) ∨
      (s.state = .pollValid ∧ k = (if s.isDoubleSided then .response else .report) ∧ rx = 1 ∧ tx = 2 ∧
        delay = s.cfg.respDelay ∧ after = .respSent ∧
        window = (if s.isDoubleSided then [.receiveEnable (.delayedFromTimestamp s.cfg.dResp)] else [])) →
    g.toNat = targetNumber s.ts[rx] delay →
    exec (.fenc k) (s.scheduled rx tx delay).atRest = .next t →
    t.responses = s.responses ++ [⟨.ok, (s.frameLenOf k).setWidth 128⟩] →
    (s.ans.start = .ok → coreStep s = .next { s.scheduled rx tx delay with
      fb := t.fb, fbLen := t.fbLen, state := after
      calls := s.calls ++ [.transmitDelayed (Memory.readBytes t.fb 0 t.fbLen.toNat) g] ++ window }) ∧
    (s.ans.start = .lateStart → coreStep s = .next { s.scheduled rx tx delay with
      fb := t.fb, fbLen := t.fbLen
      calls := s.calls ++ [.transmitDelayed (Memory.readBytes t.fb 0 t.fbLen.toNat) g]
      outcome := .lateStart, resyncPending := true, state := .failed })

/-- Where nothing waits no event is delivered and none is remembered (R294; an event word there changes nothing, the
model's: log 11). In a wait an answer outside its mask, or of no or several bits, has no behaviour: the model stops
(R202, R306; the model's: log 10). -/
def Obligations.EventsOutsideAWaitOrItsMask : Prop :=
  ∀ (s : State) (ev : EventBits),
    (s.wait = none → ∀ i, decodeEvent ev = .ok i → exec i s = .next s) ∧
    (s.wait = none → (∀ i, decodeEvent ev ≠ .ok i) → strayEvent s = .next s) ∧
    (∀ (mask : EventBits) (t : BitVec 32), s.wait = some (mask, t) →
      (∀ i, decodeEvent ev = .ok i → ev &&& mask = 0 → exec i s = .fault .eventOutsideContract) ∧
      ((∀ i, decodeEvent ev ≠ .ok i) → strayEvent s = .fault .eventOutsideContract)) ∧
    (s.wait = none ↔ s.state ∉ [.pollSent, .finalSent, .respSent, .awaitResponse, .awaitAck, .awaitPoll, .awaitFinal])

/-! ## The whole machine -/

/-- The invariant holds right after reset. -/
def Obligations.InvAtReset : Prop := State.Inv State.reset

/-- Every step keeps the invariant: the buffer's canonical form (R60), the frame length's bound (R24), the template's
hardwired byte (R25), the agreement of STATE with outcome, role and scheme (R30, R291), the lock and the accepted
configuration of an active exchange (R272), the written registers of each state (R22), no distance while active
(R300), suppression after the reply (R181), the loaded session (R184). -/
def Obligations.StepKeepsInv : Prop := ∀ s t : State, s.Inv → step s = .next t → t.Inv

/-- A step whose HAL answers keep the contract of R306, from a state of the invariant, neither faults nor is refused:
the block never stops. -/
def Obligations.NoStopUnderTheContract : Prop := ∀ s : State, s.Inv → s.contractNext → ∃ t, step s = .next t

/-- Every command, in every state, is answered with exactly one response; one other than XSTART and XCLR leaves STATE
alone; one answered with a status other than OK changes nothing else, but that FDEC with a differing header has
cleared byte 2 of the buffer and AESPROT may have handed over its job (R29, R80, R91). -/
def Obligations.EveryCommandIsAnsweredOnce : Prop :=
  ∀ (i : Instr) (s : State), isEventWord i = false →
    ∃ (t : State) (st : Status) (d : Datum), exec i s = .next t ∧ t.responses = s.responses ++ [⟨st, d⟩] ∧
      (i ≠ .xstart → i ≠ .xclr → t.state = s.state) ∧
      (st ≠ .ok →
        t = { s with responses := s.responses ++ [⟨st, d⟩] } ∨
        (∃ k, i = .fdec k) ∧ st = .mismatch ∧ t = { s with
          fb := Memory.write s.fb 2 0, responses := s.responses ++ [⟨st, d⟩] } ∨
        i = .aesprot ∧ (st = .lengthError ∨ st = .cryptoError) ∧ t = { s with
          calls := s.calls ++ [.doAes s.aes.job], responses := s.responses ++ [⟨st, d⟩] })

/-- A read-class command writes no state and makes no HAL call and is never busy, in any state; NOP answers `(OK, 0)`
(R92, R270). -/
def Obligations.ReadClassChangesNothing : Prop :=
  (∀ s : State, exec .nop s = .next (s.answered .ok 0)) ∧
  (∀ (i : Instr) (s : State), isReadClass i = true →
    ∃ (st : Status) (d : Datum), st ≠ .errBusy ∧ st ≠ .errState ∧
      exec i s = .next { s with responses := s.responses ++ [⟨st, d⟩] })

/-- In an active state every legal command that is not of the read class is answered `(ERR_BUSY, 0)` with nothing
written: the host cannot disturb an exchange (R92, R271). An AES command or index is legal only on an instance with
the unit (R93 (1)). -/
def Obligations.ActiveExchangesAreUndisturbed : Prop :=
  ∀ (i : Instr) (s : State), s.state.isActive = true → isEventWord i = false → isReadClass i = false →
    i.wellFormed = true → (needsAes i → s.hasAes = true) → exec i s = .next (s.answered .errBusy 0)

/-- While an exchange is active no step but reset writes the STS IV, other than the resynchronisation of a waiting
Responder that is still permitted: once suppressed, a bad frame cannot overwrite the counter (R190, R231 (3)). -/
def Obligations.SuppressedCounterIsNotOverwritten : Prop :=
  ∀ s t : State, s.state.isActive = true → ¬ (s.state = .awaitPoll ∧ s.resyncPending = true) →
    s.inputs.head? ≠ some .reset → step s = .next t → t.stsIv = s.stsIv

/-- Every sequencer step brings the exchange strictly nearer to its end; an XSTART answered OK, which only Idle
admits, begins it in PollSent or AwaitPoll, at most five steps from there (R231 (4), R272). -/
def Obligations.ExchangesEndWithinFiveSteps : Prop :=
  (∀ (i : Instr) (s t : State), isEventWord i = true → s.wait ≠ none → exec i s = .next t →
    t.state.stepsLeft < s.state.stepsLeft) ∧
  (∀ s t : State, s.state ∈ [.respondValid, .pollValid, .finalValid] → coreStep s = .next t →
    t.state.stepsLeft < s.state.stepsLeft) ∧
  (∀ (s t : State) (d : Datum), exec .xstart s = .next t → t.responses = s.responses ++ [⟨.ok, d⟩] →
    s.state = .idle ∧ t.state = (if s.isResponder then .awaitPoll else .pollSent) ∧ t.state.stepsLeft = 5) ∧
  (∀ s : State, s.state.stepsLeft = 0 ↔ s.state.isActive = false)

/-- Every step but reset advances exactly the counter of the counted kind in which it ends an active exchange, and no
other (R33, R231 (5), R300). -/
def Obligations.CountersCountEndedExchanges : Prop :=
  ∀ s t : State, s.inputs.head? ≠ some .reset → step s = .next t →
    t.cnt = {
      badFrame := s.cnt.badFrame + if s.state.isActive = true ∧ t.state = .badFrame then 1 else 0
      badSts := s.cnt.badSts + if s.state.isActive = true ∧ t.state = .badSts then 1 else 0
      rxTimeout := s.cnt.rxTimeout + if s.state.isActive = true ∧ t.state = .timedOut then 1 else 0
      rxError := s.cnt.rxError
        + if s.state.isActive = true ∧ t.state = .failed ∧ t.outcome = .rxError then 1 else 0 }

/-- Delayed transmissions are made by the core's own step only, at most one a step, each at a multiple of 512 at most
511 units before reception time plus delay and never after it (R231 (2), R332). -/
def Obligations.DelayedTransmissionsAreAligned : Prop :=
  (∀ (i : Instr) (s t : State), exec i s = .next t →
    ∃ cs, t.calls = s.calls ++ cs ∧ ∀ f g, .transmitDelayed f g ∉ cs) ∧
  (∀ s t : State, coreStep s = .next t → t.calls = s.calls ∨
    ∃ (f : List Byte) (g : Timestamp) (cs : List HalCall) (sum : Nat),
      t.calls = s.calls ++ .transmitDelayed f g :: cs ∧ (∀ f' g', .transmitDelayed f' g' ∉ cs) ∧
      (s.state = .respondValid ∧ sum = (s.ts[3].toNat + s.cfg.finalDelay.toNat) % 2 ^ 40 ∨
        s.state = .pollValid ∧ sum = (s.ts[1].toNat + s.cfg.respDelay.toNat) % 2 ^ 40) ∧
      g.toNat % 512 = 0 ∧ g.toNat ≤ sum ∧ sum ≤ g.toNat + 511)

/-- After the first XSTART no step but reset changes a configuration register or ends the session, and after the
first exchange start none changes the key (R32, R182, R336). -/
def Obligations.ConfigurationIsLockedForTheSession : Prop :=
  ∀ s t : State, s.inputs.head? ≠ some .reset → step s = .next t →
    (s.session = true → t.session = true ∧ t.cfg = s.cfg) ∧
    (s.firstDone = true → t.firstDone = true ∧ t.stsKey = s.stsKey) ∧ t.hasAes = s.hasAes
end

