-- ==== Sys2Proof/Laws/State.lean ====
section
/-! SUPPORT. One lemma per field per update of the state, each true by rfl, so that no later proof unfolds a record
update. -/

namespace Sys2Proof.Machine

/-! ## setT -/

@[simp] theorem State.setT_ts (s : State) (r : RegNum) (v : Timestamp) : (s.setT r v).ts = s.ts.set r v := rfl
@[simp] theorem State.setT_tsw (s : State) (r : RegNum) (v : Timestamp) : (s.setT r v).tsw = s.tsw.set r true := rfl
@[simp] theorem State.setT_fb (s : State) (r : RegNum) (v : Timestamp) : (s.setT r v).fb = s.fb := rfl
@[simp] theorem State.setT_fbLen (s : State) (r : RegNum) (v : Timestamp) : (s.setT r v).fbLen = s.fbLen := rfl
@[simp] theorem State.setT_stsKey (s : State) (r : RegNum) (v : Timestamp) : (s.setT r v).stsKey = s.stsKey := rfl
@[simp] theorem State.setT_stsIv (s : State) (r : RegNum) (v : Timestamp) : (s.setT r v).stsIv = s.stsIv := rfl
@[simp] theorem State.setT_keySet (s : State) (r : RegNum) (v : Timestamp) : (s.setT r v).keySet = s.keySet := rfl
@[simp] theorem State.setT_ivSet (s : State) (r : RegNum) (v : Timestamp) : (s.setT r v).ivSet = s.ivSet := rfl
@[simp] theorem State.setT_resyncPending (s : State) (r : RegNum) (v : Timestamp) : (s.setT r v).resyncPending = s.resyncPending := rfl
@[simp] theorem State.setT_firstDone (s : State) (r : RegNum) (v : Timestamp) : (s.setT r v).firstDone = s.firstDone := rfl
@[simp] theorem State.setT_pollCtr (s : State) (r : RegNum) (v : Timestamp) : (s.setT r v).pollCtr = s.pollCtr := rfl
@[simp] theorem State.setT_stsScore (s : State) (r : RegNum) (v : Timestamp) : (s.setT r v).stsScore = s.stsScore := rfl
@[simp] theorem State.setT_k (s : State) (r : RegNum) (v : Timestamp) : (s.setT r v).k = s.k := rfl
@[simp] theorem State.setT_tof (s : State) (r : RegNum) (v : Timestamp) : (s.setT r v).tof = s.tof := rfl
@[simp] theorem State.setT_tofValid (s : State) (r : RegNum) (v : Timestamp) : (s.setT r v).tofValid = s.tofValid := rfl
@[simp] theorem State.setT_state (s : State) (r : RegNum) (v : Timestamp) : (s.setT r v).state = s.state := rfl
@[simp] theorem State.setT_outcome (s : State) (r : RegNum) (v : Timestamp) : (s.setT r v).outcome = s.outcome := rfl
@[simp] theorem State.setT_seq (s : State) (r : RegNum) (v : Timestamp) : (s.setT r v).seq = s.seq := rfl
@[simp] theorem State.setT_session (s : State) (r : RegNum) (v : Timestamp) : (s.setT r v).session = s.session := rfl
@[simp] theorem State.setT_cnt (s : State) (r : RegNum) (v : Timestamp) : (s.setT r v).cnt = s.cnt := rfl
@[simp] theorem State.setT_cfg (s : State) (r : RegNum) (v : Timestamp) : (s.setT r v).cfg = s.cfg := rfl
@[simp] theorem State.setT_aes (s : State) (r : RegNum) (v : Timestamp) : (s.setT r v).aes = s.aes := rfl
@[simp] theorem State.setT_hasAes (s : State) (r : RegNum) (v : Timestamp) : (s.setT r v).hasAes = s.hasAes := rfl
@[simp] theorem State.setT_inputs (s : State) (r : RegNum) (v : Timestamp) : (s.setT r v).inputs = s.inputs := rfl
@[simp] theorem State.setT_opnd (s : State) (r : RegNum) (v : Timestamp) : (s.setT r v).opnd = s.opnd := rfl
@[simp] theorem State.setT_ans (s : State) (r : RegNum) (v : Timestamp) : (s.setT r v).ans = s.ans := rfl
@[simp] theorem State.setT_calls (s : State) (r : RegNum) (v : Timestamp) : (s.setT r v).calls = s.calls := rfl
@[simp] theorem State.setT_responses (s : State) (r : RegNum) (v : Timestamp) : (s.setT r v).responses = s.responses := rfl
@[simp] theorem State.setT_draws (s : State) (r : RegNum) (v : Timestamp) : (s.setT r v).draws = s.draws := rfl

/-! ## clearTags -/

@[simp] theorem State.clearTags_ts (s : State) : s.clearTags.ts = freshTimestamps s.draws s.ts := rfl
@[simp] theorem State.clearTags_tsw (s : State) : s.clearTags.tsw = #v[false, false, false, false, false, false, s.tsw[6], s.tsw[7]] := rfl
@[simp] theorem State.clearTags_fb (s : State) : s.clearTags.fb = s.fb := rfl
@[simp] theorem State.clearTags_fbLen (s : State) : s.clearTags.fbLen = s.fbLen := rfl
@[simp] theorem State.clearTags_stsKey (s : State) : s.clearTags.stsKey = s.stsKey := rfl
@[simp] theorem State.clearTags_stsIv (s : State) : s.clearTags.stsIv = s.stsIv := rfl
@[simp] theorem State.clearTags_keySet (s : State) : s.clearTags.keySet = s.keySet := rfl
@[simp] theorem State.clearTags_ivSet (s : State) : s.clearTags.ivSet = s.ivSet := rfl
@[simp] theorem State.clearTags_resyncPending (s : State) : s.clearTags.resyncPending = s.resyncPending := rfl
@[simp] theorem State.clearTags_firstDone (s : State) : s.clearTags.firstDone = s.firstDone := rfl
@[simp] theorem State.clearTags_pollCtr (s : State) : s.clearTags.pollCtr = s.pollCtr := rfl
@[simp] theorem State.clearTags_stsScore (s : State) : s.clearTags.stsScore = s.stsScore := rfl
@[simp] theorem State.clearTags_k (s : State) : s.clearTags.k = s.k := rfl
@[simp] theorem State.clearTags_tof (s : State) : s.clearTags.tof = s.tof := rfl
@[simp] theorem State.clearTags_tofValid (s : State) : s.clearTags.tofValid = s.tofValid := rfl
@[simp] theorem State.clearTags_state (s : State) : s.clearTags.state = s.state := rfl
@[simp] theorem State.clearTags_outcome (s : State) : s.clearTags.outcome = s.outcome := rfl
@[simp] theorem State.clearTags_seq (s : State) : s.clearTags.seq = s.seq := rfl
@[simp] theorem State.clearTags_session (s : State) : s.clearTags.session = s.session := rfl
@[simp] theorem State.clearTags_cnt (s : State) : s.clearTags.cnt = s.cnt := rfl
@[simp] theorem State.clearTags_cfg (s : State) : s.clearTags.cfg = s.cfg := rfl
@[simp] theorem State.clearTags_aes (s : State) : s.clearTags.aes = s.aes := rfl
@[simp] theorem State.clearTags_hasAes (s : State) : s.clearTags.hasAes = s.hasAes := rfl
@[simp] theorem State.clearTags_inputs (s : State) : s.clearTags.inputs = s.inputs := rfl
@[simp] theorem State.clearTags_opnd (s : State) : s.clearTags.opnd = s.opnd := rfl
@[simp] theorem State.clearTags_ans (s : State) : s.clearTags.ans = s.ans := rfl
@[simp] theorem State.clearTags_calls (s : State) : s.clearTags.calls = s.calls := rfl
@[simp] theorem State.clearTags_responses (s : State) : s.clearTags.responses = s.responses := rfl
@[simp] theorem State.clearTags_draws (s : State) : s.clearTags.draws = s.draws + 6 := rfl

/-! ## call -/

@[simp] theorem State.call_ts (s : State) (c : HalCall) : (s.call c).ts = s.ts := rfl
@[simp] theorem State.call_tsw (s : State) (c : HalCall) : (s.call c).tsw = s.tsw := rfl
@[simp] theorem State.call_fb (s : State) (c : HalCall) : (s.call c).fb = s.fb := rfl
@[simp] theorem State.call_fbLen (s : State) (c : HalCall) : (s.call c).fbLen = s.fbLen := rfl
@[simp] theorem State.call_stsKey (s : State) (c : HalCall) : (s.call c).stsKey = s.stsKey := rfl
@[simp] theorem State.call_stsIv (s : State) (c : HalCall) : (s.call c).stsIv = s.stsIv := rfl
@[simp] theorem State.call_keySet (s : State) (c : HalCall) : (s.call c).keySet = s.keySet := rfl
@[simp] theorem State.call_ivSet (s : State) (c : HalCall) : (s.call c).ivSet = s.ivSet := rfl
@[simp] theorem State.call_resyncPending (s : State) (c : HalCall) : (s.call c).resyncPending = s.resyncPending := rfl
@[simp] theorem State.call_firstDone (s : State) (c : HalCall) : (s.call c).firstDone = s.firstDone := rfl
@[simp] theorem State.call_pollCtr (s : State) (c : HalCall) : (s.call c).pollCtr = s.pollCtr := rfl
@[simp] theorem State.call_stsScore (s : State) (c : HalCall) : (s.call c).stsScore = s.stsScore := rfl
@[simp] theorem State.call_k (s : State) (c : HalCall) : (s.call c).k = s.k := rfl
@[simp] theorem State.call_tof (s : State) (c : HalCall) : (s.call c).tof = s.tof := rfl
@[simp] theorem State.call_tofValid (s : State) (c : HalCall) : (s.call c).tofValid = s.tofValid := rfl
@[simp] theorem State.call_state (s : State) (c : HalCall) : (s.call c).state = s.state := rfl
@[simp] theorem State.call_outcome (s : State) (c : HalCall) : (s.call c).outcome = s.outcome := rfl
@[simp] theorem State.call_seq (s : State) (c : HalCall) : (s.call c).seq = s.seq := rfl
@[simp] theorem State.call_session (s : State) (c : HalCall) : (s.call c).session = s.session := rfl
@[simp] theorem State.call_cnt (s : State) (c : HalCall) : (s.call c).cnt = s.cnt := rfl
@[simp] theorem State.call_cfg (s : State) (c : HalCall) : (s.call c).cfg = s.cfg := rfl
@[simp] theorem State.call_aes (s : State) (c : HalCall) : (s.call c).aes = s.aes := rfl
@[simp] theorem State.call_hasAes (s : State) (c : HalCall) : (s.call c).hasAes = s.hasAes := rfl
@[simp] theorem State.call_inputs (s : State) (c : HalCall) : (s.call c).inputs = s.inputs := rfl
@[simp] theorem State.call_opnd (s : State) (c : HalCall) : (s.call c).opnd = s.opnd := rfl
@[simp] theorem State.call_ans (s : State) (c : HalCall) : (s.call c).ans = s.ans := rfl
@[simp] theorem State.call_calls (s : State) (c : HalCall) : (s.call c).calls = s.calls ++ [c] := rfl
@[simp] theorem State.call_responses (s : State) (c : HalCall) : (s.call c).responses = s.responses := rfl
@[simp] theorem State.call_draws (s : State) (c : HalCall) : (s.call c).draws = s.draws := rfl

/-! ## respond -/

@[simp] theorem State.respond_ts (s : State) (st : Status) (d : Datum) : (s.respond st d).ts = s.ts := rfl
@[simp] theorem State.respond_tsw (s : State) (st : Status) (d : Datum) : (s.respond st d).tsw = s.tsw := rfl
@[simp] theorem State.respond_fb (s : State) (st : Status) (d : Datum) : (s.respond st d).fb = s.fb := rfl
@[simp] theorem State.respond_fbLen (s : State) (st : Status) (d : Datum) : (s.respond st d).fbLen = s.fbLen := rfl
@[simp] theorem State.respond_stsKey (s : State) (st : Status) (d : Datum) : (s.respond st d).stsKey = s.stsKey := rfl
@[simp] theorem State.respond_stsIv (s : State) (st : Status) (d : Datum) : (s.respond st d).stsIv = s.stsIv := rfl
@[simp] theorem State.respond_keySet (s : State) (st : Status) (d : Datum) : (s.respond st d).keySet = s.keySet := rfl
@[simp] theorem State.respond_ivSet (s : State) (st : Status) (d : Datum) : (s.respond st d).ivSet = s.ivSet := rfl
@[simp] theorem State.respond_resyncPending (s : State) (st : Status) (d : Datum) : (s.respond st d).resyncPending = s.resyncPending := rfl
@[simp] theorem State.respond_firstDone (s : State) (st : Status) (d : Datum) : (s.respond st d).firstDone = s.firstDone := rfl
@[simp] theorem State.respond_pollCtr (s : State) (st : Status) (d : Datum) : (s.respond st d).pollCtr = s.pollCtr := rfl
@[simp] theorem State.respond_stsScore (s : State) (st : Status) (d : Datum) : (s.respond st d).stsScore = s.stsScore := rfl
@[simp] theorem State.respond_k (s : State) (st : Status) (d : Datum) : (s.respond st d).k = s.k := rfl
@[simp] theorem State.respond_tof (s : State) (st : Status) (d : Datum) : (s.respond st d).tof = s.tof := rfl
@[simp] theorem State.respond_tofValid (s : State) (st : Status) (d : Datum) : (s.respond st d).tofValid = s.tofValid := rfl
@[simp] theorem State.respond_state (s : State) (st : Status) (d : Datum) : (s.respond st d).state = s.state := rfl
@[simp] theorem State.respond_outcome (s : State) (st : Status) (d : Datum) : (s.respond st d).outcome = s.outcome := rfl
@[simp] theorem State.respond_seq (s : State) (st : Status) (d : Datum) : (s.respond st d).seq = s.seq := rfl
@[simp] theorem State.respond_session (s : State) (st : Status) (d : Datum) : (s.respond st d).session = s.session := rfl
@[simp] theorem State.respond_cnt (s : State) (st : Status) (d : Datum) : (s.respond st d).cnt = s.cnt := rfl
@[simp] theorem State.respond_cfg (s : State) (st : Status) (d : Datum) : (s.respond st d).cfg = s.cfg := rfl
@[simp] theorem State.respond_aes (s : State) (st : Status) (d : Datum) : (s.respond st d).aes = s.aes := rfl
@[simp] theorem State.respond_hasAes (s : State) (st : Status) (d : Datum) : (s.respond st d).hasAes = s.hasAes := rfl
@[simp] theorem State.respond_inputs (s : State) (st : Status) (d : Datum) : (s.respond st d).inputs = s.inputs := rfl
@[simp] theorem State.respond_opnd (s : State) (st : Status) (d : Datum) : (s.respond st d).opnd = s.opnd := rfl
@[simp] theorem State.respond_ans (s : State) (st : Status) (d : Datum) : (s.respond st d).ans = s.ans := rfl
@[simp] theorem State.respond_calls (s : State) (st : Status) (d : Datum) : (s.respond st d).calls = s.calls := rfl
@[simp] theorem State.respond_responses (s : State) (st : Status) (d : Datum) : (s.respond st d).responses = s.responses ++ [⟨st, d⟩] := rfl
@[simp] theorem State.respond_draws (s : State) (st : Status) (d : Datum) : (s.respond st d).draws = s.draws := rfl

/-! ## raise -/

@[simp] theorem State.raise_ts (s : State) (e : ErrorKind) : (s.raise e).ts = s.ts := rfl
@[simp] theorem State.raise_tsw (s : State) (e : ErrorKind) : (s.raise e).tsw = s.tsw := rfl
@[simp] theorem State.raise_fb (s : State) (e : ErrorKind) : (s.raise e).fb = s.fb := rfl
@[simp] theorem State.raise_fbLen (s : State) (e : ErrorKind) : (s.raise e).fbLen = s.fbLen := rfl
@[simp] theorem State.raise_stsKey (s : State) (e : ErrorKind) : (s.raise e).stsKey = s.stsKey := rfl
@[simp] theorem State.raise_stsIv (s : State) (e : ErrorKind) : (s.raise e).stsIv = s.stsIv := rfl
@[simp] theorem State.raise_keySet (s : State) (e : ErrorKind) : (s.raise e).keySet = s.keySet := rfl
@[simp] theorem State.raise_ivSet (s : State) (e : ErrorKind) : (s.raise e).ivSet = s.ivSet := rfl
@[simp] theorem State.raise_resyncPending (s : State) (e : ErrorKind) : (s.raise e).resyncPending = true := rfl
@[simp] theorem State.raise_firstDone (s : State) (e : ErrorKind) : (s.raise e).firstDone = s.firstDone := rfl
@[simp] theorem State.raise_pollCtr (s : State) (e : ErrorKind) : (s.raise e).pollCtr = s.pollCtr := rfl
@[simp] theorem State.raise_stsScore (s : State) (e : ErrorKind) : (s.raise e).stsScore = s.stsScore := rfl
@[simp] theorem State.raise_k (s : State) (e : ErrorKind) : (s.raise e).k = s.k := rfl
@[simp] theorem State.raise_tof (s : State) (e : ErrorKind) : (s.raise e).tof = s.tof := rfl
@[simp] theorem State.raise_tofValid (s : State) (e : ErrorKind) : (s.raise e).tofValid = s.tofValid := rfl
@[simp] theorem State.raise_state (s : State) (e : ErrorKind) : (s.raise e).state = e.terminal := rfl
@[simp] theorem State.raise_outcome (s : State) (e : ErrorKind) : (s.raise e).outcome = e.outcome := rfl
@[simp] theorem State.raise_seq (s : State) (e : ErrorKind) : (s.raise e).seq = s.seq := rfl
@[simp] theorem State.raise_session (s : State) (e : ErrorKind) : (s.raise e).session = s.session := rfl
@[simp] theorem State.raise_cnt (s : State) (e : ErrorKind) : (s.raise e).cnt = e.count s.cnt := rfl
@[simp] theorem State.raise_cfg (s : State) (e : ErrorKind) : (s.raise e).cfg = s.cfg := rfl
@[simp] theorem State.raise_aes (s : State) (e : ErrorKind) : (s.raise e).aes = s.aes := rfl
@[simp] theorem State.raise_hasAes (s : State) (e : ErrorKind) : (s.raise e).hasAes = s.hasAes := rfl
@[simp] theorem State.raise_inputs (s : State) (e : ErrorKind) : (s.raise e).inputs = s.inputs := rfl
@[simp] theorem State.raise_opnd (s : State) (e : ErrorKind) : (s.raise e).opnd = s.opnd := rfl
@[simp] theorem State.raise_ans (s : State) (e : ErrorKind) : (s.raise e).ans = s.ans := rfl
@[simp] theorem State.raise_calls (s : State) (e : ErrorKind) : (s.raise e).calls = s.calls := rfl
@[simp] theorem State.raise_responses (s : State) (e : ErrorKind) : (s.raise e).responses = s.responses := rfl
@[simp] theorem State.raise_draws (s : State) (e : ErrorKind) : (s.raise e).draws = s.draws := rfl

/-! ## conclude -/

@[simp] theorem State.conclude_ts (s : State) : s.conclude.ts = s.ts := rfl
@[simp] theorem State.conclude_tsw (s : State) : s.conclude.tsw = s.tsw := rfl
@[simp] theorem State.conclude_fb (s : State) : s.conclude.fb = s.fb := rfl
@[simp] theorem State.conclude_fbLen (s : State) : s.conclude.fbLen = s.fbLen := rfl
@[simp] theorem State.conclude_stsKey (s : State) : s.conclude.stsKey = s.stsKey := rfl
@[simp] theorem State.conclude_stsIv (s : State) : s.conclude.stsIv = s.stsIv := rfl
@[simp] theorem State.conclude_keySet (s : State) : s.conclude.keySet = s.keySet := rfl
@[simp] theorem State.conclude_ivSet (s : State) : s.conclude.ivSet = s.ivSet := rfl
@[simp] theorem State.conclude_resyncPending (s : State) : s.conclude.resyncPending = true := rfl
@[simp] theorem State.conclude_firstDone (s : State) : s.conclude.firstDone = s.firstDone := rfl
@[simp] theorem State.conclude_pollCtr (s : State) : s.conclude.pollCtr = s.pollCtr := rfl
@[simp] theorem State.conclude_stsScore (s : State) : s.conclude.stsScore = s.stsScore := rfl
@[simp] theorem State.conclude_k (s : State) : s.conclude.k = s.k := rfl
@[simp] theorem State.conclude_tof (s : State) : s.conclude.tof = s.tof := rfl
@[simp] theorem State.conclude_tofValid (s : State) : s.conclude.tofValid = s.tofValid := rfl
@[simp] theorem State.conclude_state (s : State) : s.conclude.state = .done := rfl
@[simp] theorem State.conclude_outcome (s : State) : s.conclude.outcome = .success := rfl
@[simp] theorem State.conclude_seq (s : State) : s.conclude.seq = s.seq := rfl
@[simp] theorem State.conclude_session (s : State) : s.conclude.session = s.session := rfl
@[simp] theorem State.conclude_cnt (s : State) : s.conclude.cnt = s.cnt := rfl
@[simp] theorem State.conclude_cfg (s : State) : s.conclude.cfg = s.cfg := rfl
@[simp] theorem State.conclude_aes (s : State) : s.conclude.aes = s.aes := rfl
@[simp] theorem State.conclude_hasAes (s : State) : s.conclude.hasAes = s.hasAes := rfl
@[simp] theorem State.conclude_inputs (s : State) : s.conclude.inputs = s.inputs := rfl
@[simp] theorem State.conclude_opnd (s : State) : s.conclude.opnd = s.opnd := rfl
@[simp] theorem State.conclude_ans (s : State) : s.conclude.ans = s.ans := rfl
@[simp] theorem State.conclude_calls (s : State) : s.conclude.calls = s.calls := rfl
@[simp] theorem State.conclude_responses (s : State) : s.conclude.responses = s.responses := rfl
@[simp] theorem State.conclude_draws (s : State) : s.conclude.draws = s.draws := rfl

/-! ## clear -/

@[simp] theorem State.clear_ts (s : State) : s.clear.ts = s.ts := rfl
@[simp] theorem State.clear_tsw (s : State) : s.clear.tsw = s.tsw := rfl
@[simp] theorem State.clear_fb (s : State) : s.clear.fb = s.fb := rfl
@[simp] theorem State.clear_fbLen (s : State) : s.clear.fbLen = s.fbLen := rfl
@[simp] theorem State.clear_stsKey (s : State) : s.clear.stsKey = s.stsKey := rfl
@[simp] theorem State.clear_stsIv (s : State) : s.clear.stsIv = s.stsIv := rfl
@[simp] theorem State.clear_keySet (s : State) : s.clear.keySet = s.keySet := rfl
@[simp] theorem State.clear_ivSet (s : State) : s.clear.ivSet = s.ivSet := rfl
@[simp] theorem State.clear_resyncPending (s : State) : s.clear.resyncPending = s.resyncPending := rfl
@[simp] theorem State.clear_firstDone (s : State) : s.clear.firstDone = s.firstDone := rfl
@[simp] theorem State.clear_pollCtr (s : State) : s.clear.pollCtr = s.pollCtr := rfl
@[simp] theorem State.clear_stsScore (s : State) : s.clear.stsScore = s.stsScore := rfl
@[simp] theorem State.clear_k (s : State) : s.clear.k = s.k := rfl
@[simp] theorem State.clear_tof (s : State) : s.clear.tof = s.tof := rfl
@[simp] theorem State.clear_tofValid (s : State) : s.clear.tofValid = s.tofValid := rfl
@[simp] theorem State.clear_state (s : State) : s.clear.state = .idle := rfl
@[simp] theorem State.clear_outcome (s : State) : s.clear.outcome = .none := rfl
@[simp] theorem State.clear_seq (s : State) : s.clear.seq = s.seq := rfl
@[simp] theorem State.clear_session (s : State) : s.clear.session = s.session := rfl
@[simp] theorem State.clear_cnt (s : State) : s.clear.cnt = s.cnt := rfl
@[simp] theorem State.clear_cfg (s : State) : s.clear.cfg = s.cfg := rfl
@[simp] theorem State.clear_aes (s : State) : s.clear.aes = s.aes := rfl
@[simp] theorem State.clear_hasAes (s : State) : s.clear.hasAes = s.hasAes := rfl
@[simp] theorem State.clear_inputs (s : State) : s.clear.inputs = s.inputs := rfl
@[simp] theorem State.clear_opnd (s : State) : s.clear.opnd = s.opnd := rfl
@[simp] theorem State.clear_ans (s : State) : s.clear.ans = s.ans := rfl
@[simp] theorem State.clear_calls (s : State) : s.clear.calls = s.calls := rfl
@[simp] theorem State.clear_responses (s : State) : s.clear.responses = s.responses := rfl
@[simp] theorem State.clear_draws (s : State) : s.clear.draws = s.draws := rfl

/-! ## setStsCtr -/

@[simp] theorem State.setStsCtr_ts (s : State) (c : BitVec 32) : (s.setStsCtr c).ts = s.ts := rfl
@[simp] theorem State.setStsCtr_tsw (s : State) (c : BitVec 32) : (s.setStsCtr c).tsw = s.tsw := rfl
@[simp] theorem State.setStsCtr_fb (s : State) (c : BitVec 32) : (s.setStsCtr c).fb = s.fb := rfl
@[simp] theorem State.setStsCtr_fbLen (s : State) (c : BitVec 32) : (s.setStsCtr c).fbLen = s.fbLen := rfl
@[simp] theorem State.setStsCtr_stsKey (s : State) (c : BitVec 32) : (s.setStsCtr c).stsKey = s.stsKey := rfl
@[simp] theorem State.setStsCtr_stsIv (s : State) (c : BitVec 32) : (s.setStsCtr c).stsIv = s.stsIv.extractLsb' 32 96 ++ c := rfl
@[simp] theorem State.setStsCtr_keySet (s : State) (c : BitVec 32) : (s.setStsCtr c).keySet = s.keySet := rfl
@[simp] theorem State.setStsCtr_ivSet (s : State) (c : BitVec 32) : (s.setStsCtr c).ivSet = s.ivSet := rfl
@[simp] theorem State.setStsCtr_resyncPending (s : State) (c : BitVec 32) : (s.setStsCtr c).resyncPending = s.resyncPending := rfl
@[simp] theorem State.setStsCtr_firstDone (s : State) (c : BitVec 32) : (s.setStsCtr c).firstDone = s.firstDone := rfl
@[simp] theorem State.setStsCtr_pollCtr (s : State) (c : BitVec 32) : (s.setStsCtr c).pollCtr = s.pollCtr := rfl
@[simp] theorem State.setStsCtr_stsScore (s : State) (c : BitVec 32) : (s.setStsCtr c).stsScore = s.stsScore := rfl
@[simp] theorem State.setStsCtr_k (s : State) (c : BitVec 32) : (s.setStsCtr c).k = s.k := rfl
@[simp] theorem State.setStsCtr_tof (s : State) (c : BitVec 32) : (s.setStsCtr c).tof = s.tof := rfl
@[simp] theorem State.setStsCtr_tofValid (s : State) (c : BitVec 32) : (s.setStsCtr c).tofValid = s.tofValid := rfl
@[simp] theorem State.setStsCtr_state (s : State) (c : BitVec 32) : (s.setStsCtr c).state = s.state := rfl
@[simp] theorem State.setStsCtr_outcome (s : State) (c : BitVec 32) : (s.setStsCtr c).outcome = s.outcome := rfl
@[simp] theorem State.setStsCtr_seq (s : State) (c : BitVec 32) : (s.setStsCtr c).seq = s.seq := rfl
@[simp] theorem State.setStsCtr_session (s : State) (c : BitVec 32) : (s.setStsCtr c).session = s.session := rfl
@[simp] theorem State.setStsCtr_cnt (s : State) (c : BitVec 32) : (s.setStsCtr c).cnt = s.cnt := rfl
@[simp] theorem State.setStsCtr_cfg (s : State) (c : BitVec 32) : (s.setStsCtr c).cfg = s.cfg := rfl
@[simp] theorem State.setStsCtr_aes (s : State) (c : BitVec 32) : (s.setStsCtr c).aes = s.aes := rfl
@[simp] theorem State.setStsCtr_hasAes (s : State) (c : BitVec 32) : (s.setStsCtr c).hasAes = s.hasAes := rfl
@[simp] theorem State.setStsCtr_inputs (s : State) (c : BitVec 32) : (s.setStsCtr c).inputs = s.inputs := rfl
@[simp] theorem State.setStsCtr_opnd (s : State) (c : BitVec 32) : (s.setStsCtr c).opnd = s.opnd := rfl
@[simp] theorem State.setStsCtr_ans (s : State) (c : BitVec 32) : (s.setStsCtr c).ans = s.ans := rfl
@[simp] theorem State.setStsCtr_calls (s : State) (c : BitVec 32) : (s.setStsCtr c).calls = s.calls := rfl
@[simp] theorem State.setStsCtr_responses (s : State) (c : BitVec 32) : (s.setStsCtr c).responses = s.responses := rfl
@[simp] theorem State.setStsCtr_draws (s : State) (c : BitVec 32) : (s.setStsCtr c).draws = s.draws := rfl

/-! ## setTof -/

@[simp] theorem State.setTof_ts (s : State) (q : ℚ) : (s.setTof q).ts = s.ts := rfl
@[simp] theorem State.setTof_tsw (s : State) (q : ℚ) : (s.setTof q).tsw = s.tsw := rfl
@[simp] theorem State.setTof_fb (s : State) (q : ℚ) : (s.setTof q).fb = s.fb := rfl
@[simp] theorem State.setTof_fbLen (s : State) (q : ℚ) : (s.setTof q).fbLen = s.fbLen := rfl
@[simp] theorem State.setTof_stsKey (s : State) (q : ℚ) : (s.setTof q).stsKey = s.stsKey := rfl
@[simp] theorem State.setTof_stsIv (s : State) (q : ℚ) : (s.setTof q).stsIv = s.stsIv := rfl
@[simp] theorem State.setTof_keySet (s : State) (q : ℚ) : (s.setTof q).keySet = s.keySet := rfl
@[simp] theorem State.setTof_ivSet (s : State) (q : ℚ) : (s.setTof q).ivSet = s.ivSet := rfl
@[simp] theorem State.setTof_resyncPending (s : State) (q : ℚ) : (s.setTof q).resyncPending = s.resyncPending := rfl
@[simp] theorem State.setTof_firstDone (s : State) (q : ℚ) : (s.setTof q).firstDone = s.firstDone := rfl
@[simp] theorem State.setTof_pollCtr (s : State) (q : ℚ) : (s.setTof q).pollCtr = s.pollCtr := rfl
@[simp] theorem State.setTof_stsScore (s : State) (q : ℚ) : (s.setTof q).stsScore = s.stsScore := rfl
@[simp] theorem State.setTof_k (s : State) (q : ℚ) : (s.setTof q).k = s.k := rfl
@[simp] theorem State.setTof_tof (s : State) (q : ℚ) : (s.setTof q).tof = q := rfl
@[simp] theorem State.setTof_tofValid (s : State) (q : ℚ) : (s.setTof q).tofValid = true := rfl
@[simp] theorem State.setTof_state (s : State) (q : ℚ) : (s.setTof q).state = s.state := rfl
@[simp] theorem State.setTof_outcome (s : State) (q : ℚ) : (s.setTof q).outcome = s.outcome := rfl
@[simp] theorem State.setTof_seq (s : State) (q : ℚ) : (s.setTof q).seq = s.seq := rfl
@[simp] theorem State.setTof_session (s : State) (q : ℚ) : (s.setTof q).session = s.session := rfl
@[simp] theorem State.setTof_cnt (s : State) (q : ℚ) : (s.setTof q).cnt = s.cnt := rfl
@[simp] theorem State.setTof_cfg (s : State) (q : ℚ) : (s.setTof q).cfg = s.cfg := rfl
@[simp] theorem State.setTof_aes (s : State) (q : ℚ) : (s.setTof q).aes = s.aes := rfl
@[simp] theorem State.setTof_hasAes (s : State) (q : ℚ) : (s.setTof q).hasAes = s.hasAes := rfl
@[simp] theorem State.setTof_inputs (s : State) (q : ℚ) : (s.setTof q).inputs = s.inputs := rfl
@[simp] theorem State.setTof_opnd (s : State) (q : ℚ) : (s.setTof q).opnd = s.opnd := rfl
@[simp] theorem State.setTof_ans (s : State) (q : ℚ) : (s.setTof q).ans = s.ans := rfl
@[simp] theorem State.setTof_calls (s : State) (q : ℚ) : (s.setTof q).calls = s.calls := rfl
@[simp] theorem State.setTof_responses (s : State) (q : ℚ) : (s.setTof q).responses = s.responses := rfl
@[simp] theorem State.setTof_draws (s : State) (q : ℚ) : (s.setTof q).draws = s.draws := rfl

/-! ## drawScore -/

@[simp] theorem State.drawScore_ts (s : State) : s.drawScore.ts = s.ts := rfl
@[simp] theorem State.drawScore_tsw (s : State) : s.drawScore.tsw = s.tsw := rfl
@[simp] theorem State.drawScore_fb (s : State) : s.drawScore.fb = s.fb := rfl
@[simp] theorem State.drawScore_fbLen (s : State) : s.drawScore.fbLen = s.fbLen := rfl
@[simp] theorem State.drawScore_stsKey (s : State) : s.drawScore.stsKey = s.stsKey := rfl
@[simp] theorem State.drawScore_stsIv (s : State) : s.drawScore.stsIv = s.stsIv := rfl
@[simp] theorem State.drawScore_keySet (s : State) : s.drawScore.keySet = s.keySet := rfl
@[simp] theorem State.drawScore_ivSet (s : State) : s.drawScore.ivSet = s.ivSet := rfl
@[simp] theorem State.drawScore_resyncPending (s : State) : s.drawScore.resyncPending = s.resyncPending := rfl
@[simp] theorem State.drawScore_firstDone (s : State) : s.drawScore.firstDone = s.firstDone := rfl
@[simp] theorem State.drawScore_pollCtr (s : State) : s.drawScore.pollCtr = s.pollCtr := rfl
@[simp] theorem State.drawScore_stsScore (s : State) : s.drawScore.stsScore = s.ans.score := rfl
@[simp] theorem State.drawScore_k (s : State) : s.drawScore.k = s.k := rfl
@[simp] theorem State.drawScore_tof (s : State) : s.drawScore.tof = s.tof := rfl
@[simp] theorem State.drawScore_tofValid (s : State) : s.drawScore.tofValid = s.tofValid := rfl
@[simp] theorem State.drawScore_state (s : State) : s.drawScore.state = s.state := rfl
@[simp] theorem State.drawScore_outcome (s : State) : s.drawScore.outcome = s.outcome := rfl
@[simp] theorem State.drawScore_seq (s : State) : s.drawScore.seq = s.seq := rfl
@[simp] theorem State.drawScore_session (s : State) : s.drawScore.session = s.session := rfl
@[simp] theorem State.drawScore_cnt (s : State) : s.drawScore.cnt = s.cnt := rfl
@[simp] theorem State.drawScore_cfg (s : State) : s.drawScore.cfg = s.cfg := rfl
@[simp] theorem State.drawScore_aes (s : State) : s.drawScore.aes = s.aes := rfl
@[simp] theorem State.drawScore_hasAes (s : State) : s.drawScore.hasAes = s.hasAes := rfl
@[simp] theorem State.drawScore_inputs (s : State) : s.drawScore.inputs = s.inputs := rfl
@[simp] theorem State.drawScore_opnd (s : State) : s.drawScore.opnd = s.opnd := rfl
@[simp] theorem State.drawScore_ans (s : State) : s.drawScore.ans = s.ans := rfl
@[simp] theorem State.drawScore_calls (s : State) : s.drawScore.calls = s.calls ++ [.readStsQuality] := rfl
@[simp] theorem State.drawScore_responses (s : State) : s.drawScore.responses = s.responses := rfl
@[simp] theorem State.drawScore_draws (s : State) : s.drawScore.draws = s.draws := rfl

/-! ## loadFrame -/

@[simp] theorem State.loadFrame_ts (s : State) : s.loadFrame.ts = s.ts := rfl
@[simp] theorem State.loadFrame_tsw (s : State) : s.loadFrame.tsw = s.tsw := rfl
@[simp] theorem State.loadFrame_fb (s : State) : s.loadFrame.fb = Memory.writeBytes s.fb 0 s.ans.frameBytes := rfl
@[simp] theorem State.loadFrame_fbLen (s : State) : s.loadFrame.fbLen = BitVec.ofNat 8 s.ans.frameLen := rfl
@[simp] theorem State.loadFrame_stsKey (s : State) : s.loadFrame.stsKey = s.stsKey := rfl
@[simp] theorem State.loadFrame_stsIv (s : State) : s.loadFrame.stsIv = s.stsIv := rfl
@[simp] theorem State.loadFrame_keySet (s : State) : s.loadFrame.keySet = s.keySet := rfl
@[simp] theorem State.loadFrame_ivSet (s : State) : s.loadFrame.ivSet = s.ivSet := rfl
@[simp] theorem State.loadFrame_resyncPending (s : State) : s.loadFrame.resyncPending = s.resyncPending := rfl
@[simp] theorem State.loadFrame_firstDone (s : State) : s.loadFrame.firstDone = s.firstDone := rfl
@[simp] theorem State.loadFrame_pollCtr (s : State) : s.loadFrame.pollCtr = s.pollCtr := rfl
@[simp] theorem State.loadFrame_stsScore (s : State) : s.loadFrame.stsScore = s.stsScore := rfl
@[simp] theorem State.loadFrame_k (s : State) : s.loadFrame.k = s.k := rfl
@[simp] theorem State.loadFrame_tof (s : State) : s.loadFrame.tof = s.tof := rfl
@[simp] theorem State.loadFrame_tofValid (s : State) : s.loadFrame.tofValid = s.tofValid := rfl
@[simp] theorem State.loadFrame_state (s : State) : s.loadFrame.state = s.state := rfl
@[simp] theorem State.loadFrame_outcome (s : State) : s.loadFrame.outcome = s.outcome := rfl
@[simp] theorem State.loadFrame_seq (s : State) : s.loadFrame.seq = s.seq := rfl
@[simp] theorem State.loadFrame_session (s : State) : s.loadFrame.session = s.session := rfl
@[simp] theorem State.loadFrame_cnt (s : State) : s.loadFrame.cnt = s.cnt := rfl
@[simp] theorem State.loadFrame_cfg (s : State) : s.loadFrame.cfg = s.cfg := rfl
@[simp] theorem State.loadFrame_aes (s : State) : s.loadFrame.aes = s.aes := rfl
@[simp] theorem State.loadFrame_hasAes (s : State) : s.loadFrame.hasAes = s.hasAes := rfl
@[simp] theorem State.loadFrame_inputs (s : State) : s.loadFrame.inputs = s.inputs := rfl
@[simp] theorem State.loadFrame_opnd (s : State) : s.loadFrame.opnd = s.opnd := rfl
@[simp] theorem State.loadFrame_ans (s : State) : s.loadFrame.ans = s.ans := rfl
@[simp] theorem State.loadFrame_calls (s : State) : s.loadFrame.calls = s.calls := rfl
@[simp] theorem State.loadFrame_responses (s : State) : s.loadFrame.responses = s.responses := rfl
@[simp] theorem State.loadFrame_draws (s : State) : s.loadFrame.draws = s.draws := rfl

/-! ## clearSeqByte -/

@[simp] theorem State.clearSeqByte_ts (s : State) : s.clearSeqByte.ts = s.ts := rfl
@[simp] theorem State.clearSeqByte_tsw (s : State) : s.clearSeqByte.tsw = s.tsw := rfl
@[simp] theorem State.clearSeqByte_fb (s : State) : s.clearSeqByte.fb = Memory.write s.fb Config.seqIdx 0 := rfl
@[simp] theorem State.clearSeqByte_fbLen (s : State) : s.clearSeqByte.fbLen = s.fbLen := rfl
@[simp] theorem State.clearSeqByte_stsKey (s : State) : s.clearSeqByte.stsKey = s.stsKey := rfl
@[simp] theorem State.clearSeqByte_stsIv (s : State) : s.clearSeqByte.stsIv = s.stsIv := rfl
@[simp] theorem State.clearSeqByte_keySet (s : State) : s.clearSeqByte.keySet = s.keySet := rfl
@[simp] theorem State.clearSeqByte_ivSet (s : State) : s.clearSeqByte.ivSet = s.ivSet := rfl
@[simp] theorem State.clearSeqByte_resyncPending (s : State) : s.clearSeqByte.resyncPending = s.resyncPending := rfl
@[simp] theorem State.clearSeqByte_firstDone (s : State) : s.clearSeqByte.firstDone = s.firstDone := rfl
@[simp] theorem State.clearSeqByte_pollCtr (s : State) : s.clearSeqByte.pollCtr = s.pollCtr := rfl
@[simp] theorem State.clearSeqByte_stsScore (s : State) : s.clearSeqByte.stsScore = s.stsScore := rfl
@[simp] theorem State.clearSeqByte_k (s : State) : s.clearSeqByte.k = s.k := rfl
@[simp] theorem State.clearSeqByte_tof (s : State) : s.clearSeqByte.tof = s.tof := rfl
@[simp] theorem State.clearSeqByte_tofValid (s : State) : s.clearSeqByte.tofValid = s.tofValid := rfl
@[simp] theorem State.clearSeqByte_state (s : State) : s.clearSeqByte.state = s.state := rfl
@[simp] theorem State.clearSeqByte_outcome (s : State) : s.clearSeqByte.outcome = s.outcome := rfl
@[simp] theorem State.clearSeqByte_seq (s : State) : s.clearSeqByte.seq = s.seq := rfl
@[simp] theorem State.clearSeqByte_session (s : State) : s.clearSeqByte.session = s.session := rfl
@[simp] theorem State.clearSeqByte_cnt (s : State) : s.clearSeqByte.cnt = s.cnt := rfl
@[simp] theorem State.clearSeqByte_cfg (s : State) : s.clearSeqByte.cfg = s.cfg := rfl
@[simp] theorem State.clearSeqByte_aes (s : State) : s.clearSeqByte.aes = s.aes := rfl
@[simp] theorem State.clearSeqByte_hasAes (s : State) : s.clearSeqByte.hasAes = s.hasAes := rfl
@[simp] theorem State.clearSeqByte_inputs (s : State) : s.clearSeqByte.inputs = s.inputs := rfl
@[simp] theorem State.clearSeqByte_opnd (s : State) : s.clearSeqByte.opnd = s.opnd := rfl
@[simp] theorem State.clearSeqByte_ans (s : State) : s.clearSeqByte.ans = s.ans := rfl
@[simp] theorem State.clearSeqByte_calls (s : State) : s.clearSeqByte.calls = s.calls := rfl
@[simp] theorem State.clearSeqByte_responses (s : State) : s.clearSeqByte.responses = s.responses := rfl
@[simp] theorem State.clearSeqByte_draws (s : State) : s.clearSeqByte.draws = s.draws := rfl

/-! ## encodeFrame -/

@[simp] theorem State.encodeFrame_ts (s : State) (k : FrameKind) : (s.encodeFrame k).ts = s.ts := rfl
@[simp] theorem State.encodeFrame_tsw (s : State) (k : FrameKind) : (s.encodeFrame k).tsw = s.tsw := rfl
@[simp] theorem State.encodeFrame_fb (s : State) (k : FrameKind) : (s.encodeFrame k).fb = s.embedFields (s.fields k) (Memory.writeBytes s.fb 0 (s.blankFrame k)) := rfl
@[simp] theorem State.encodeFrame_fbLen (s : State) (k : FrameKind) : (s.encodeFrame k).fbLen = s.frameLenOf k := rfl
@[simp] theorem State.encodeFrame_stsKey (s : State) (k : FrameKind) : (s.encodeFrame k).stsKey = s.stsKey := rfl
@[simp] theorem State.encodeFrame_stsIv (s : State) (k : FrameKind) : (s.encodeFrame k).stsIv = s.stsIv := rfl
@[simp] theorem State.encodeFrame_keySet (s : State) (k : FrameKind) : (s.encodeFrame k).keySet = s.keySet := rfl
@[simp] theorem State.encodeFrame_ivSet (s : State) (k : FrameKind) : (s.encodeFrame k).ivSet = s.ivSet := rfl
@[simp] theorem State.encodeFrame_resyncPending (s : State) (k : FrameKind) : (s.encodeFrame k).resyncPending = s.resyncPending := rfl
@[simp] theorem State.encodeFrame_firstDone (s : State) (k : FrameKind) : (s.encodeFrame k).firstDone = s.firstDone := rfl
@[simp] theorem State.encodeFrame_pollCtr (s : State) (k : FrameKind) : (s.encodeFrame k).pollCtr = s.pollCtr := rfl
@[simp] theorem State.encodeFrame_stsScore (s : State) (k : FrameKind) : (s.encodeFrame k).stsScore = s.stsScore := rfl
@[simp] theorem State.encodeFrame_k (s : State) (k : FrameKind) : (s.encodeFrame k).k = s.k := rfl
@[simp] theorem State.encodeFrame_tof (s : State) (k : FrameKind) : (s.encodeFrame k).tof = s.tof := rfl
@[simp] theorem State.encodeFrame_tofValid (s : State) (k : FrameKind) : (s.encodeFrame k).tofValid = s.tofValid := rfl
@[simp] theorem State.encodeFrame_state (s : State) (k : FrameKind) : (s.encodeFrame k).state = s.state := rfl
@[simp] theorem State.encodeFrame_outcome (s : State) (k : FrameKind) : (s.encodeFrame k).outcome = s.outcome := rfl
@[simp] theorem State.encodeFrame_seq (s : State) (k : FrameKind) : (s.encodeFrame k).seq = s.seq := rfl
@[simp] theorem State.encodeFrame_session (s : State) (k : FrameKind) : (s.encodeFrame k).session = s.session := rfl
@[simp] theorem State.encodeFrame_cnt (s : State) (k : FrameKind) : (s.encodeFrame k).cnt = s.cnt := rfl
@[simp] theorem State.encodeFrame_cfg (s : State) (k : FrameKind) : (s.encodeFrame k).cfg = s.cfg := rfl
@[simp] theorem State.encodeFrame_aes (s : State) (k : FrameKind) : (s.encodeFrame k).aes = s.aes := rfl
@[simp] theorem State.encodeFrame_hasAes (s : State) (k : FrameKind) : (s.encodeFrame k).hasAes = s.hasAes := rfl
@[simp] theorem State.encodeFrame_inputs (s : State) (k : FrameKind) : (s.encodeFrame k).inputs = s.inputs := rfl
@[simp] theorem State.encodeFrame_opnd (s : State) (k : FrameKind) : (s.encodeFrame k).opnd = s.opnd := rfl
@[simp] theorem State.encodeFrame_ans (s : State) (k : FrameKind) : (s.encodeFrame k).ans = s.ans := rfl
@[simp] theorem State.encodeFrame_calls (s : State) (k : FrameKind) : (s.encodeFrame k).calls = s.calls := rfl
@[simp] theorem State.encodeFrame_responses (s : State) (k : FrameKind) : (s.encodeFrame k).responses = s.responses := rfl
@[simp] theorem State.encodeFrame_draws (s : State) (k : FrameKind) : (s.encodeFrame k).draws = s.draws := rfl

/-! ## nextSeq -/

@[simp] theorem State.nextSeq_ts (s : State) : s.nextSeq.ts = s.ts := rfl
@[simp] theorem State.nextSeq_tsw (s : State) : s.nextSeq.tsw = s.tsw := rfl
@[simp] theorem State.nextSeq_fb (s : State) : s.nextSeq.fb = s.fb := rfl
@[simp] theorem State.nextSeq_fbLen (s : State) : s.nextSeq.fbLen = s.fbLen := rfl
@[simp] theorem State.nextSeq_stsKey (s : State) : s.nextSeq.stsKey = s.stsKey := rfl
@[simp] theorem State.nextSeq_stsIv (s : State) : s.nextSeq.stsIv = s.stsIv := rfl
@[simp] theorem State.nextSeq_keySet (s : State) : s.nextSeq.keySet = s.keySet := rfl
@[simp] theorem State.nextSeq_ivSet (s : State) : s.nextSeq.ivSet = s.ivSet := rfl
@[simp] theorem State.nextSeq_resyncPending (s : State) : s.nextSeq.resyncPending = s.resyncPending := rfl
@[simp] theorem State.nextSeq_firstDone (s : State) : s.nextSeq.firstDone = s.firstDone := rfl
@[simp] theorem State.nextSeq_pollCtr (s : State) : s.nextSeq.pollCtr = s.pollCtr := rfl
@[simp] theorem State.nextSeq_stsScore (s : State) : s.nextSeq.stsScore = s.stsScore := rfl
@[simp] theorem State.nextSeq_k (s : State) : s.nextSeq.k = s.k := rfl
@[simp] theorem State.nextSeq_tof (s : State) : s.nextSeq.tof = s.tof := rfl
@[simp] theorem State.nextSeq_tofValid (s : State) : s.nextSeq.tofValid = s.tofValid := rfl
@[simp] theorem State.nextSeq_state (s : State) : s.nextSeq.state = s.state := rfl
@[simp] theorem State.nextSeq_outcome (s : State) : s.nextSeq.outcome = s.outcome := rfl
@[simp] theorem State.nextSeq_seq (s : State) : s.nextSeq.seq = s.seq + 1 := rfl
@[simp] theorem State.nextSeq_session (s : State) : s.nextSeq.session = s.session := rfl
@[simp] theorem State.nextSeq_cnt (s : State) : s.nextSeq.cnt = s.cnt := rfl
@[simp] theorem State.nextSeq_cfg (s : State) : s.nextSeq.cfg = s.cfg := rfl
@[simp] theorem State.nextSeq_aes (s : State) : s.nextSeq.aes = s.aes := rfl
@[simp] theorem State.nextSeq_hasAes (s : State) : s.nextSeq.hasAes = s.hasAes := rfl
@[simp] theorem State.nextSeq_inputs (s : State) : s.nextSeq.inputs = s.inputs := rfl
@[simp] theorem State.nextSeq_opnd (s : State) : s.nextSeq.opnd = s.opnd := rfl
@[simp] theorem State.nextSeq_ans (s : State) : s.nextSeq.ans = s.ans := rfl
@[simp] theorem State.nextSeq_calls (s : State) : s.nextSeq.calls = s.calls := rfl
@[simp] theorem State.nextSeq_responses (s : State) : s.nextSeq.responses = s.responses := rfl
@[simp] theorem State.nextSeq_draws (s : State) : s.nextSeq.draws = s.draws := rfl

/-! ## stampRx -/

@[simp] theorem State.stampRx_ts (s : State) (r : RegNum) : (s.stampRx r).ts = s.ts.set r s.answerTime := rfl
@[simp] theorem State.stampRx_tsw (s : State) (r : RegNum) : (s.stampRx r).tsw = s.tsw.set r true := rfl
@[simp] theorem State.stampRx_fb (s : State) (r : RegNum) : (s.stampRx r).fb = s.fb := rfl
@[simp] theorem State.stampRx_fbLen (s : State) (r : RegNum) : (s.stampRx r).fbLen = s.fbLen := rfl
@[simp] theorem State.stampRx_stsKey (s : State) (r : RegNum) : (s.stampRx r).stsKey = s.stsKey := rfl
@[simp] theorem State.stampRx_stsIv (s : State) (r : RegNum) : (s.stampRx r).stsIv = s.stsIv := rfl
@[simp] theorem State.stampRx_keySet (s : State) (r : RegNum) : (s.stampRx r).keySet = s.keySet := rfl
@[simp] theorem State.stampRx_ivSet (s : State) (r : RegNum) : (s.stampRx r).ivSet = s.ivSet := rfl
@[simp] theorem State.stampRx_resyncPending (s : State) (r : RegNum) : (s.stampRx r).resyncPending = s.resyncPending := rfl
@[simp] theorem State.stampRx_firstDone (s : State) (r : RegNum) : (s.stampRx r).firstDone = s.firstDone := rfl
@[simp] theorem State.stampRx_pollCtr (s : State) (r : RegNum) : (s.stampRx r).pollCtr = s.pollCtr := rfl
@[simp] theorem State.stampRx_stsScore (s : State) (r : RegNum) : (s.stampRx r).stsScore = s.stsScore := rfl
@[simp] theorem State.stampRx_k (s : State) (r : RegNum) : (s.stampRx r).k = s.k := rfl
@[simp] theorem State.stampRx_tof (s : State) (r : RegNum) : (s.stampRx r).tof = s.tof := rfl
@[simp] theorem State.stampRx_tofValid (s : State) (r : RegNum) : (s.stampRx r).tofValid = s.tofValid := rfl
@[simp] theorem State.stampRx_state (s : State) (r : RegNum) : (s.stampRx r).state = s.state := rfl
@[simp] theorem State.stampRx_outcome (s : State) (r : RegNum) : (s.stampRx r).outcome = s.outcome := rfl
@[simp] theorem State.stampRx_seq (s : State) (r : RegNum) : (s.stampRx r).seq = s.seq := rfl
@[simp] theorem State.stampRx_session (s : State) (r : RegNum) : (s.stampRx r).session = s.session := rfl
@[simp] theorem State.stampRx_cnt (s : State) (r : RegNum) : (s.stampRx r).cnt = s.cnt := rfl
@[simp] theorem State.stampRx_cfg (s : State) (r : RegNum) : (s.stampRx r).cfg = s.cfg := rfl
@[simp] theorem State.stampRx_aes (s : State) (r : RegNum) : (s.stampRx r).aes = s.aes := rfl
@[simp] theorem State.stampRx_hasAes (s : State) (r : RegNum) : (s.stampRx r).hasAes = s.hasAes := rfl
@[simp] theorem State.stampRx_inputs (s : State) (r : RegNum) : (s.stampRx r).inputs = s.inputs := rfl
@[simp] theorem State.stampRx_opnd (s : State) (r : RegNum) : (s.stampRx r).opnd = s.opnd := rfl
@[simp] theorem State.stampRx_ans (s : State) (r : RegNum) : (s.stampRx r).ans = s.ans := rfl
@[simp] theorem State.stampRx_calls (s : State) (r : RegNum) : (s.stampRx r).calls = s.calls ++ [.readTimestamp .rx] := rfl
@[simp] theorem State.stampRx_responses (s : State) (r : RegNum) : (s.stampRx r).responses = s.responses := rfl
@[simp] theorem State.stampRx_draws (s : State) (r : RegNum) : (s.stampRx r).draws = s.draws := rfl

/-! ## createExchange -/

@[simp] theorem State.createExchange_ts (s : State) : s.createExchange.ts = freshTimestamps s.draws s.ts := rfl
@[simp] theorem State.createExchange_tsw (s : State) : s.createExchange.tsw = #v[false, false, false, false, false, false, s.tsw[6], s.tsw[7]] := rfl
@[simp] theorem State.createExchange_fb (s : State) : s.createExchange.fb = s.fb := rfl
@[simp] theorem State.createExchange_fbLen (s : State) : s.createExchange.fbLen = s.fbLen := rfl
@[simp] theorem State.createExchange_stsKey (s : State) : s.createExchange.stsKey = s.stsKey := rfl
@[simp] theorem State.createExchange_stsIv (s : State) : s.createExchange.stsIv = s.stsIv := rfl
@[simp] theorem State.createExchange_keySet (s : State) : s.createExchange.keySet = s.keySet := rfl
@[simp] theorem State.createExchange_ivSet (s : State) : s.createExchange.ivSet = s.ivSet := rfl
@[simp] theorem State.createExchange_resyncPending (s : State) : s.createExchange.resyncPending = s.resyncPending := rfl
@[simp] theorem State.createExchange_firstDone (s : State) : s.createExchange.firstDone = s.firstDone := rfl
@[simp] theorem State.createExchange_pollCtr (s : State) : s.createExchange.pollCtr = s.pollCtr := rfl
@[simp] theorem State.createExchange_stsScore (s : State) : s.createExchange.stsScore = s.stsScore := rfl
@[simp] theorem State.createExchange_k (s : State) : s.createExchange.k = s.k := rfl
@[simp] theorem State.createExchange_tof (s : State) : s.createExchange.tof = s.tof := rfl
@[simp] theorem State.createExchange_tofValid (s : State) : s.createExchange.tofValid = false := rfl
@[simp] theorem State.createExchange_state (s : State) : s.createExchange.state = s.state := rfl
@[simp] theorem State.createExchange_outcome (s : State) : s.createExchange.outcome = .none := rfl
@[simp] theorem State.createExchange_seq (s : State) : s.createExchange.seq = s.seq := rfl
@[simp] theorem State.createExchange_session (s : State) : s.createExchange.session = true := rfl
@[simp] theorem State.createExchange_cnt (s : State) : s.createExchange.cnt = s.cnt := rfl
@[simp] theorem State.createExchange_cfg (s : State) : s.createExchange.cfg = s.cfg := rfl
@[simp] theorem State.createExchange_aes (s : State) : s.createExchange.aes = s.aes := rfl
@[simp] theorem State.createExchange_hasAes (s : State) : s.createExchange.hasAes = s.hasAes := rfl
@[simp] theorem State.createExchange_inputs (s : State) : s.createExchange.inputs = s.inputs := rfl
@[simp] theorem State.createExchange_opnd (s : State) : s.createExchange.opnd = s.opnd := rfl
@[simp] theorem State.createExchange_ans (s : State) : s.createExchange.ans = s.ans := rfl
@[simp] theorem State.createExchange_calls (s : State) : s.createExchange.calls = s.calls := rfl
@[simp] theorem State.createExchange_responses (s : State) : s.createExchange.responses = s.responses := rfl
@[simp] theorem State.createExchange_draws (s : State) : s.createExchange.draws = s.draws + 6 := rfl

/-! ## latch -/

@[simp] theorem State.latch_ts (s : State) (o : Datum) (a : HalAnswers) (rest : List Input) : (s.latch o a rest).ts = s.ts := rfl
@[simp] theorem State.latch_tsw (s : State) (o : Datum) (a : HalAnswers) (rest : List Input) : (s.latch o a rest).tsw = s.tsw := rfl
@[simp] theorem State.latch_fb (s : State) (o : Datum) (a : HalAnswers) (rest : List Input) : (s.latch o a rest).fb = s.fb := rfl
@[simp] theorem State.latch_fbLen (s : State) (o : Datum) (a : HalAnswers) (rest : List Input) : (s.latch o a rest).fbLen = s.fbLen := rfl
@[simp] theorem State.latch_stsKey (s : State) (o : Datum) (a : HalAnswers) (rest : List Input) : (s.latch o a rest).stsKey = s.stsKey := rfl
@[simp] theorem State.latch_stsIv (s : State) (o : Datum) (a : HalAnswers) (rest : List Input) : (s.latch o a rest).stsIv = s.stsIv := rfl
@[simp] theorem State.latch_keySet (s : State) (o : Datum) (a : HalAnswers) (rest : List Input) : (s.latch o a rest).keySet = s.keySet := rfl
@[simp] theorem State.latch_ivSet (s : State) (o : Datum) (a : HalAnswers) (rest : List Input) : (s.latch o a rest).ivSet = s.ivSet := rfl
@[simp] theorem State.latch_resyncPending (s : State) (o : Datum) (a : HalAnswers) (rest : List Input) : (s.latch o a rest).resyncPending = s.resyncPending := rfl
@[simp] theorem State.latch_firstDone (s : State) (o : Datum) (a : HalAnswers) (rest : List Input) : (s.latch o a rest).firstDone = s.firstDone := rfl
@[simp] theorem State.latch_pollCtr (s : State) (o : Datum) (a : HalAnswers) (rest : List Input) : (s.latch o a rest).pollCtr = s.pollCtr := rfl
@[simp] theorem State.latch_stsScore (s : State) (o : Datum) (a : HalAnswers) (rest : List Input) : (s.latch o a rest).stsScore = s.stsScore := rfl
@[simp] theorem State.latch_k (s : State) (o : Datum) (a : HalAnswers) (rest : List Input) : (s.latch o a rest).k = s.k := rfl
@[simp] theorem State.latch_tof (s : State) (o : Datum) (a : HalAnswers) (rest : List Input) : (s.latch o a rest).tof = s.tof := rfl
@[simp] theorem State.latch_tofValid (s : State) (o : Datum) (a : HalAnswers) (rest : List Input) : (s.latch o a rest).tofValid = s.tofValid := rfl
@[simp] theorem State.latch_state (s : State) (o : Datum) (a : HalAnswers) (rest : List Input) : (s.latch o a rest).state = s.state := rfl
@[simp] theorem State.latch_outcome (s : State) (o : Datum) (a : HalAnswers) (rest : List Input) : (s.latch o a rest).outcome = s.outcome := rfl
@[simp] theorem State.latch_seq (s : State) (o : Datum) (a : HalAnswers) (rest : List Input) : (s.latch o a rest).seq = s.seq := rfl
@[simp] theorem State.latch_session (s : State) (o : Datum) (a : HalAnswers) (rest : List Input) : (s.latch o a rest).session = s.session := rfl
@[simp] theorem State.latch_cnt (s : State) (o : Datum) (a : HalAnswers) (rest : List Input) : (s.latch o a rest).cnt = s.cnt := rfl
@[simp] theorem State.latch_cfg (s : State) (o : Datum) (a : HalAnswers) (rest : List Input) : (s.latch o a rest).cfg = s.cfg := rfl
@[simp] theorem State.latch_aes (s : State) (o : Datum) (a : HalAnswers) (rest : List Input) : (s.latch o a rest).aes = s.aes := rfl
@[simp] theorem State.latch_hasAes (s : State) (o : Datum) (a : HalAnswers) (rest : List Input) : (s.latch o a rest).hasAes = s.hasAes := rfl
@[simp] theorem State.latch_inputs (s : State) (o : Datum) (a : HalAnswers) (rest : List Input) : (s.latch o a rest).inputs = rest := rfl
@[simp] theorem State.latch_opnd (s : State) (o : Datum) (a : HalAnswers) (rest : List Input) : (s.latch o a rest).opnd = o := rfl
@[simp] theorem State.latch_ans (s : State) (o : Datum) (a : HalAnswers) (rest : List Input) : (s.latch o a rest).ans = a := rfl
@[simp] theorem State.latch_calls (s : State) (o : Datum) (a : HalAnswers) (rest : List Input) : (s.latch o a rest).calls = s.calls := rfl
@[simp] theorem State.latch_responses (s : State) (o : Datum) (a : HalAnswers) (rest : List Input) : (s.latch o a rest).responses = s.responses := rfl
@[simp] theorem State.latch_draws (s : State) (o : Datum) (a : HalAnswers) (rest : List Input) : (s.latch o a rest).draws = s.draws := rfl

/-! ## storeField -/

@[simp] theorem State.storeField_fb (s : State) (f : FrameField) (v : BitVec 32) :
    (s.storeField f v).fb = s.fb := by cases f <;> rfl
@[simp] theorem State.storeField_fbLen (s : State) (f : FrameField) (v : BitVec 32) :
    (s.storeField f v).fbLen = s.fbLen := by cases f <;> rfl
@[simp] theorem State.storeField_stsKey (s : State) (f : FrameField) (v : BitVec 32) :
    (s.storeField f v).stsKey = s.stsKey := by cases f <;> rfl
@[simp] theorem State.storeField_stsIv (s : State) (f : FrameField) (v : BitVec 32) :
    (s.storeField f v).stsIv = s.stsIv := by cases f <;> rfl
@[simp] theorem State.storeField_keySet (s : State) (f : FrameField) (v : BitVec 32) :
    (s.storeField f v).keySet = s.keySet := by cases f <;> rfl
@[simp] theorem State.storeField_ivSet (s : State) (f : FrameField) (v : BitVec 32) :
    (s.storeField f v).ivSet = s.ivSet := by cases f <;> rfl
@[simp] theorem State.storeField_resyncPending (s : State) (f : FrameField) (v : BitVec 32) :
    (s.storeField f v).resyncPending = s.resyncPending := by cases f <;> rfl
@[simp] theorem State.storeField_firstDone (s : State) (f : FrameField) (v : BitVec 32) :
    (s.storeField f v).firstDone = s.firstDone := by cases f <;> rfl
@[simp] theorem State.storeField_stsScore (s : State) (f : FrameField) (v : BitVec 32) :
    (s.storeField f v).stsScore = s.stsScore := by cases f <;> rfl
@[simp] theorem State.storeField_k (s : State) (f : FrameField) (v : BitVec 32) :
    (s.storeField f v).k = s.k := by cases f <;> rfl
@[simp] theorem State.storeField_tof (s : State) (f : FrameField) (v : BitVec 32) :
    (s.storeField f v).tof = s.tof := by cases f <;> rfl
@[simp] theorem State.storeField_tofValid (s : State) (f : FrameField) (v : BitVec 32) :
    (s.storeField f v).tofValid = s.tofValid := by cases f <;> rfl
@[simp] theorem State.storeField_state (s : State) (f : FrameField) (v : BitVec 32) :
    (s.storeField f v).state = s.state := by cases f <;> rfl
@[simp] theorem State.storeField_outcome (s : State) (f : FrameField) (v : BitVec 32) :
    (s.storeField f v).outcome = s.outcome := by cases f <;> rfl
@[simp] theorem State.storeField_seq (s : State) (f : FrameField) (v : BitVec 32) :
    (s.storeField f v).seq = s.seq := by cases f <;> rfl
@[simp] theorem State.storeField_session (s : State) (f : FrameField) (v : BitVec 32) :
    (s.storeField f v).session = s.session := by cases f <;> rfl
@[simp] theorem State.storeField_cnt (s : State) (f : FrameField) (v : BitVec 32) :
    (s.storeField f v).cnt = s.cnt := by cases f <;> rfl
@[simp] theorem State.storeField_cfg (s : State) (f : FrameField) (v : BitVec 32) :
    (s.storeField f v).cfg = s.cfg := by cases f <;> rfl
@[simp] theorem State.storeField_aes (s : State) (f : FrameField) (v : BitVec 32) :
    (s.storeField f v).aes = s.aes := by cases f <;> rfl
@[simp] theorem State.storeField_hasAes (s : State) (f : FrameField) (v : BitVec 32) :
    (s.storeField f v).hasAes = s.hasAes := by cases f <;> rfl
@[simp] theorem State.storeField_inputs (s : State) (f : FrameField) (v : BitVec 32) :
    (s.storeField f v).inputs = s.inputs := by cases f <;> rfl
@[simp] theorem State.storeField_opnd (s : State) (f : FrameField) (v : BitVec 32) :
    (s.storeField f v).opnd = s.opnd := by cases f <;> rfl
@[simp] theorem State.storeField_ans (s : State) (f : FrameField) (v : BitVec 32) :
    (s.storeField f v).ans = s.ans := by cases f <;> rfl
@[simp] theorem State.storeField_calls (s : State) (f : FrameField) (v : BitVec 32) :
    (s.storeField f v).calls = s.calls := by cases f <;> rfl
@[simp] theorem State.storeField_responses (s : State) (f : FrameField) (v : BitVec 32) :
    (s.storeField f v).responses = s.responses := by cases f <;> rfl
@[simp] theorem State.storeField_draws (s : State) (f : FrameField) (v : BitVec 32) :
    (s.storeField f v).draws = s.draws := by cases f <;> rfl

/-! ## extractFields -/

theorem extractFold_fb (m : Memory) (c : State) (fs : List FrameField) (s : State) :
    (fs.foldl (fun t f => t.storeField f (Memory.read32 m (c.fieldOffset f))) s).fb = s.fb := by
  induction fs generalizing s with
  | nil => rfl
  | cons f fs ih => rw [List.foldl_cons, ih, State.storeField_fb]

@[simp] theorem State.extractFields_fb (s : State) (fs : List FrameField) : (s.extractFields fs).fb = s.fb :=
  extractFold_fb s.fb s fs s

theorem extractFold_fbLen (m : Memory) (c : State) (fs : List FrameField) (s : State) :
    (fs.foldl (fun t f => t.storeField f (Memory.read32 m (c.fieldOffset f))) s).fbLen = s.fbLen := by
  induction fs generalizing s with
  | nil => rfl
  | cons f fs ih => rw [List.foldl_cons, ih, State.storeField_fbLen]

@[simp] theorem State.extractFields_fbLen (s : State) (fs : List FrameField) : (s.extractFields fs).fbLen = s.fbLen :=
  extractFold_fbLen s.fb s fs s

theorem extractFold_stsKey (m : Memory) (c : State) (fs : List FrameField) (s : State) :
    (fs.foldl (fun t f => t.storeField f (Memory.read32 m (c.fieldOffset f))) s).stsKey = s.stsKey := by
  induction fs generalizing s with
  | nil => rfl
  | cons f fs ih => rw [List.foldl_cons, ih, State.storeField_stsKey]

@[simp] theorem State.extractFields_stsKey (s : State) (fs : List FrameField) : (s.extractFields fs).stsKey = s.stsKey :=
  extractFold_stsKey s.fb s fs s

theorem extractFold_stsIv (m : Memory) (c : State) (fs : List FrameField) (s : State) :
    (fs.foldl (fun t f => t.storeField f (Memory.read32 m (c.fieldOffset f))) s).stsIv = s.stsIv := by
  induction fs generalizing s with
  | nil => rfl
  | cons f fs ih => rw [List.foldl_cons, ih, State.storeField_stsIv]

@[simp] theorem State.extractFields_stsIv (s : State) (fs : List FrameField) : (s.extractFields fs).stsIv = s.stsIv :=
  extractFold_stsIv s.fb s fs s

theorem extractFold_keySet (m : Memory) (c : State) (fs : List FrameField) (s : State) :
    (fs.foldl (fun t f => t.storeField f (Memory.read32 m (c.fieldOffset f))) s).keySet = s.keySet := by
  induction fs generalizing s with
  | nil => rfl
  | cons f fs ih => rw [List.foldl_cons, ih, State.storeField_keySet]

@[simp] theorem State.extractFields_keySet (s : State) (fs : List FrameField) : (s.extractFields fs).keySet = s.keySet :=
  extractFold_keySet s.fb s fs s

theorem extractFold_ivSet (m : Memory) (c : State) (fs : List FrameField) (s : State) :
    (fs.foldl (fun t f => t.storeField f (Memory.read32 m (c.fieldOffset f))) s).ivSet = s.ivSet := by
  induction fs generalizing s with
  | nil => rfl
  | cons f fs ih => rw [List.foldl_cons, ih, State.storeField_ivSet]

@[simp] theorem State.extractFields_ivSet (s : State) (fs : List FrameField) : (s.extractFields fs).ivSet = s.ivSet :=
  extractFold_ivSet s.fb s fs s

theorem extractFold_resyncPending (m : Memory) (c : State) (fs : List FrameField) (s : State) :
    (fs.foldl (fun t f => t.storeField f (Memory.read32 m (c.fieldOffset f))) s).resyncPending = s.resyncPending := by
  induction fs generalizing s with
  | nil => rfl
  | cons f fs ih => rw [List.foldl_cons, ih, State.storeField_resyncPending]

@[simp] theorem State.extractFields_resyncPending (s : State) (fs : List FrameField) : (s.extractFields fs).resyncPending = s.resyncPending :=
  extractFold_resyncPending s.fb s fs s

theorem extractFold_firstDone (m : Memory) (c : State) (fs : List FrameField) (s : State) :
    (fs.foldl (fun t f => t.storeField f (Memory.read32 m (c.fieldOffset f))) s).firstDone = s.firstDone := by
  induction fs generalizing s with
  | nil => rfl
  | cons f fs ih => rw [List.foldl_cons, ih, State.storeField_firstDone]

@[simp] theorem State.extractFields_firstDone (s : State) (fs : List FrameField) : (s.extractFields fs).firstDone = s.firstDone :=
  extractFold_firstDone s.fb s fs s

theorem extractFold_stsScore (m : Memory) (c : State) (fs : List FrameField) (s : State) :
    (fs.foldl (fun t f => t.storeField f (Memory.read32 m (c.fieldOffset f))) s).stsScore = s.stsScore := by
  induction fs generalizing s with
  | nil => rfl
  | cons f fs ih => rw [List.foldl_cons, ih, State.storeField_stsScore]

@[simp] theorem State.extractFields_stsScore (s : State) (fs : List FrameField) : (s.extractFields fs).stsScore = s.stsScore :=
  extractFold_stsScore s.fb s fs s

theorem extractFold_k (m : Memory) (c : State) (fs : List FrameField) (s : State) :
    (fs.foldl (fun t f => t.storeField f (Memory.read32 m (c.fieldOffset f))) s).k = s.k := by
  induction fs generalizing s with
  | nil => rfl
  | cons f fs ih => rw [List.foldl_cons, ih, State.storeField_k]

@[simp] theorem State.extractFields_k (s : State) (fs : List FrameField) : (s.extractFields fs).k = s.k :=
  extractFold_k s.fb s fs s

theorem extractFold_tof (m : Memory) (c : State) (fs : List FrameField) (s : State) :
    (fs.foldl (fun t f => t.storeField f (Memory.read32 m (c.fieldOffset f))) s).tof = s.tof := by
  induction fs generalizing s with
  | nil => rfl
  | cons f fs ih => rw [List.foldl_cons, ih, State.storeField_tof]

@[simp] theorem State.extractFields_tof (s : State) (fs : List FrameField) : (s.extractFields fs).tof = s.tof :=
  extractFold_tof s.fb s fs s

theorem extractFold_tofValid (m : Memory) (c : State) (fs : List FrameField) (s : State) :
    (fs.foldl (fun t f => t.storeField f (Memory.read32 m (c.fieldOffset f))) s).tofValid = s.tofValid := by
  induction fs generalizing s with
  | nil => rfl
  | cons f fs ih => rw [List.foldl_cons, ih, State.storeField_tofValid]

@[simp] theorem State.extractFields_tofValid (s : State) (fs : List FrameField) : (s.extractFields fs).tofValid = s.tofValid :=
  extractFold_tofValid s.fb s fs s

theorem extractFold_state (m : Memory) (c : State) (fs : List FrameField) (s : State) :
    (fs.foldl (fun t f => t.storeField f (Memory.read32 m (c.fieldOffset f))) s).state = s.state := by
  induction fs generalizing s with
  | nil => rfl
  | cons f fs ih => rw [List.foldl_cons, ih, State.storeField_state]

@[simp] theorem State.extractFields_state (s : State) (fs : List FrameField) : (s.extractFields fs).state = s.state :=
  extractFold_state s.fb s fs s

theorem extractFold_outcome (m : Memory) (c : State) (fs : List FrameField) (s : State) :
    (fs.foldl (fun t f => t.storeField f (Memory.read32 m (c.fieldOffset f))) s).outcome = s.outcome := by
  induction fs generalizing s with
  | nil => rfl
  | cons f fs ih => rw [List.foldl_cons, ih, State.storeField_outcome]

@[simp] theorem State.extractFields_outcome (s : State) (fs : List FrameField) : (s.extractFields fs).outcome = s.outcome :=
  extractFold_outcome s.fb s fs s

theorem extractFold_seq (m : Memory) (c : State) (fs : List FrameField) (s : State) :
    (fs.foldl (fun t f => t.storeField f (Memory.read32 m (c.fieldOffset f))) s).seq = s.seq := by
  induction fs generalizing s with
  | nil => rfl
  | cons f fs ih => rw [List.foldl_cons, ih, State.storeField_seq]

@[simp] theorem State.extractFields_seq (s : State) (fs : List FrameField) : (s.extractFields fs).seq = s.seq :=
  extractFold_seq s.fb s fs s

theorem extractFold_session (m : Memory) (c : State) (fs : List FrameField) (s : State) :
    (fs.foldl (fun t f => t.storeField f (Memory.read32 m (c.fieldOffset f))) s).session = s.session := by
  induction fs generalizing s with
  | nil => rfl
  | cons f fs ih => rw [List.foldl_cons, ih, State.storeField_session]

@[simp] theorem State.extractFields_session (s : State) (fs : List FrameField) : (s.extractFields fs).session = s.session :=
  extractFold_session s.fb s fs s

theorem extractFold_cnt (m : Memory) (c : State) (fs : List FrameField) (s : State) :
    (fs.foldl (fun t f => t.storeField f (Memory.read32 m (c.fieldOffset f))) s).cnt = s.cnt := by
  induction fs generalizing s with
  | nil => rfl
  | cons f fs ih => rw [List.foldl_cons, ih, State.storeField_cnt]

@[simp] theorem State.extractFields_cnt (s : State) (fs : List FrameField) : (s.extractFields fs).cnt = s.cnt :=
  extractFold_cnt s.fb s fs s

theorem extractFold_cfg (m : Memory) (c : State) (fs : List FrameField) (s : State) :
    (fs.foldl (fun t f => t.storeField f (Memory.read32 m (c.fieldOffset f))) s).cfg = s.cfg := by
  induction fs generalizing s with
  | nil => rfl
  | cons f fs ih => rw [List.foldl_cons, ih, State.storeField_cfg]

@[simp] theorem State.extractFields_cfg (s : State) (fs : List FrameField) : (s.extractFields fs).cfg = s.cfg :=
  extractFold_cfg s.fb s fs s

theorem extractFold_aes (m : Memory) (c : State) (fs : List FrameField) (s : State) :
    (fs.foldl (fun t f => t.storeField f (Memory.read32 m (c.fieldOffset f))) s).aes = s.aes := by
  induction fs generalizing s with
  | nil => rfl
  | cons f fs ih => rw [List.foldl_cons, ih, State.storeField_aes]

@[simp] theorem State.extractFields_aes (s : State) (fs : List FrameField) : (s.extractFields fs).aes = s.aes :=
  extractFold_aes s.fb s fs s

theorem extractFold_hasAes (m : Memory) (c : State) (fs : List FrameField) (s : State) :
    (fs.foldl (fun t f => t.storeField f (Memory.read32 m (c.fieldOffset f))) s).hasAes = s.hasAes := by
  induction fs generalizing s with
  | nil => rfl
  | cons f fs ih => rw [List.foldl_cons, ih, State.storeField_hasAes]

@[simp] theorem State.extractFields_hasAes (s : State) (fs : List FrameField) : (s.extractFields fs).hasAes = s.hasAes :=
  extractFold_hasAes s.fb s fs s

theorem extractFold_inputs (m : Memory) (c : State) (fs : List FrameField) (s : State) :
    (fs.foldl (fun t f => t.storeField f (Memory.read32 m (c.fieldOffset f))) s).inputs = s.inputs := by
  induction fs generalizing s with
  | nil => rfl
  | cons f fs ih => rw [List.foldl_cons, ih, State.storeField_inputs]

@[simp] theorem State.extractFields_inputs (s : State) (fs : List FrameField) : (s.extractFields fs).inputs = s.inputs :=
  extractFold_inputs s.fb s fs s

theorem extractFold_opnd (m : Memory) (c : State) (fs : List FrameField) (s : State) :
    (fs.foldl (fun t f => t.storeField f (Memory.read32 m (c.fieldOffset f))) s).opnd = s.opnd := by
  induction fs generalizing s with
  | nil => rfl
  | cons f fs ih => rw [List.foldl_cons, ih, State.storeField_opnd]

@[simp] theorem State.extractFields_opnd (s : State) (fs : List FrameField) : (s.extractFields fs).opnd = s.opnd :=
  extractFold_opnd s.fb s fs s

theorem extractFold_ans (m : Memory) (c : State) (fs : List FrameField) (s : State) :
    (fs.foldl (fun t f => t.storeField f (Memory.read32 m (c.fieldOffset f))) s).ans = s.ans := by
  induction fs generalizing s with
  | nil => rfl
  | cons f fs ih => rw [List.foldl_cons, ih, State.storeField_ans]

@[simp] theorem State.extractFields_ans (s : State) (fs : List FrameField) : (s.extractFields fs).ans = s.ans :=
  extractFold_ans s.fb s fs s

theorem extractFold_calls (m : Memory) (c : State) (fs : List FrameField) (s : State) :
    (fs.foldl (fun t f => t.storeField f (Memory.read32 m (c.fieldOffset f))) s).calls = s.calls := by
  induction fs generalizing s with
  | nil => rfl
  | cons f fs ih => rw [List.foldl_cons, ih, State.storeField_calls]

@[simp] theorem State.extractFields_calls (s : State) (fs : List FrameField) : (s.extractFields fs).calls = s.calls :=
  extractFold_calls s.fb s fs s

theorem extractFold_responses (m : Memory) (c : State) (fs : List FrameField) (s : State) :
    (fs.foldl (fun t f => t.storeField f (Memory.read32 m (c.fieldOffset f))) s).responses = s.responses := by
  induction fs generalizing s with
  | nil => rfl
  | cons f fs ih => rw [List.foldl_cons, ih, State.storeField_responses]

@[simp] theorem State.extractFields_responses (s : State) (fs : List FrameField) : (s.extractFields fs).responses = s.responses :=
  extractFold_responses s.fb s fs s

theorem extractFold_draws (m : Memory) (c : State) (fs : List FrameField) (s : State) :
    (fs.foldl (fun t f => t.storeField f (Memory.read32 m (c.fieldOffset f))) s).draws = s.draws := by
  induction fs generalizing s with
  | nil => rfl
  | cons f fs ih => rw [List.foldl_cons, ih, State.storeField_draws]

@[simp] theorem State.extractFields_draws (s : State) (fs : List FrameField) : (s.extractFields fs).draws = s.draws :=
  extractFold_draws s.fb s fs s

/-! ## resync -/

@[simp] theorem State.resync_ts (s : State) : s.resync.ts = s.ts := by
  unfold State.resync; split <;> rfl
@[simp] theorem State.resync_tsw (s : State) : s.resync.tsw = s.tsw := by
  unfold State.resync; split <;> rfl
@[simp] theorem State.resync_fb (s : State) : s.resync.fb = s.fb := by
  unfold State.resync; split <;> rfl
@[simp] theorem State.resync_fbLen (s : State) : s.resync.fbLen = s.fbLen := by
  unfold State.resync; split <;> rfl
@[simp] theorem State.resync_stsKey (s : State) : s.resync.stsKey = s.stsKey := by
  unfold State.resync; split <;> rfl
@[simp] theorem State.resync_keySet (s : State) : s.resync.keySet = s.keySet := by
  unfold State.resync; split <;> rfl
@[simp] theorem State.resync_ivSet (s : State) : s.resync.ivSet = s.ivSet := by
  unfold State.resync; split <;> rfl
@[simp] theorem State.resync_resyncPending (s : State) : s.resync.resyncPending = s.resyncPending := by
  unfold State.resync; split <;> rfl
@[simp] theorem State.resync_firstDone (s : State) : s.resync.firstDone = s.firstDone := by
  unfold State.resync; split <;> rfl
@[simp] theorem State.resync_pollCtr (s : State) : s.resync.pollCtr = s.pollCtr := by
  unfold State.resync; split <;> rfl
@[simp] theorem State.resync_stsScore (s : State) : s.resync.stsScore = s.stsScore := by
  unfold State.resync; split <;> rfl
@[simp] theorem State.resync_k (s : State) : s.resync.k = s.k := by
  unfold State.resync; split <;> rfl
@[simp] theorem State.resync_tof (s : State) : s.resync.tof = s.tof := by
  unfold State.resync; split <;> rfl
@[simp] theorem State.resync_tofValid (s : State) : s.resync.tofValid = s.tofValid := by
  unfold State.resync; split <;> rfl
@[simp] theorem State.resync_state (s : State) : s.resync.state = s.state := by
  unfold State.resync; split <;> rfl
@[simp] theorem State.resync_outcome (s : State) : s.resync.outcome = s.outcome := by
  unfold State.resync; split <;> rfl
@[simp] theorem State.resync_seq (s : State) : s.resync.seq = s.seq := by
  unfold State.resync; split <;> rfl
@[simp] theorem State.resync_session (s : State) : s.resync.session = s.session := by
  unfold State.resync; split <;> rfl
@[simp] theorem State.resync_cnt (s : State) : s.resync.cnt = s.cnt := by
  unfold State.resync; split <;> rfl
@[simp] theorem State.resync_cfg (s : State) : s.resync.cfg = s.cfg := by
  unfold State.resync; split <;> rfl
@[simp] theorem State.resync_aes (s : State) : s.resync.aes = s.aes := by
  unfold State.resync; split <;> rfl
@[simp] theorem State.resync_hasAes (s : State) : s.resync.hasAes = s.hasAes := by
  unfold State.resync; split <;> rfl
@[simp] theorem State.resync_inputs (s : State) : s.resync.inputs = s.inputs := by
  unfold State.resync; split <;> rfl
@[simp] theorem State.resync_opnd (s : State) : s.resync.opnd = s.opnd := by
  unfold State.resync; split <;> rfl
@[simp] theorem State.resync_ans (s : State) : s.resync.ans = s.ans := by
  unfold State.resync; split <;> rfl
@[simp] theorem State.resync_calls (s : State) : s.resync.calls = s.calls := by
  unfold State.resync; split <;> rfl
@[simp] theorem State.resync_responses (s : State) : s.resync.responses = s.responses := by
  unfold State.resync; split <;> rfl
@[simp] theorem State.resync_draws (s : State) : s.resync.draws = s.draws := by
  unfold State.resync; split <;> rfl

/-! ## exchangeStart -/

@[simp] theorem State.exchangeStart_ts (s : State) : s.exchangeStart.ts = s.ts := by
  unfold State.exchangeStart; split <;> rfl
@[simp] theorem State.exchangeStart_tsw (s : State) : s.exchangeStart.tsw = s.tsw := by
  unfold State.exchangeStart; split <;> rfl
@[simp] theorem State.exchangeStart_fb (s : State) : s.exchangeStart.fb = s.fb := by
  unfold State.exchangeStart; split <;> rfl
@[simp] theorem State.exchangeStart_fbLen (s : State) : s.exchangeStart.fbLen = s.fbLen := by
  unfold State.exchangeStart; split <;> rfl
@[simp] theorem State.exchangeStart_stsKey (s : State) : s.exchangeStart.stsKey = s.stsKey := by
  unfold State.exchangeStart; split <;> rfl
@[simp] theorem State.exchangeStart_keySet (s : State) : s.exchangeStart.keySet = s.keySet := by
  unfold State.exchangeStart; split <;> rfl
@[simp] theorem State.exchangeStart_ivSet (s : State) : s.exchangeStart.ivSet = s.ivSet := by
  unfold State.exchangeStart; split <;> rfl
@[simp] theorem State.exchangeStart_resyncPending (s : State) : s.exchangeStart.resyncPending = s.resyncPending := by
  unfold State.exchangeStart; split <;> rfl
@[simp] theorem State.exchangeStart_pollCtr (s : State) : s.exchangeStart.pollCtr = s.pollCtr := by
  unfold State.exchangeStart; split <;> rfl
@[simp] theorem State.exchangeStart_stsScore (s : State) : s.exchangeStart.stsScore = s.stsScore := by
  unfold State.exchangeStart; split <;> rfl
@[simp] theorem State.exchangeStart_k (s : State) : s.exchangeStart.k = s.k := by
  unfold State.exchangeStart; split <;> rfl
@[simp] theorem State.exchangeStart_tof (s : State) : s.exchangeStart.tof = s.tof := by
  unfold State.exchangeStart; split <;> rfl
@[simp] theorem State.exchangeStart_tofValid (s : State) : s.exchangeStart.tofValid = s.tofValid := by
  unfold State.exchangeStart; split <;> rfl
@[simp] theorem State.exchangeStart_state (s : State) : s.exchangeStart.state = s.state := by
  unfold State.exchangeStart; split <;> rfl
@[simp] theorem State.exchangeStart_outcome (s : State) : s.exchangeStart.outcome = s.outcome := by
  unfold State.exchangeStart; split <;> rfl
@[simp] theorem State.exchangeStart_seq (s : State) : s.exchangeStart.seq = s.seq := by
  unfold State.exchangeStart; split <;> rfl
@[simp] theorem State.exchangeStart_session (s : State) : s.exchangeStart.session = s.session := by
  unfold State.exchangeStart; split <;> rfl
@[simp] theorem State.exchangeStart_cnt (s : State) : s.exchangeStart.cnt = s.cnt := by
  unfold State.exchangeStart; split <;> rfl
@[simp] theorem State.exchangeStart_cfg (s : State) : s.exchangeStart.cfg = s.cfg := by
  unfold State.exchangeStart; split <;> rfl
@[simp] theorem State.exchangeStart_aes (s : State) : s.exchangeStart.aes = s.aes := by
  unfold State.exchangeStart; split <;> rfl
@[simp] theorem State.exchangeStart_hasAes (s : State) : s.exchangeStart.hasAes = s.hasAes := by
  unfold State.exchangeStart; split <;> rfl
@[simp] theorem State.exchangeStart_inputs (s : State) : s.exchangeStart.inputs = s.inputs := by
  unfold State.exchangeStart; split <;> rfl
@[simp] theorem State.exchangeStart_opnd (s : State) : s.exchangeStart.opnd = s.opnd := by
  unfold State.exchangeStart; split <;> rfl
@[simp] theorem State.exchangeStart_ans (s : State) : s.exchangeStart.ans = s.ans := by
  unfold State.exchangeStart; split <;> rfl
@[simp] theorem State.exchangeStart_responses (s : State) : s.exchangeStart.responses = s.responses := by
  unfold State.exchangeStart; split <;> rfl
@[simp] theorem State.exchangeStart_draws (s : State) : s.exchangeStart.draws = s.draws := by
  unfold State.exchangeStart; split <;> rfl

/-! ## startSts -/

@[simp] theorem State.startSts_ts (s : State) : s.startSts.ts = s.ts := by
  unfold State.startSts; split; exact State.exchangeStart_ts s; rfl
@[simp] theorem State.startSts_tsw (s : State) : s.startSts.tsw = s.tsw := by
  unfold State.startSts; split; exact State.exchangeStart_tsw s; rfl
@[simp] theorem State.startSts_fb (s : State) : s.startSts.fb = s.fb := by
  unfold State.startSts; split; exact State.exchangeStart_fb s; rfl
@[simp] theorem State.startSts_fbLen (s : State) : s.startSts.fbLen = s.fbLen := by
  unfold State.startSts; split; exact State.exchangeStart_fbLen s; rfl
@[simp] theorem State.startSts_stsKey (s : State) : s.startSts.stsKey = s.stsKey := by
  unfold State.startSts; split; exact State.exchangeStart_stsKey s; rfl
@[simp] theorem State.startSts_keySet (s : State) : s.startSts.keySet = s.keySet := by
  unfold State.startSts; split; exact State.exchangeStart_keySet s; rfl
@[simp] theorem State.startSts_ivSet (s : State) : s.startSts.ivSet = s.ivSet := by
  unfold State.startSts; split; exact State.exchangeStart_ivSet s; rfl
@[simp] theorem State.startSts_resyncPending (s : State) : s.startSts.resyncPending = s.resyncPending := by
  unfold State.startSts; split; exact State.exchangeStart_resyncPending s; rfl
@[simp] theorem State.startSts_pollCtr (s : State) : s.startSts.pollCtr = s.pollCtr := by
  unfold State.startSts; split; exact State.exchangeStart_pollCtr s; rfl
@[simp] theorem State.startSts_stsScore (s : State) : s.startSts.stsScore = s.stsScore := by
  unfold State.startSts; split; exact State.exchangeStart_stsScore s; rfl
@[simp] theorem State.startSts_k (s : State) : s.startSts.k = s.k := by
  unfold State.startSts; split; exact State.exchangeStart_k s; rfl
@[simp] theorem State.startSts_tof (s : State) : s.startSts.tof = s.tof := by
  unfold State.startSts; split; exact State.exchangeStart_tof s; rfl
@[simp] theorem State.startSts_tofValid (s : State) : s.startSts.tofValid = s.tofValid := by
  unfold State.startSts; split; exact State.exchangeStart_tofValid s; rfl
@[simp] theorem State.startSts_state (s : State) : s.startSts.state = s.state := by
  unfold State.startSts; split; exact State.exchangeStart_state s; rfl
@[simp] theorem State.startSts_outcome (s : State) : s.startSts.outcome = s.outcome := by
  unfold State.startSts; split; exact State.exchangeStart_outcome s; rfl
@[simp] theorem State.startSts_seq (s : State) : s.startSts.seq = s.seq := by
  unfold State.startSts; split; exact State.exchangeStart_seq s; rfl
@[simp] theorem State.startSts_session (s : State) : s.startSts.session = s.session := by
  unfold State.startSts; split; exact State.exchangeStart_session s; rfl
@[simp] theorem State.startSts_cnt (s : State) : s.startSts.cnt = s.cnt := by
  unfold State.startSts; split; exact State.exchangeStart_cnt s; rfl
@[simp] theorem State.startSts_cfg (s : State) : s.startSts.cfg = s.cfg := by
  unfold State.startSts; split; exact State.exchangeStart_cfg s; rfl
@[simp] theorem State.startSts_aes (s : State) : s.startSts.aes = s.aes := by
  unfold State.startSts; split; exact State.exchangeStart_aes s; rfl
@[simp] theorem State.startSts_hasAes (s : State) : s.startSts.hasAes = s.hasAes := by
  unfold State.startSts; split; exact State.exchangeStart_hasAes s; rfl
@[simp] theorem State.startSts_inputs (s : State) : s.startSts.inputs = s.inputs := by
  unfold State.startSts; split; exact State.exchangeStart_inputs s; rfl
@[simp] theorem State.startSts_opnd (s : State) : s.startSts.opnd = s.opnd := by
  unfold State.startSts; split; exact State.exchangeStart_opnd s; rfl
@[simp] theorem State.startSts_ans (s : State) : s.startSts.ans = s.ans := by
  unfold State.startSts; split; exact State.exchangeStart_ans s; rfl
@[simp] theorem State.startSts_responses (s : State) : s.startSts.responses = s.responses := by
  unfold State.startSts; split; exact State.exchangeStart_responses s; rfl
@[simp] theorem State.startSts_draws (s : State) : s.startSts.draws = s.draws := by
  unfold State.startSts; split; exact State.exchangeStart_draws s; rfl

end Sys2Proof.Machine
end

