-- ==== Sys2Proof/Laws/Ops.lean ====
section
/-! SUPPORT. What each shared operation can do, said once: the answers, admission, the operand forms, the error entry.
Later proofs cite these and do not unfold the operations. -/

namespace Sys2Proof.Machine

/-! ## Answers -/

theorem reply_def (s : State) (st : Status) (d : Datum) : reply s st d = .next (s.respond st d) := rfl

theorem respond_ofNat (s : State) (st : Status) (d : Nat) : s.respond st (BitVec.ofNat 128 d) = s.answered st d := rfl

/-- A refusal whose datum is 0. -/
theorem reply_zero (s : State) (st : Status) : reply s st 0 = .next (s.answered st 0) := rfl

theorem reply_ofNat (s : State) (st : Status) (d : Nat) :
    reply s st (BitVec.ofNat 128 d) = .next (s.answered st d) := rfl

/-- A zero-extended answer is the answer of its number. -/
theorem reply_setWidth (s : State) (st : Status) {w : Nat} (v : BitVec w) :
    reply s st (v.setWidth 128) = .next (s.answered st v.toNat) := by
  rw [← reply_ofNat]
  congr 1
  apply BitVec.eq_of_toNat_eq
  rw [BitVec.toNat_setWidth, BitVec.toNat_ofNat]

theorem reply_next {s t : State} {st : Status} {d : Datum} : reply s st d = .next t ↔ t = s.respond st d := by
  rw [reply_def]
  exact ⟨fun h => by cases h; rfl, fun h => by rw [h]⟩

/-! ## Admission (spec/30_encoding.md R92) -/

theorem admitWrite_active {s : State} {k : Result} (h : s.state.isActive = true) :
    admitWrite s k = .next (s.answered .errBusy 0) := by
  rw [admitWrite, if_pos h]; rfl

theorem admitWrite_inactive {s : State} {k : Result} (h : s.state.isActive = false) : admitWrite s k = k := by
  simp [admitWrite, h]

theorem admitIdle_active {s : State} {k : Result} (h : s.state.isActive = true) :
    admitIdle s k = .next (s.answered .errBusy 0) := by
  rw [admitIdle, if_pos h]; rfl

theorem SeqState.not_active_of_terminal {x : SeqState} (h : x.isTerminal = true) : x.isActive = false := by
  cases x <;> first | rfl | simp [SeqState.isTerminal] at h

theorem SeqState.idle_iff {x : SeqState} : x = .idle ↔ x.isActive = false ∧ x.isTerminal = false := by
  cases x <;> simp [SeqState.isActive, SeqState.isTerminal]

theorem admitIdle_terminal {s : State} {k : Result} (h : s.state.isTerminal = true) :
    admitIdle s k = .next (s.answered .errState 0) := by
  simp [admitIdle, h, SeqState.not_active_of_terminal h]; rfl

theorem admitIdle_idle {s : State} {k : Result} (h : s.state = .idle) : admitIdle s k = k := by
  simp [admitIdle, h, SeqState.isActive, SeqState.isTerminal]

theorem admitTerminal_active {s : State} {k : Result} (h : s.state.isActive = true) :
    admitTerminal s k = .next (s.answered .errBusy 0) := by
  rw [admitTerminal, if_pos h]; rfl

theorem admitTerminal_terminal {s : State} {k : Result} (h : s.state.isTerminal = true) : admitTerminal s k = k := by
  simp [admitTerminal, h, SeqState.not_active_of_terminal h]

theorem admitTerminal_idle {s : State} {k : Result} (h : s.state = .idle) :
    admitTerminal s k = .next (s.answered .errState 0) := by
  simp [admitTerminal, h, SeqState.isActive, SeqState.isTerminal]; rfl

/-! ## Operand forms -/

theorem withSource_written {s : State} {r : RegNum} {k : Timestamp → Result} (h : s.tsw[r] = true) :
    withSource s r k = k s.ts[r] := by
  simp [withSource, h]

theorem withSource_unwritten {s : State} {r : RegNum} {k : Timestamp → Result} (h : s.tsw[r] = false) :
    withSource s r k = .next (s.answered .errUnwritten r) := by
  simp [withSource, h]; rfl

theorem State.firstUnwritten_none {s : State} {rs : List RegNum} :
    s.firstUnwritten rs = none ↔ s.allWritten rs := by
  induction rs with
  | nil => simp [State.firstUnwritten, State.allWritten]
  | cons r rs ih =>
    by_cases h : s.tsw[r] = true
    · simp only [State.firstUnwritten, h, if_true, ih, State.allWritten, List.mem_cons, forall_eq_or_imp, true_and]
    · simp only [State.firstUnwritten, h, State.allWritten]
      exact ⟨fun h' => by simp at h', fun h' => absurd (h' r List.mem_cons_self) h⟩

/-- The first unwritten register of a rising list is the lowest. -/
theorem State.firstUnwritten_some {s : State} {rs : List RegNum} {r : RegNum} (hs : rs.Pairwise (· < ·))
    (h : s.firstMissing rs r) : s.firstUnwritten rs = some r := by
  obtain ⟨hmem, hr, hlow⟩ := h
  induction rs with
  | nil => simp at hmem
  | cons q rs ih =>
    rw [List.pairwise_cons] at hs
    rcases List.mem_cons.mp hmem with rfl | hm
    · simp [State.firstUnwritten, hr]
    · have hq : s.tsw[q] = true := hlow q List.mem_cons_self (hs.1 r hm)
      simp only [State.firstUnwritten, hq, if_true]
      exact ih hs.2 hm fun p hp => hlow p (List.mem_cons_of_mem _ hp)

theorem withWritten_all {s : State} {rs : List RegNum} {k : Result} (h : s.allWritten rs) : withWritten s rs k = k := by
  rw [withWritten, State.firstUnwritten_none.mpr h]

theorem withWritten_missing {s : State} {rs : List RegNum} {r : RegNum} {k : Result} (hs : rs.Pairwise (· < ·))
    (h : s.firstMissing rs r) : withWritten s rs k = .next (s.answered .errUnwritten r) := by
  rw [withWritten, State.firstUnwritten_some hs h]; rfl

theorem withSpan_inside {s : State} {off : BitVec 8} {n : Nat} {k : Result} (h : off.toNat + n ≤ 128) :
    withSpan s off n k = k := by rw [withSpan, if_pos h]

theorem withSpan_outside {s : State} {off : BitVec 8} {n : Nat} {k : Result} (h : 128 < off.toNat + n) :
    withSpan s off n k = .next (s.answered .errRange 0) := by
  rw [withSpan, if_neg (by simpa using h)]; rfl

theorem withAes_present {s : State} {k : Result} (h : s.hasAes = true) : withAes s k = k := by simp [withAes, h]

theorem withAes_absent {s : State} {k : Result} (h : s.hasAes = false) :
    withAes s k = .next (s.answered .errIllegal 0) := by simp [withAes, h]; rfl

theorem State.opndLow_toNat (s : State) (n : Nat) : (s.opndLow n).toNat = s.opnd.toNat % 2 ^ n := by
  simp [State.opndLow, BitVec.toNat_setWidth]

/-! ## Register writes -/

/-- A successful register write is the statements' `wroteT` of its number. -/
theorem reply_setT (s : State) (r : RegNum) (v : Timestamp) :
    reply (s.setT r v) .ok 0 = .next (s.wroteT r v.toNat) := by
  simp only [reply_def, State.wroteT, State.respond, State.setT, BitVec.ofNat_toNat, BitVec.setWidth_eq]

end Sys2Proof.Machine
end

