-- ==== Sys2Proof/Laws/Aes.lean ====
section
/-! SUPPORT. The AES companion unit: the nonce, the length contract, the classification of a status. -/

namespace Sys2Proof.Machine

theorem nonce_toNat (a : AesRegs) : a.nonce.toNat = a.ctr.toNat + 2 ^ 48 * a.src.toNat := by
  rw [AesRegs.nonce, BitVec.toNat_append, Nat.shiftLeft_eq, Nat.mul_comm,
    ← Nat.two_pow_add_eq_or_of_lt a.ctr.isLt, Nat.add_comm]

theorem badLength_iff (a : AesRegs) :
    a.badLength = true ↔ a.payloadLen < 0 ∨ (a.bufCap.toNat : ℤ) ≤ a.payloadLen := by
  rw [AesRegs.badLength, decide_eq_true_eq]

/-- The three answers of a classification (R263). -/
theorem replyClassified_cases (s : State) (st : BitVec 8) :
    (st.toInt < 0 → replyClassified s st =
      .next { s with responses := s.responses ++ [⟨.lengthError, BitVec.ofInt 128 st.toInt⟩] }) ∧
    (0 ≤ st.toInt → st &&& s.aes.errMask ≠ 0 →
      replyClassified s st = .next (s.answered .cryptoError (st &&& s.aes.errMask).toNat)) ∧
    (0 ≤ st.toInt → st &&& s.aes.errMask = 0 → replyClassified s st = .next (s.answered .ok 0)) := by
  have hm : st.msb = decide (st.toInt < 0) := BitVec.msb_eq_toInt
  refine ⟨fun h => ?_, fun h h2 => ?_, fun h h2 => ?_⟩
  · rw [replyClassified, if_pos (by simp [hm, h])]; rfl
  · rw [replyClassified, if_neg (by simp [hm]; omega), if_pos h2, reply_setWidth]
  · rw [replyClassified, if_neg (by simp [hm]; omega), if_neg (by simp [h2])]; rfl

/-- The answer depends on the error mask and the status alone. -/
theorem replyClassified_uniform (m st : BitVec 8) : ∃ (c : Status) (d : Datum),
    (c = .ok ∨ c = .lengthError ∨ c = .cryptoError) ∧
    ∀ u : State, u.aes.errMask = m →
      replyClassified u st = .next { u with responses := u.responses ++ [⟨c, d⟩] } := by
  by_cases h0 : st.toInt < 0
  · exact ⟨_, _, .inr (.inl rfl), fun u _ => (replyClassified_cases u st).1 h0⟩
  · by_cases h1 : st &&& m = 0
    · exact ⟨_, _, .inl rfl, fun u hu => (replyClassified_cases u st).2.2 (by omega) (by rw [hu]; exact h1)⟩
    · exact ⟨.cryptoError, BitVec.ofNat 128 (st &&& m).toNat, .inr (.inr rfl), fun u hu => by
        subst hu; exact (replyClassified_cases u st).2.1 (by omega) h1⟩

end Sys2Proof.Machine
end

