-- ==== Sys2Proof/Laws/Memory.lean ====
section
/-! SUPPORT. What the frame-buffer operations do: reads after writes, and the canonical form that every write keeps. -/

namespace Sys2Proof.Machine

/-- Every listed address lies above `a`. -/
def Memory.above (a : Nat) (m : Memory) : Prop := ∀ c ∈ m, a < c.1

theorem Memory.read_of_above {a : Nat} {m : Memory} (h : Memory.above a m) : Memory.read m a = Config.fbResetByte := by
  induction m with
  | nil => rfl
  | cons c m ih =>
    obtain ⟨a', b⟩ := c
    have hlt : a < a' := h (a', b) List.mem_cons_self
    rw [Memory.read, if_neg (by omega)]
    exact ih fun c hc => h c (List.mem_cons_of_mem _ hc)

theorem Memory.wf_nil : Memory.wf [] := by decide

theorem Memory.wf_cons {a : Nat} {b : Byte} {m : Memory} :
    Memory.wf ((a, b) :: m) ↔ Memory.above a m ∧ a < Config.fbSize ∧ b ≠ Config.fbResetByte ∧ Memory.wf m := by
  simp only [Memory.wf, Memory.above, List.pairwise_cons, List.mem_cons, forall_eq_or_imp]
  tauto

theorem Memory.read_consByte_same {a : Nat} {b : Byte} {m : Memory} (h : Memory.above a m) :
    Memory.read (Memory.consByte a b m) a = b := by
  unfold Memory.consByte
  split
  · rename_i hb; rw [Memory.read_of_above h, hb]
  · simp [Memory.read]

theorem Memory.read_consByte_other {a x : Nat} {b : Byte} {m : Memory} (h : x ≠ a) :
    Memory.read (Memory.consByte a b m) x = Memory.read m x := by
  unfold Memory.consByte
  split
  · rfl
  · rw [Memory.read, if_neg (Ne.symm h)]

theorem Memory.wf_consByte {a : Nat} {b : Byte} {m : Memory} (ha : a < Config.fbSize) (h : Memory.above a m)
    (hm : Memory.wf m) : Memory.wf (Memory.consByte a b m) := by
  unfold Memory.consByte
  split
  · exact hm
  · rename_i hb; exact Memory.wf_cons.mpr ⟨h, ha, hb, hm⟩

theorem Memory.above_consByte {a x : Nat} {b : Byte} {m : Memory} (hx : x < a) (h : Memory.above x m) :
    Memory.above x (Memory.consByte a b m) := by
  unfold Memory.consByte
  split
  · exact h
  · intro c hc
    rcases List.mem_cons.mp hc with rfl | hc
    · exact hx
    · exact h c hc

theorem Memory.above_trans {a x : Nat} {m : Memory} (hx : x < a) (h : Memory.above a m) : Memory.above x m :=
  fun c hc => lt_trans hx (h c hc)

theorem Memory.above_write {x a : Nat} {b : Byte} {m : Memory} (hx : x < a) (h : Memory.above x m) :
    Memory.above x (Memory.write m a b) := by
  induction m with
  | nil => exact Memory.above_consByte hx h
  | cons c m ih =>
    obtain ⟨a', b'⟩ := c
    have hx' : x < a' := h (a', b') List.mem_cons_self
    have hm : Memory.above x m := fun c hc => h c (List.mem_cons_of_mem _ hc)
    unfold Memory.write
    split
    · exact Memory.above_consByte hx h
    · split
      · exact Memory.above_consByte hx hm
      · intro c hc
        rcases List.mem_cons.mp hc with rfl | hc
        · exact hx'
        · exact ih hm c hc

/-- A write inside the buffer keeps the canonical form. -/
theorem Memory.wf_write {m : Memory} {a : Nat} {b : Byte} (hm : Memory.wf m) (ha : a < Config.fbSize) :
    Memory.wf (Memory.write m a b) := by
  induction m with
  | nil => exact Memory.wf_consByte ha (by intro c hc; simp at hc) hm
  | cons c m ih =>
    obtain ⟨a', b'⟩ := c
    obtain ⟨hab, ha', hb', hm'⟩ := Memory.wf_cons.mp hm
    unfold Memory.write
    split
    · rename_i hlt
      refine Memory.wf_consByte ha ?_ hm
      intro c hc
      rcases List.mem_cons.mp hc with rfl | hc
      · exact hlt
      · exact lt_trans hlt (hab c hc)
    · split
      · rename_i _ heq; subst heq; exact Memory.wf_consByte ha hab hm'
      · exact Memory.wf_cons.mpr ⟨Memory.above_write (by omega) hab, ha', hb', ih hm'⟩

/-- A read at another address is unchanged by a write, in any list. -/
theorem Memory.read_write_other {m : Memory} {a x : Nat} {b : Byte} (h : x ≠ a) :
    Memory.read (Memory.write m a b) x = Memory.read m x := by
  induction m with
  | nil => exact Memory.read_consByte_other h
  | cons c m ih =>
    obtain ⟨a', b'⟩ := c
    unfold Memory.write
    split
    · exact Memory.read_consByte_other h
    · split
      · rename_i _ heq; subst heq
        rw [Memory.read_consByte_other h, Memory.read, if_neg (Ne.symm h)]
      · rw [Memory.read, Memory.read, ih]

/-- A read after a write to the same address gives the byte written, in a canonical list. -/
theorem Memory.read_write_same {m : Memory} {a : Nat} {b : Byte} (hm : Memory.wf m) :
    Memory.read (Memory.write m a b) a = b := by
  induction m with
  | nil => exact Memory.read_consByte_same (by intro c hc; simp at hc)
  | cons c m ih =>
    obtain ⟨a', b'⟩ := c
    obtain ⟨hab, _, _, hm'⟩ := Memory.wf_cons.mp hm
    unfold Memory.write
    split
    · rename_i hlt
      refine Memory.read_consByte_same ?_
      intro c hc
      rcases List.mem_cons.mp hc with rfl | hc
      · exact hlt
      · exact lt_trans hlt (hab c hc)
    · split
      · rename_i _ heq; subst heq; exact Memory.read_consByte_same hab
      · rename_i _ hne
        rw [Memory.read, if_neg (Ne.symm hne), ih hm']

/-- Canonical memories that read alike are equal: equal memories are equal data. -/
theorem Memory.ext_of_read {m n : Memory} (hm : Memory.wf m) (hn : Memory.wf n)
    (h : ∀ a, Memory.read m a = Memory.read n a) : m = n := by
  induction m generalizing n with
  | nil =>
    cases n with
    | nil => rfl
    | cons c n =>
      obtain ⟨a, b⟩ := c
      have := h a
      simp only [Memory.read, if_true] at this
      exact absurd this.symm (Memory.wf_cons.mp hn).2.2.1
  | cons c m ih =>
    obtain ⟨a, b⟩ := c
    obtain ⟨hab, _, hb, hm'⟩ := Memory.wf_cons.mp hm
    cases n with
    | nil =>
      have := h a
      simp only [Memory.read, if_true] at this
      exact absurd this hb
    | cons d n =>
      obtain ⟨a', b'⟩ := d
      obtain ⟨hab', _, hb', hn'⟩ := Memory.wf_cons.mp hn
      have haa : a = a' := by
        rcases lt_trichotomy a a' with hlt | heq | hgt
        · have := h a
          rw [Memory.read, if_pos rfl, Memory.read, if_neg (by omega),
            Memory.read_of_above (Memory.above_trans hlt hab')] at this
          exact absurd this hb
        · exact heq
        · have := h a'
          rw [Memory.read, if_neg (by omega), Memory.read_of_above (Memory.above_trans hgt hab), Memory.read,
            if_pos rfl] at this
          exact absurd this.symm hb'
      subst haa
      have hbb : b = b' := by simpa [Memory.read] using h a
      subst hbb
      refine congrArg _ (ih hm' hn' fun x => ?_)
      by_cases hx : a = x
      · subst hx; rw [Memory.read_of_above hab, Memory.read_of_above hab']
      · simpa [Memory.read, hx] using h x

/-! ## Runs of bytes -/

theorem Memory.wf_writeBytes {m : Memory} {a : Nat} {bs : List Byte} (hm : Memory.wf m)
    (h : a + bs.length ≤ Config.fbSize) : Memory.wf (Memory.writeBytes m a bs) := by
  induction bs generalizing m a with
  | nil => exact hm
  | cons b bs ih =>
    simp only [List.length_cons] at h
    exact ih (Memory.wf_write hm (by omega)) (by omega)

/-- Bytes outside the run keep their contents. -/
theorem Memory.read_writeBytes_other {m : Memory} {a x : Nat} {bs : List Byte} (h : x < a ∨ a + bs.length ≤ x) :
    Memory.read (Memory.writeBytes m a bs) x = Memory.read m x := by
  induction bs generalizing m a with
  | nil => rfl
  | cons b bs ih =>
    simp only [List.length_cons] at h
    rw [Memory.writeBytes, ih (by omega), Memory.read_write_other (by omega)]

/-- Bytes inside the run are those written. -/
theorem Memory.read_writeBytes_inside {m : Memory} {a j : Nat} {bs : List Byte} (hm : Memory.wf m)
    (hsz : a + bs.length ≤ Config.fbSize) (h : j < bs.length) :
    Memory.read (Memory.writeBytes m a bs) (a + j) = bs[j] := by
  induction bs generalizing m a j with
  | nil => simp at h
  | cons b bs ih =>
    simp only [List.length_cons] at h hsz
    have hw : Memory.wf (Memory.write m a b) := Memory.wf_write hm (by omega)
    cases j with
    | zero =>
      rw [Memory.writeBytes, Memory.read_writeBytes_other (by omega), Nat.add_zero, Memory.read_write_same hm]
      rfl
    | succ j =>
      have := ih (a := a + 1) (j := j) hw (by omega) (by omega)
      rw [Memory.writeBytes, show a + (j + 1) = a + 1 + j by omega, this]
      rfl

/-! ## Little-endian spans -/

theorem bytesLE32_length (v : BitVec 32) : (bytesLE32 v).length = 4 := rfl

theorem le32_bytesLE32 (v : BitVec 32) :
    le32 (v.extractLsb' 0 8) (v.extractLsb' 8 8) (v.extractLsb' 16 8) (v.extractLsb' 24 8) = v := by
  unfold le32
  ext i hi
  simp only [BitVec.getElem_append, BitVec.getElem_extractLsb']
  split
  · simp; rfl
  · split
    · rename_i h1 h2; simp [show 8 + (i - 8) = i by omega]; rfl
    · split
      · rename_i h1 h2 h3; simp [show 16 + (i - 8 - 8) = i by omega]; rfl
      · rename_i h1 h2 h3
        simp [show 24 + (i - 8 - 8 - 8) = i by omega]; rfl

theorem Memory.wf_write32 {m : Memory} {a : Nat} {v : BitVec 32} (hm : Memory.wf m) (h : a + 4 ≤ Config.fbSize) :
    Memory.wf (Memory.write32 m a v) := Memory.wf_writeBytes hm (by rw [bytesLE32_length]; exact h)

theorem Memory.read_write32_other {m : Memory} {a x : Nat} {v : BitVec 32} (h : x < a ∨ a + 4 ≤ x) :
    Memory.read (Memory.write32 m a v) x = Memory.read m x :=
  Memory.read_writeBytes_other (by rw [bytesLE32_length]; exact h)

/-- Byte `j` of a span just written is `v[8j+7:8j]` (R61). -/
theorem Memory.read_write32_inside {m : Memory} {a j : Nat} {v : BitVec 32} (hm : Memory.wf m)
    (h : a + 4 ≤ Config.fbSize) (hj : j < 4) :
    Memory.read (Memory.write32 m a v) (a + j) = v.extractLsb' (8 * j) 8 := by
  rw [Memory.write32, Memory.read_writeBytes_inside hm (by rw [bytesLE32_length]; exact h)
    (by rw [bytesLE32_length]; exact hj)]
  interval_cases j <;> rfl

/-- A span read back is the value written (R61). -/
theorem Memory.read32_write32_same {m : Memory} {a : Nat} {v : BitVec 32} (hm : Memory.wf m)
    (h : a + 4 ≤ Config.fbSize) : Memory.read32 (Memory.write32 m a v) a = v := by
  have h0 := Memory.read_write32_inside (v := v) (j := 0) hm h (by omega)
  have h1 := Memory.read_write32_inside (v := v) (j := 1) hm h (by omega)
  have h2 := Memory.read_write32_inside (v := v) (j := 2) hm h (by omega)
  have h3 := Memory.read_write32_inside (v := v) (j := 3) hm h (by omega)
  rw [Nat.add_zero] at h0
  rw [Memory.read32, h0, h1, h2, h3]
  exact le32_bytesLE32 v

/-- A span that does not overlap the one written reads as before. -/
theorem Memory.read32_write32_other {m : Memory} {a x : Nat} {v : BitVec 32} (h : x + 4 ≤ a ∨ a + 4 ≤ x) :
    Memory.read32 (Memory.write32 m a v) x = Memory.read32 m x := by
  simp only [Memory.read32]
  rw [Memory.read_write32_other (by omega), Memory.read_write32_other (by omega),
    Memory.read_write32_other (by omega), Memory.read_write32_other (by omega)]

end Sys2Proof.Machine
end

