-- ==== Sys2Proof/Laws/Timestamp.lean ====
section
/-! SUPPORT. The timestamp arithmetic as numbers: low words, deltas, alignment, scheduling, comparison. -/

namespace Sys2Proof.Machine

theorem lo32_toNat (t : Timestamp) : (lo32 t).toNat = t.toNat % 2 ^ 32 := by simp [lo32]

/-- The 32-bit delta is the difference of the low words modulo 2^32 (R119). -/
theorem delta32_toNat (a b : Timestamp) :
    (delta32 a b).toNat = (a.toNat % 2 ^ 32 + 2 ^ 32 - b.toNat % 2 ^ 32) % 2 ^ 32 := by
  rw [delta32, BitVec.toNat_sub, lo32_toNat, lo32_toNat]
  congr 1
  have := Nat.mod_lt b.toNat (show 0 < 2 ^ 32 by decide)
  omega

theorem delta32_eq_delta (s : State) (a b : RegNum) : (delta32 s.ts[a] s.ts[b]).toNat = s.delta a b :=
  delta32_toNat _ _

theorem sub_toNat_lt (a b : Timestamp) : (a - b).toNat = (a.toNat + 2 ^ 40 - b.toNat) % 2 ^ 40 := by
  rw [BitVec.toNat_sub]
  have := b.isLt
  congr 1
  omega

/-- The alignment rounds down to a multiple of 512 (R121). -/
theorem align512_toNat (t : Timestamp) : (align512 t).toNat = t.toNat / 512 * 512 := by
  have := t.isLt
  rw [align512, BitVec.toNat_append, BitVec.toNat_ofNat, Nat.zero_mod, Nat.or_zero, BitVec.extractLsb'_toNat,
    Nat.shiftRight_eq_div_pow, Nat.shiftLeft_eq, Nat.mod_eq_of_lt (by omega)]

/-- The delayed-transmit time: the sum modulo 2^40, aligned (R122). -/
theorem sched_toNat (t d : Timestamp) : (sched t d).toNat = targetNumber t d := by
  rw [sched, align512_toNat, BitVec.toNat_add, targetNumber]

/-- Numbers equal modulo 2^40 write the same register value. -/
theorem State.wroteT_congr (s : State) (r : RegNum) {v w : Nat} (h : v % 2 ^ 40 = w % 2 ^ 40) :
    s.wroteT r v = s.wroteT r w := by
  have : BitVec.ofNat 40 v = BitVec.ofNat 40 w := BitVec.eq_of_toNat_eq (by simpa using h)
  simp only [State.wroteT, this]

/-- The verdict bits of a modular difference as a number (R123, R124). -/
theorem compareVerdict_toNat {w : Nat} (d : BitVec (w + 1)) :
    (compareVerdict d).toNat = verdictNumber d.toNat (2 ^ w) := by
  have hd := d.isLt
  have hmsb : d.msb = decide (2 ^ w ≤ d.toNat) := by rw [BitVec.msb_eq_decide]; simp
  have hzero : (d = 0) ↔ d.toNat = 0 := by
    rw [← BitVec.toNat_inj]; simp
  have hhalf : (d = BitVec.twoPow (w + 1) (w + 1 - 1)) ↔ d.toNat = 2 ^ w := by
    rw [← BitVec.toNat_inj, BitVec.toNat_twoPow, Nat.add_sub_cancel,
      Nat.mod_eq_of_lt (Nat.pow_lt_pow_right (by decide) (by omega))]
  have hpos : 0 < 2 ^ w := Nat.pos_of_ne_zero (by positivity)
  simp only [compareVerdict, hhalf, hzero, hmsb, ne_eq, verdictNumber, bit]
  by_cases h0 : d.toNat = 0
  · simp [h0, hpos.ne, Nat.not_le.mpr hpos]
  · by_cases h1 : 2 ^ w ≤ d.toNat
    · by_cases h2 : d.toNat = 2 ^ w
      · simp [h2]
      · simp [h0, h1, h2]
    · have h3 : d.toNat < 2 ^ w := by omega
      have h4 : d.toNat ≠ 2 ^ w := by omega
      simp [h0, h1, h3, h4, Nat.pos_of_ne_zero h0]

end Sys2Proof.Machine
end

