-- ==== Sys2Proof/Laws/Codec.lean ====
section
/-! SUPPORT. The frame codec: the layout predicate, the frame that encode builds, what decode answers and stores. -/

namespace Sys2Proof.Machine

/-! ## Spans as numbers -/

theorem le32_toNat (b0 b1 b2 b3 : Byte) :
    (le32 b0 b1 b2 b3).toNat = b0.toNat + 2 ^ 8 * b1.toNat + 2 ^ 16 * b2.toNat + 2 ^ 24 * b3.toNat := by
  have := b0.isLt
  have := b1.isLt
  have := b2.isLt
  have h1 : ∀ (x y n : Nat), y < 2 ^ n → x <<< n ||| y = x * 2 ^ n + y := fun x y n h => by
    rw [Nat.shiftLeft_eq, Nat.mul_comm, Nat.two_pow_add_eq_or_of_lt h]
  rw [le32, BitVec.toNat_append, BitVec.toNat_append, BitVec.toNat_append, h1 _ _ 8 (by omega), h1 _ _ 8 (by omega),
    h1 _ _ 8 (by omega)]
  ring

theorem spanNumber_eq (m : Memory) (a : Nat) : spanNumber m a = (Memory.read32 m a).toNat := by
  rw [spanNumber, Memory.read32, le32_toNat]

theorem spanNumber_lt (m : Memory) (a : Nat) : spanNumber m a < 2 ^ 32 := by
  rw [spanNumber_eq]; exact (Memory.read32 m a).isLt

/-- A span whose four bytes read alike is the same number. -/
theorem spanNumber_congr {m n : Memory} {a : Nat} (h : ∀ j, j < 4 → Memory.read m (a + j) = Memory.read n (a + j)) :
    spanNumber m a = spanNumber n a := by
  have h0 := h 0 (by omega)
  rw [Nat.add_zero] at h0
  rw [spanNumber, spanNumber, h0, h 1 (by omega), h 2 (by omega), h 3 (by omega)]

/-! ## The layout predicate (spec/42_frame_codec.md R157) -/

theorem fieldOffsets_perm (s : State) (k : FrameKind) : (s.fields k).map s.fieldOffset = fieldOffsets s k := by
  cases k <;> simp [State.fields, fieldOffsets, timestampFields, State.fieldOffset]
  by_cases h : s.usesSts = true <;> simp [h, State.fieldOffset]

theorem layoutOK_iff (s : State) (k : FrameKind) : s.layoutOK k = true ↔ layoutHolds s k := by
  simp only [State.layoutOK, fieldOffsets_perm, Bool.and_eq_true, decide_eq_true_eq, List.all_eq_true, layoutHolds,
    and_assoc]

theorem layoutHolds_congr {s t : State} (h : t.cfg = s.cfg) (k : FrameKind) : layoutHolds t k ↔ layoutHolds s k := by
  have h1 : fieldOffsets t k = fieldOffsets s k := by
    cases k <;> (simp only [fieldOffsets, timestampFields, State.usesSts, h]; try rfl)
  have h2 : t.frameLenOf k = s.frameLenOf k := by simp only [State.frameLenOf, h]
  rw [layoutHolds, layoutHolds, h1, h2]

/-- The layout depends on the configuration alone. -/
theorem layoutOK_congr {s t : State} (h : t.cfg = s.cfg) (k : FrameKind) : t.layoutOK k = s.layoutOK k := by
  rw [Bool.eq_iff_iff, layoutOK_iff, layoutOK_iff, layoutHolds_congr h]

theorem configOK_iff (s : State) : s.configOK = true ↔ configHolds s := by
  simp only [State.configOK, Bool.and_eq_true, List.all_eq_true, Bool.or_eq_true, Bool.not_eq_true', configHolds,
    ← layoutOK_iff, State.kindsUsed]
  cases s.isDoubleSided <;> cases s.isResponder <;> cases s.ackEnabled <;> cases s.usesSts <;> simp <;> tauto

/-- The start predicate depends on the configuration and the two loaded flags alone. -/
theorem configOK_congr {s t : State} (h : t.cfg = s.cfg) (hk : t.keySet = s.keySet) (hi : t.ivSet = s.ivSet) :
    t.configOK = s.configOK := by
  have h1 : t.kindsUsed = s.kindsUsed := by
    rw [State.kindsUsed, State.kindsUsed, State.isDoubleSided, State.isResponder, State.ackEnabled, h]
    rfl
  have h2 : t.layoutOK = s.layoutOK := funext (layoutOK_congr h)
  simp only [State.configOK, h1, h2, State.usesSts, h, hk, hi]

/-! ## Encode (R159) -/

theorem headerBytes_length (s : State) (k : FrameKind) : (s.headerBytes k).length = 10 := by
  simp [State.headerBytes]

theorem blankFrame_length {s : State} {k : FrameKind} (h : layoutHolds s k) :
    (s.blankFrame k).length = (s.frameLenOf k).toNat := by
  have := h.1.1
  simp only [State.blankFrame, List.length_append, headerBytes_length, List.length_replicate]
  show 10 + ((s.frameLenOf k).toNat - 10) = _
  omega

theorem blankFrame_header {s : State} {k : FrameKind} {j : Nat} (hj : j < 10) (h : j < (s.blankFrame k).length) :
    (s.blankFrame k)[j] = if j = 2 then s.seq else s.tplByte k j := by
  have hl : j < (s.headerBytes k).length := by rw [headerBytes_length]; exact hj
  have : (s.blankFrame k)[j] = (s.headerBytes k)[j] := List.getElem_append_left hl
  rw [this]
  simp only [State.headerBytes, List.getElem_map, List.getElem_range]

theorem blankFrame_payload {s : State} {k : FrameKind} {j : Nat} (hj : 10 ≤ j) (h : j < (s.blankFrame k).length) :
    (s.blankFrame k)[j] = 0 := by
  have hl : (s.headerBytes k).length ≤ j := by rw [headerBytes_length]; exact hj
  simp only [State.blankFrame, List.getElem_append_right hl, List.getElem_replicate]

/-- Fields embedded at disjoint spans: the memory stays canonical, each span reads back its value, and every other
byte is kept. -/
theorem embedFields_spec (s : State) (fs : List FrameField) {m : Memory} (hm : Memory.wf m)
    (hb : ∀ f ∈ fs, s.fieldOffset f + 4 ≤ 128)
    (hp : (fs.map s.fieldOffset).Pairwise fun o1 o2 => o1 + 4 ≤ o2 ∨ o2 + 4 ≤ o1) :
    Memory.wf (s.embedFields fs m) ∧
    (∀ f ∈ fs, Memory.read32 (s.embedFields fs m) (s.fieldOffset f) = s.fieldValue f) ∧
    (∀ x, (∀ f ∈ fs, x < s.fieldOffset f ∨ s.fieldOffset f + 4 ≤ x) →
      Memory.read (s.embedFields fs m) x = Memory.read m x) := by
  induction fs generalizing m with
  | nil => exact ⟨hm, by simp, fun x _ => rfl⟩
  | cons f fs ih =>
    have hf : s.fieldOffset f + 4 ≤ 128 := hb f List.mem_cons_self
    rw [List.map_cons, List.pairwise_cons] at hp
    obtain ⟨hw, hin, hout⟩ := ih (Memory.wf_write32 (v := s.fieldValue f) hm hf)
      (fun g hg => hb g (List.mem_cons_of_mem _ hg)) hp.2
    have hstep : s.embedFields (f :: fs) m = s.embedFields fs (Memory.write32 m (s.fieldOffset f) (s.fieldValue f)) :=
      rfl
    rw [hstep]
    refine ⟨hw, fun g hg => ?_, fun x hx => ?_⟩
    · rcases List.mem_cons.mp hg with rfl | hg
      · have keep : ∀ j, j < 4 →
            Memory.read (s.embedFields fs (Memory.write32 m (s.fieldOffset g) (s.fieldValue g))) (s.fieldOffset g + j) =
              Memory.read (Memory.write32 m (s.fieldOffset g) (s.fieldValue g)) (s.fieldOffset g + j) := by
          intro j hj
          refine hout _ fun f' hf' => ?_
          have := hp.1 (s.fieldOffset f') (List.mem_map_of_mem hf')
          omega
        have h0 := keep 0 (by omega)
        rw [Nat.add_zero] at h0
        have same := Memory.read32_write32_same (v := s.fieldValue g) hm hf
        rw [Memory.read32] at same ⊢
        rw [h0, keep 1 (by omega), keep 2 (by omega), keep 3 (by omega), same]
      · exact hin g hg
    · rw [hout x fun g hg => hx g (List.mem_cons_of_mem _ hg)]
      have := hx f List.mem_cons_self
      exact Memory.read_write32_other (by omega)

theorem fields_bound {s : State} {k : FrameKind} (h : layoutHolds s k) {f : FrameField} (hf : f ∈ s.fields k) :
    10 ≤ s.fieldOffset f ∧ s.fieldOffset f + 4 ≤ (s.frameLenOf k).toNat := by
  refine h.2.1 _ ?_
  rw [← fieldOffsets_perm]
  exact List.mem_map_of_mem hf

/-- The frame that encode builds, byte by byte (R159). -/
theorem encodeFrame_spec {s : State} {k : FrameKind} (h : layoutHolds s k) (hm : Memory.wf s.fb) :
    Memory.wf (s.encodeFrame k).fb ∧
    (∀ j, j < 10 → Memory.read (s.encodeFrame k).fb j = if j = 2 then s.seq else s.tplByte k j) ∧
    (∀ f ∈ s.fields k, Memory.read32 (s.encodeFrame k).fb (s.fieldOffset f) = s.fieldValue f) ∧
    (∀ x, 10 ≤ x → x < (s.frameLenOf k).toNat → (∀ o ∈ fieldOffsets s k, x < o ∨ o + 4 ≤ x) →
      Memory.read (s.encodeFrame k).fb x = 0) ∧
    (∀ x, (s.frameLenOf k).toNat ≤ x → Memory.read (s.encodeFrame k).fb x = Memory.read s.fb x) := by
  have hlen := blankFrame_length h
  have hmax := h.1.2
  have hw := Memory.wf_writeBytes (a := 0) (bs := s.blankFrame k) hm (by rw [hlen]; show 0 + _ ≤ 128; omega)
  obtain ⟨h1, h2, h3⟩ := embedFields_spec s (s.fields k) hw
    (fun f hf => le_trans (fields_bound h hf).2 hmax) (by rw [fieldOffsets_perm]; exact h.2.2)
  have inside : ∀ j (hj : j < (s.blankFrame k).length),
      Memory.read (Memory.writeBytes s.fb 0 (s.blankFrame k)) j = (s.blankFrame k)[j] := by
    intro j hj
    have := Memory.read_writeBytes_inside (a := 0) (bs := s.blankFrame k) hm
      (by rw [hlen]; show 0 + _ ≤ 128; omega) hj
    rwa [Nat.zero_add] at this
  refine ⟨h1, fun j hj => ?_, h2, fun x hx hxl hxo => ?_, fun x hx => ?_⟩
  · have hl : j < (s.blankFrame k).length := by have := h.1.1; omega
    rw [State.encodeFrame, h3 j fun f hf => Or.inl (by have := (fields_bound h hf).1; omega), inside j hl,
      blankFrame_header hj hl]
  · have hl : x < (s.blankFrame k).length := by omega
    rw [State.encodeFrame, h3 x, inside x hl, blankFrame_payload hx hl]
    intro f hf
    exact hxo _ (by rw [← fieldOffsets_perm]; exact List.mem_map_of_mem hf)
  · rw [State.encodeFrame, h3 x fun f hf => Or.inr (by have := (fields_bound h hf).2; omega),
      Memory.read_writeBytes_other (by omega)]

/-- The timestamp fields of a frame just encoded (R156, R159). -/
theorem encodeFrame_timestamps {s : State} {k : FrameKind} (h : layoutHolds s k) (hm : Memory.wf s.fb) :
    ∀ p ∈ timestampFields s k, spanNumber (s.encodeFrame k).fb p.2 = s.ts[p.1].toNat % 2 ^ 32 := by
  have hf := (encodeFrame_spec h hm).2.2.1
  have one : ∀ f ∈ s.fields k, ∀ r, fieldReg f = some r →
      spanNumber (s.encodeFrame k).fb (s.fieldOffset f) = s.ts[r].toNat % 2 ^ 32 := by
    intro f hmem r hr
    rw [spanNumber_eq, hf f hmem, State.fieldValue, hr, lo32_toNat]
  intro p hp
  cases k with
  | poll => simp [timestampFields] at hp
  | response => simp [timestampFields] at hp
  | final =>
    simp only [timestampFields, List.mem_cons, List.not_mem_nil, or_false] at hp
    rcases hp with rfl | rfl | rfl
    · exact one .finalPollTx (by simp [State.fields]) 0 rfl
    · exact one .finalRespRx (by simp [State.fields]) 3 rfl
    · exact one .finalFinalTx (by simp [State.fields]) 4 rfl
  | report =>
    simp only [timestampFields, List.mem_cons, List.not_mem_nil, or_false] at hp
    rcases hp with rfl | rfl
    · exact one .reportPollRx (by simp [State.fields]) 1 rfl
    · exact one .reportRespTx (by simp [State.fields]) 2 rfl

/-- The counter field of a Poll just encoded (R156, R159). -/
theorem encodeFrame_counter {s : State} {k : FrameKind} (h : layoutHolds s k) (hm : Memory.wf s.fb)
    (hc : carriesCounter s k) :
    spanNumber (s.encodeFrame k).fb s.cfg.pollCtrIdx.toNat = s.stsIv.toNat % 2 ^ 32 := by
  obtain ⟨rfl, hs⟩ := hc
  have := (encodeFrame_spec h hm).2.2.1 .pollCtr (by simp [State.fields, hs])
  rw [spanNumber_eq]
  exact (congrArg BitVec.toNat this).trans (by simp [State.fieldValue, fieldReg, State.stsCtr])

/-! ## Decode (R160) -/

theorem headerMatches_iff (s : State) (k : FrameKind) :
    s.headerMatches k = true ↔ ∀ j, j < 10 → Memory.read s.fb j = s.tplByte k j := by
  simp [State.headerMatches]

theorem read_clearSeqByte_same {s : State} (hm : Memory.wf s.fb) : Memory.read s.clearSeqByte.fb 2 = 0 :=
  Memory.read_write_same hm

theorem read_clearSeqByte_other {s : State} {x : Nat} (h : x ≠ 2) :
    Memory.read s.clearSeqByte.fb x = Memory.read s.fb x := Memory.read_write_other h

theorem wf_clearSeqByte {s : State} (hm : Memory.wf s.fb) : Memory.wf s.clearSeqByte.fb :=
  Memory.wf_write hm (by decide)

theorem clearSeqByte_headerMatches {s : State} {k : FrameKind} (hm : Memory.wf s.fb) :
    s.clearSeqByte.headerMatches k = true ↔ prefixMatches s k := by
  rw [headerMatches_iff]
  constructor
  · intro h j hj hj2
    rw [← read_clearSeqByte_other hj2]
    exact h j hj
  · intro h j hj
    by_cases hj2 : j = 2
    · subst hj2
      rw [read_clearSeqByte_same hm]
      rfl
    · rw [read_clearSeqByte_other hj2]
      exact h j hj hj2

/-- What decode answers, by cases. -/
theorem decodeFrame_cases {s : State} (k : FrameKind) (hm : Memory.wf s.fb) :
    (s.fbLen ≠ s.frameLenOf k ∧ s.decodeFrame k = .wrongLength) ∨
    (s.fbLen = s.frameLenOf k ∧ ¬ prefixMatches s k ∧ s.decodeFrame k = .wrongHeader s.clearSeqByte) ∨
    (s.fbLen = s.frameLenOf k ∧ prefixMatches s k ∧
      s.decodeFrame k = .matched (s.clearSeqByte.extractFields (s.fields k))) := by
  by_cases hl : s.fbLen = s.frameLenOf k
  · by_cases hp : prefixMatches s k
    · refine .inr (.inr ⟨hl, hp, ?_⟩)
      rw [State.decodeFrame, if_neg (by simp [hl]), if_pos ((clearSeqByte_headerMatches hm).mpr hp)]
    · refine .inr (.inl ⟨hl, hp, ?_⟩)
      rw [State.decodeFrame, if_neg (by simp [hl]), if_neg (mt (clearSeqByte_headerMatches hm).mp hp)]
  · exact .inl ⟨hl, by rw [State.decodeFrame, if_pos hl]⟩

/-- What decode answers, for any buffer. -/
theorem decodeFrame_shape (s : State) (k : FrameKind) :
    s.decodeFrame k = .wrongLength ∨ s.decodeFrame k = .wrongHeader s.clearSeqByte ∨
      s.decodeFrame k = .matched (s.clearSeqByte.extractFields (s.fields k)) := by
  unfold State.decodeFrame
  split
  · exact .inl rfl
  · split
    · exact .inr (.inr rfl)
    · exact .inr (.inl rfl)

/-- Extraction writes timestamp registers, their tags and `POLL_CTR`, and nothing else. -/
theorem extractFields_frame (s : State) (fs : List FrameField) :
    ∃ a b c, s.extractFields fs = { s with ts := a, tsw := b, pollCtr := c } := by
  have gen : ∀ (fs : List FrameField) (t : State), ∃ a b c,
      fs.foldl (fun t f => t.storeField f (Memory.read32 s.fb (s.fieldOffset f))) t =
        { t with ts := a, tsw := b, pollCtr := c } := by
    intro fs
    induction fs with
    | nil => intro t; exact ⟨t.ts, t.tsw, t.pollCtr, rfl⟩
    | cons f fs ih =>
      intro t
      obtain ⟨a, b, c, h⟩ := ih (t.storeField f (Memory.read32 s.fb (s.fieldOffset f)))
      refine ⟨a, b, c, ?_⟩
      rw [List.foldl_cons, h]
      cases f <;> rfl
  exact gen fs s

/-- The state after a match, kind by kind (R156). -/
theorem extractFields_final (s : State) : s.extractFields (s.fields .final) =
    ((s.setT 0 ((Memory.read32 s.fb s.cfg.finalPollTxIdx.toNat).setWidth 40)).setT 3
      ((Memory.read32 s.fb s.cfg.finalRespRxIdx.toNat).setWidth 40)).setT 4
      ((Memory.read32 s.fb s.cfg.finalFinalTxIdx.toNat).setWidth 40) := rfl

theorem extractFields_report (s : State) : s.extractFields (s.fields .report) =
    (s.setT 1 ((Memory.read32 s.fb s.cfg.reportPollRxIdx.toNat).setWidth 40)).setT 2
      ((Memory.read32 s.fb s.cfg.reportRespTxIdx.toNat).setWidth 40) := rfl

theorem extractFields_response (s : State) : s.extractFields (s.fields .response) = s := rfl

theorem extractFields_poll (s : State) : s.extractFields (s.fields .poll) =
    if s.usesSts then { s with pollCtr := Memory.read32 s.fb s.cfg.pollCtrIdx.toNat } else s := by
  cases h : s.usesSts <;> simp only [State.fields, h] <;> rfl

theorem setT_ts_same (s : State) (r : RegNum) (v : Timestamp) : (s.setT r v).ts[r] = v := by
  simp [State.setT]

theorem setT_ts_other (s : State) {r q : RegNum} (v : Timestamp) (h : q ≠ r) : (s.setT r v).ts[q] = s.ts[q] := by
  have : (r : Nat) ≠ q := fun e => h (Fin.ext e.symm)
  simp [State.setT, Vector.getElem_set_ne, this]

theorem setT_tsw_same (s : State) (r : RegNum) (v : Timestamp) : (s.setT r v).tsw[r] = true := by
  simp [State.setT]

theorem setT_tsw_other (s : State) {r q : RegNum} (v : Timestamp) (h : q ≠ r) : (s.setT r v).tsw[q] = s.tsw[q] := by
  have : (r : Nat) ≠ q := fun e => h (Fin.ext e.symm)
  simp [State.setT, Vector.getElem_set_ne, this]

/-- Where a match puts the fields: each destination holds its span zero-extended, with its tag set; every other
register, and `POLL_CTR` unless the kind carries a counter, is kept (R156, R160). -/
theorem extractFields_spec (s : State) (k : FrameKind) :
    (∀ p ∈ timestampFields s k,
      (s.extractFields (s.fields k)).ts[p.1].toNat = spanNumber s.fb p.2 ∧
      (s.extractFields (s.fields k)).tsw[p.1] = true) ∧
    (∀ r : RegNum, r ∉ (timestampFields s k).map Prod.fst →
      (s.extractFields (s.fields k)).ts[r] = s.ts[r] ∧ (s.extractFields (s.fields k)).tsw[r] = s.tsw[r]) ∧
    (carriesCounter s k →
      (s.extractFields (s.fields k)).pollCtr.toNat = spanNumber s.fb s.cfg.pollCtrIdx.toNat) ∧
    (¬ carriesCounter s k → (s.extractFields (s.fields k)).pollCtr = s.pollCtr) := by
  have num : ∀ a, ((Memory.read32 s.fb a).setWidth 40).toNat = spanNumber s.fb a := by
    intro a
    rw [spanNumber_eq, BitVec.toNat_setWidth, Nat.mod_eq_of_lt]
    exact lt_of_lt_of_le (Memory.read32 s.fb a).isLt (by decide)
  cases k with
  | poll =>
    rw [extractFields_poll]
    cases h : s.usesSts
    · simp [timestampFields, carriesCounter, h]
    · simp [timestampFields, carriesCounter, h, spanNumber_eq]
  | response =>
    rw [extractFields_response]
    simp [timestampFields, carriesCounter]
  | final =>
    rw [extractFields_final]
    refine ⟨?_, ?_, ?_, fun _ => rfl⟩
    · simp only [timestampFields, List.mem_cons, List.not_mem_nil, or_false]
      rintro p (rfl | rfl | rfl)
      · exact ⟨by rw [setT_ts_other _ _ (show (0 : RegNum) ≠ 4 by decide),
            setT_ts_other _ _ (show (0 : RegNum) ≠ 3 by decide), setT_ts_same, num],
          by rw [setT_tsw_other _ _ (show (0 : RegNum) ≠ 4 by decide),
            setT_tsw_other _ _ (show (0 : RegNum) ≠ 3 by decide), setT_tsw_same]⟩
      · exact ⟨by rw [setT_ts_other _ _ (show (3 : RegNum) ≠ 4 by decide), setT_ts_same, num],
          by rw [setT_tsw_other _ _ (show (3 : RegNum) ≠ 4 by decide), setT_tsw_same]⟩
      · exact ⟨by rw [setT_ts_same, num], by rw [setT_tsw_same]⟩
    · simp only [timestampFields, List.map_cons, List.map_nil, List.mem_cons, List.not_mem_nil, or_false, not_or]
      rintro r ⟨h0, h3, h4⟩
      exact ⟨by rw [setT_ts_other _ _ h4, setT_ts_other _ _ h3, setT_ts_other _ _ h0],
        by rw [setT_tsw_other _ _ h4, setT_tsw_other _ _ h3, setT_tsw_other _ _ h0]⟩
    · rintro ⟨h, _⟩; cases h
  | report =>
    rw [extractFields_report]
    refine ⟨?_, ?_, ?_, fun _ => rfl⟩
    · simp only [timestampFields, List.mem_cons, List.not_mem_nil, or_false]
      rintro p (rfl | rfl)
      · exact ⟨by rw [setT_ts_other _ _ (show (1 : RegNum) ≠ 2 by decide), setT_ts_same, num],
          by rw [setT_tsw_other _ _ (show (1 : RegNum) ≠ 2 by decide), setT_tsw_same]⟩
      · exact ⟨by rw [setT_ts_same, num], by rw [setT_tsw_same]⟩
    · simp only [timestampFields, List.map_cons, List.map_nil, List.mem_cons, List.not_mem_nil, or_false, not_or]
      rintro r ⟨h1, h2⟩
      exact ⟨by rw [setT_ts_other _ _ h2, setT_ts_other _ _ h1],
        by rw [setT_tsw_other _ _ h2, setT_tsw_other _ _ h1]⟩
    · rintro ⟨h, _⟩; cases h

/-! ## The codec does not look at the sequencer's state or the ports -/

/-- What a decode answers, with the state it leaves changed. -/
def Decoded.map (f : State → State) : Decoded → Decoded
  | .wrongLength => .wrongLength
  | .wrongHeader u => .wrongHeader (f u)
  | .matched u => .matched (f u)

/-- Decoding commutes with a change of `STATE`, the calls and the responses. -/
theorem decodeFrame_ports (s : State) (k : FrameKind) (x : SeqState) (cs : List HalCall) (rs : List Response) :
    State.decodeFrame { s with state := x, calls := cs, responses := rs } k =
      (s.decodeFrame k).map fun u => { u with state := x, calls := cs, responses := rs } := by
  have hx : ∀ (u : State), State.extractFields { u with state := x, calls := cs, responses := rs } (u.fields k) =
      { u.extractFields (u.fields k) with state := x, calls := cs, responses := rs } := by
    intro u
    cases k with
    | poll => rw [extractFields_poll, show u.fields .poll = State.fields { u with state := x, calls := cs, responses := rs } .poll from rfl, extractFields_poll]; cases h : u.usesSts <;> simp [State.usesSts] at h ⊢ <;> simp [h]
    | response => rfl
    | final => rfl
    | report => rfl
  unfold State.decodeFrame
  show (if s.fbLen ≠ s.frameLenOf k then _ else if s.clearSeqByte.headerMatches k then _ else _) = _
  split
  · rfl
  · split
    · exact congrArg Decoded.matched (hx s.clearSeqByte)
    · rfl

/-- Encoding commutes with a change of `STATE`, the calls and the responses. -/
theorem encodeFrame_ports (s : State) (k : FrameKind) (x : SeqState) (cs : List HalCall) (rs : List Response) :
    State.encodeFrame { s with state := x, calls := cs, responses := rs } k =
      { s.encodeFrame k with state := x, calls := cs, responses := rs } := rfl

end Sys2Proof.Machine
end

