-- ==== Sys2Proof/Laws/Encoding.lean ====
section
/-! SUPPORT. The formats of the command word, bit by bit: an encoded word under its mask, and a word whose masked
bits match rebuilt from its fields (spec/30_encoding.md R81, R82). -/

namespace Sys2Proof

theorem kindOfBits_kindBits (k : FrameKind) : kindOfBits (kindBits k) = k := by cases k <;> rfl

theorem kindBits_kindOfBits (b : BitVec 2) : kindBits (kindOfBits b) = b := by revert b; decide

/-- A word is its bits under a mask and its bits outside it. -/
theorem word_of_masked {w m v : CmdWord} (h : w &&& m = v) : w = v ||| (w &&& ~~~m) := by
  subst h
  ext i hi
  simp only [BitVec.getElem_or, BitVec.getElem_and, BitVec.getElem_not]
  cases w[i] <;> cases m[i] <;> rfl

theorem encN_bit (op : BitVec 8) (i : Nat) :
    (encN op).getLsbD i = if i < 24 then (0#24).getLsbD i else op.getLsbD (i - 24) :=
  BitVec.getLsbD_append

theorem encR1_bit (op : BitVec 8) (rd : RegNum) (i : Nat) :
    (encR1 op rd).getLsbD i = if i < 20 then (0#20).getLsbD i else (op ++ 0#1 ++ regBits rd).getLsbD (i - 20) :=
  BitVec.getLsbD_append

theorem encR2_bit (op : BitVec 8) (rd ra : RegNum) (i : Nat) :
    (encR2 op rd ra).getLsbD i =
      if i < 16 then (0#16).getLsbD i else (op ++ 0#1 ++ regBits rd ++ 0#1 ++ regBits ra).getLsbD (i - 16) :=
  BitVec.getLsbD_append

theorem encR3_bit (op : BitVec 8) (rd ra rb : RegNum) (i : Nat) :
    (encR3 op rd ra rb).getLsbD i =
      if i < 12 then (0#12).getLsbD i
      else (op ++ 0#1 ++ regBits rd ++ 0#1 ++ regBits ra ++ 0#1 ++ regBits rb).getLsbD (i - 12) :=
  BitVec.getLsbD_append

theorem encRC_bit (op : BitVec 8) (ra rb : RegNum) (i : Nat) :
    (encRC op ra rb).getLsbD i =
      if i < 12 then (0#12).getLsbD i
      else (op ++ 0#5 ++ regBits ra ++ 0#1 ++ regBits rb).getLsbD (i - 12) :=
  BitVec.getLsbD_append

theorem encK_bit (op : BitVec 8) (k : FrameKind) (i : Nat) :
    (encK op k).getLsbD i = if i < 16 then (0#16).getLsbD i else (op ++ 0#6 ++ kindBits k).getLsbD (i - 16) :=
  BitVec.getLsbD_append

theorem encFO_bit (op : BitVec 8) (r : RegNum) (off : BitVec 8) (i : Nat) :
    (encFO op r off).getLsbD i =
      if i < 8 then (0#8).getLsbD i else (op ++ 0#1 ++ regBits r ++ 0#4 ++ off).getLsbD (i - 8) :=
  BitVec.getLsbD_append

theorem encO_bit (op : BitVec 8) (off : BitVec 8) (i : Nat) :
    (encO op off).getLsbD i = if i < 8 then (0#8).getLsbD i else (op ++ 0#8 ++ off).getLsbD (i - 8) :=
  BitVec.getLsbD_append

theorem encC_bit (op idx : BitVec 8) (i : Nat) :
    (encC op idx).getLsbD i = if i < 16 then (0#16).getLsbD i else (op ++ idx).getLsbD (i - 16) :=
  BitVec.getLsbD_append

theorem regBits_field (w : CmdWord) (n : Nat) :
    regBits (w.extractLsb' n 3).toFin = w.extractLsb' n 3 := rfl

/-! ## A word rebuilt from its fields -/

theorem encN_fields (op : BitVec 8) (w : CmdWord) :
    encN op = op.setWidth 32 <<< 24 ||| (w &&& ~~~maskN) := by
  refine BitVec.eq_of_getLsbD_eq fun i hi => ?_
  rw [encN_bit]
  simp only [BitVec.getLsbD_or, BitVec.getLsbD_and]
  interval_cases i <;> simp

theorem encR1_fields (op : BitVec 8) (w : CmdWord) :
    encR1 op (fieldRd w) = op.setWidth 32 <<< 24 ||| (w &&& ~~~maskR1) := by
  refine BitVec.eq_of_getLsbD_eq fun i hi => ?_
  rw [encR1_bit]
  simp only [fieldRd, regBits_field, BitVec.getLsbD_append, BitVec.getLsbD_or, BitVec.getLsbD_and]
  interval_cases i <;> simp

theorem encR2_fields (op : BitVec 8) (w : CmdWord) :
    encR2 op (fieldRd w) (fieldRa w) = op.setWidth 32 <<< 24 ||| (w &&& ~~~maskR2) := by
  refine BitVec.eq_of_getLsbD_eq fun i hi => ?_
  rw [encR2_bit]
  simp only [fieldRd, fieldRa, regBits_field, BitVec.getLsbD_append, BitVec.getLsbD_or, BitVec.getLsbD_and]
  interval_cases i <;> simp

theorem encR3_fields (op : BitVec 8) (w : CmdWord) :
    encR3 op (fieldRd w) (fieldRa w) (fieldRb w) = op.setWidth 32 <<< 24 ||| (w &&& ~~~maskR3) := by
  refine BitVec.eq_of_getLsbD_eq fun i hi => ?_
  rw [encR3_bit]
  simp only [fieldRd, fieldRa, fieldRb, regBits_field, BitVec.getLsbD_append, BitVec.getLsbD_or, BitVec.getLsbD_and]
  interval_cases i <;> simp

theorem encRC_fields (op : BitVec 8) (w : CmdWord) :
    encRC op (fieldRa w) (fieldRb w) = op.setWidth 32 <<< 24 ||| (w &&& ~~~maskRC) := by
  refine BitVec.eq_of_getLsbD_eq fun i hi => ?_
  rw [encRC_bit]
  simp only [fieldRa, fieldRb, regBits_field, BitVec.getLsbD_append, BitVec.getLsbD_or, BitVec.getLsbD_and]
  interval_cases i <;> simp

theorem encK_fields (op : BitVec 8) (w : CmdWord) :
    encK op (fieldKind w) = op.setWidth 32 <<< 24 ||| (w &&& ~~~maskK) := by
  refine BitVec.eq_of_getLsbD_eq fun i hi => ?_
  rw [encK_bit]
  simp only [fieldKind, kindBits_kindOfBits, BitVec.getLsbD_append, BitVec.getLsbD_or, BitVec.getLsbD_and]
  interval_cases i <;> simp

theorem encFO_fields (op : BitVec 8) (w : CmdWord) :
    encFO op (fieldRd w) (fieldOff w) = op.setWidth 32 <<< 24 ||| (w &&& ~~~maskFO) := by
  refine BitVec.eq_of_getLsbD_eq fun i hi => ?_
  rw [encFO_bit]
  simp only [fieldRd, fieldOff, regBits_field, BitVec.getLsbD_append, BitVec.getLsbD_or, BitVec.getLsbD_and]
  interval_cases i <;> simp

theorem encO_fields (op : BitVec 8) (w : CmdWord) :
    encO op (fieldOff w) = op.setWidth 32 <<< 24 ||| (w &&& ~~~maskO) := by
  refine BitVec.eq_of_getLsbD_eq fun i hi => ?_
  rw [encO_bit]
  simp only [fieldOff, BitVec.getLsbD_append, BitVec.getLsbD_or, BitVec.getLsbD_and]
  interval_cases i <;> simp

theorem encC_fields (op : BitVec 8) (w : CmdWord) :
    encC op (fieldIdx w) = op.setWidth 32 <<< 24 ||| (w &&& ~~~maskC) := by
  refine BitVec.eq_of_getLsbD_eq fun i hi => ?_
  rw [encC_bit]
  simp only [fieldIdx, BitVec.getLsbD_append, BitVec.getLsbD_or, BitVec.getLsbD_and]
  interval_cases i <;> simp

/-! ## The bits under the mask of an encoded word, and its opcode -/

theorem encN_mask (op : BitVec 8) :
    encN op &&& maskN = op.setWidth 32 <<< 24 := by
  refine BitVec.eq_of_getLsbD_eq fun i hi => ?_
  rw [BitVec.getLsbD_and, encN_bit]
  interval_cases i <;> simp

theorem encN_opcode (op : BitVec 8) : opcode (encN op) = op := by
  refine BitVec.eq_of_getLsbD_eq fun i hi => ?_
  rw [opcode, BitVec.getLsbD_extractLsb', encN_bit]
  interval_cases i <;> simp

theorem encR1_mask (op : BitVec 8) (rd : RegNum) :
    encR1 op rd &&& maskR1 = op.setWidth 32 <<< 24 := by
  refine BitVec.eq_of_getLsbD_eq fun i hi => ?_
  rw [BitVec.getLsbD_and, encR1_bit]
  simp only [BitVec.getLsbD_append]
  interval_cases i <;> simp

theorem encR1_opcode (op : BitVec 8) (rd : RegNum) : opcode (encR1 op rd) = op := by
  refine BitVec.eq_of_getLsbD_eq fun i hi => ?_
  rw [opcode, BitVec.getLsbD_extractLsb', encR1_bit]
  simp only [BitVec.getLsbD_append]
  interval_cases i <;> simp

theorem encR2_mask (op : BitVec 8) (rd : RegNum) (ra : RegNum) :
    encR2 op rd ra &&& maskR2 = op.setWidth 32 <<< 24 := by
  refine BitVec.eq_of_getLsbD_eq fun i hi => ?_
  rw [BitVec.getLsbD_and, encR2_bit]
  simp only [BitVec.getLsbD_append]
  interval_cases i <;> simp

theorem encR2_opcode (op : BitVec 8) (rd : RegNum) (ra : RegNum) : opcode (encR2 op rd ra) = op := by
  refine BitVec.eq_of_getLsbD_eq fun i hi => ?_
  rw [opcode, BitVec.getLsbD_extractLsb', encR2_bit]
  simp only [BitVec.getLsbD_append]
  interval_cases i <;> simp

theorem encR3_mask (op : BitVec 8) (rd : RegNum) (ra : RegNum) (rb : RegNum) :
    encR3 op rd ra rb &&& maskR3 = op.setWidth 32 <<< 24 := by
  refine BitVec.eq_of_getLsbD_eq fun i hi => ?_
  rw [BitVec.getLsbD_and, encR3_bit]
  simp only [BitVec.getLsbD_append]
  interval_cases i <;> simp

theorem encR3_opcode (op : BitVec 8) (rd : RegNum) (ra : RegNum) (rb : RegNum) : opcode (encR3 op rd ra rb) = op := by
  refine BitVec.eq_of_getLsbD_eq fun i hi => ?_
  rw [opcode, BitVec.getLsbD_extractLsb', encR3_bit]
  simp only [BitVec.getLsbD_append]
  interval_cases i <;> simp

theorem encRC_mask (op : BitVec 8) (ra : RegNum) (rb : RegNum) :
    encRC op ra rb &&& maskRC = op.setWidth 32 <<< 24 := by
  refine BitVec.eq_of_getLsbD_eq fun i hi => ?_
  rw [BitVec.getLsbD_and, encRC_bit]
  simp only [BitVec.getLsbD_append]
  interval_cases i <;> simp

theorem encRC_opcode (op : BitVec 8) (ra : RegNum) (rb : RegNum) : opcode (encRC op ra rb) = op := by
  refine BitVec.eq_of_getLsbD_eq fun i hi => ?_
  rw [opcode, BitVec.getLsbD_extractLsb', encRC_bit]
  simp only [BitVec.getLsbD_append]
  interval_cases i <;> simp

theorem encK_mask (op : BitVec 8) (k : FrameKind) :
    encK op k &&& maskK = op.setWidth 32 <<< 24 := by
  refine BitVec.eq_of_getLsbD_eq fun i hi => ?_
  rw [BitVec.getLsbD_and, encK_bit]
  simp only [BitVec.getLsbD_append]
  interval_cases i <;> simp

theorem encK_opcode (op : BitVec 8) (k : FrameKind) : opcode (encK op k) = op := by
  refine BitVec.eq_of_getLsbD_eq fun i hi => ?_
  rw [opcode, BitVec.getLsbD_extractLsb', encK_bit]
  simp only [BitVec.getLsbD_append]
  interval_cases i <;> simp

theorem encFO_mask (op : BitVec 8) (r : RegNum) (off : BitVec 8) :
    encFO op r off &&& maskFO = op.setWidth 32 <<< 24 := by
  refine BitVec.eq_of_getLsbD_eq fun i hi => ?_
  rw [BitVec.getLsbD_and, encFO_bit]
  simp only [BitVec.getLsbD_append]
  interval_cases i <;> simp

theorem encFO_opcode (op : BitVec 8) (r : RegNum) (off : BitVec 8) : opcode (encFO op r off) = op := by
  refine BitVec.eq_of_getLsbD_eq fun i hi => ?_
  rw [opcode, BitVec.getLsbD_extractLsb', encFO_bit]
  simp only [BitVec.getLsbD_append]
  interval_cases i <;> simp

theorem encO_mask (op : BitVec 8) (off : BitVec 8) :
    encO op off &&& maskO = op.setWidth 32 <<< 24 := by
  refine BitVec.eq_of_getLsbD_eq fun i hi => ?_
  rw [BitVec.getLsbD_and, encO_bit]
  simp only [BitVec.getLsbD_append]
  interval_cases i <;> simp

theorem encO_opcode (op : BitVec 8) (off : BitVec 8) : opcode (encO op off) = op := by
  refine BitVec.eq_of_getLsbD_eq fun i hi => ?_
  rw [opcode, BitVec.getLsbD_extractLsb', encO_bit]
  simp only [BitVec.getLsbD_append]
  interval_cases i <;> simp

theorem encC_mask (op : BitVec 8) (idx : BitVec 8) :
    encC op idx &&& maskC = op.setWidth 32 <<< 24 := by
  refine BitVec.eq_of_getLsbD_eq fun i hi => ?_
  rw [BitVec.getLsbD_and, encC_bit]
  simp only [BitVec.getLsbD_append]
  interval_cases i <;> simp

theorem encC_opcode (op : BitVec 8) (idx : BitVec 8) : opcode (encC op idx) = op := by
  refine BitVec.eq_of_getLsbD_eq fun i hi => ?_
  rw [opcode, BitVec.getLsbD_extractLsb', encC_bit]
  simp only [BitVec.getLsbD_append]
  interval_cases i <;> simp

end Sys2Proof
end

