-- ==== Sys2Proof/Laws/Estimator.lean ====
section
/-! SUPPORT. The estimator as exact arithmetic: the value of a binary32 pattern, the two estimates, the integer
view. -/

namespace Sys2Proof.Machine

theorem exponent_toNat (k : BitVec 32) : (k.extractLsb' 23 8).toNat = k.toNat / 2 ^ 23 % 2 ^ 8 := by
  rw [BitVec.extractLsb'_toNat, Nat.shiftRight_eq_div_pow]

theorem fraction_toNat (k : BitVec 32) : (k.extractLsb' 0 23).toNat = k.toNat % 2 ^ 23 := by
  rw [BitVec.extractLsb'_toNat, Nat.shiftRight_zero]

/-- A non-finite pattern has no value (R141). -/
theorem f32Value_nonFinite {k : BitVec 32} (h : nonFinite k) : f32Value k = none := by
  have he := (exponent_toNat k).trans h
  simp only [f32Value, he, if_true]

/-- A finite pattern has the value that R141 writes. -/
theorem f32Value_finite {k : BitVec 32} (h : ¬ nonFinite k) : f32Value k = some (ratioOfPattern k) := by
  have hs : k.msb = k.getLsbD 31 := by rw [BitVec.msb_eq_getLsbD_last]
  have he : k.toNat / 2 ^ 23 % 2 ^ 8 ≠ 255 := h
  simp only [f32Value, ratioOfPattern, exponent_toNat, fraction_toNat, hs]
  revert he
  generalize k.toNat / 2 ^ 23 % 2 ^ 8 = e
  generalize k.toNat % 2 ^ 23 = f
  intro he
  rw [if_neg he]
  congr 1
  by_cases h0 : e = 0
  · simp only [h0, if_true, Rat.mkRat_eq_div]
    push_cast
    have : (2 : ℚ) ^ (-126 : ℤ) = 1 / 2 ^ 126 := by rw [zpow_neg]; norm_num
    rw [this]
    split <;> ring
  · simp only [h0, if_false, Rat.mkRat_eq_div]
    have hz : (2 : ℚ) ^ ((e : ℤ) - 127) = 2 ^ e / 2 ^ 127 := by
      rw [zpow_sub₀ (by norm_num), zpow_natCast]; norm_num
    rw [hz]
    push_cast
    split <;> ring

theorem ratOfNat_eq (n : Nat) : ratOfNat n = (n : ℚ) := by
  rw [ratOfNat, Rat.mkRat_eq_div]; simp

/-- The single-sided estimate of the deltas (R143). -/
theorem tofSingle_eq (ra rb : Delta) (k : ℚ) :
    tofSingle ra rb k = ((ra.toNat : ℚ) - (rb.toNat : ℚ) * (1 - k)) / 2 := by
  rw [tofSingle, ratOfNat_eq, ratOfNat_eq]

theorem delta32_zero_iff (s : State) (a b : RegNum) : delta32 s.ts[a] s.ts[b] = 0 ↔ s.delta a b = 0 := by
  rw [← delta32_eq_delta, ← BitVec.toNat_inj]; rfl

/-- What the single-sided estimate answers, by cases (R143, R145). -/
theorem State.estimateSingle_cases (s : State) :
    (nonFinite s.k ∧ s.estimateSingle = .badK) ∨
    (¬ nonFinite s.k ∧ (s.delta 3 0 = 0 ∧ s.delta 2 1 = 0) ∧ s.estimateSingle = .degenerate) ∨
    (¬ nonFinite s.k ∧ ¬ (s.delta 3 0 = 0 ∧ s.delta 2 1 = 0) ∧
      s.estimateSingle = .tof (((s.delta 3 0 : ℚ) - (s.delta 2 1 : ℚ) * (1 - ratioOfPattern s.k)) / 2)) := by
  have e1 := delta32_zero_iff s 3 0
  have e2 := delta32_zero_iff s 2 1
  have d1 := delta32_eq_delta s 3 0
  have d2 := delta32_eq_delta s 2 1
  by_cases hk : nonFinite s.k
  · exact .inl ⟨hk, by simp only [State.estimateSingle, f32Value_nonFinite hk]⟩
  · by_cases hd : s.delta 3 0 = 0 ∧ s.delta 2 1 = 0
    · refine .inr (.inl ⟨hk, hd, ?_⟩)
      simp only [State.estimateSingle, f32Value_finite hk]
      exact if_pos ⟨e1.mpr hd.1, e2.mpr hd.2⟩
    · refine .inr (.inr ⟨hk, hd, ?_⟩)
      simp only [State.estimateSingle, f32Value_finite hk]
      rw [← d1, ← d2, ← tofSingle_eq]
      exact if_neg fun h => hd ⟨e1.mp h.1, e2.mp h.2⟩

/-- What the double-sided estimate answers, by cases (R144, R145). -/
theorem State.estimateDouble_cases (s : State) :
    (s.delta 3 0 + s.delta 5 2 + s.delta 4 3 + s.delta 2 1 = 0 ∧ s.estimateDouble = .degenerate) ∨
    (s.delta 3 0 + s.delta 5 2 + s.delta 4 3 + s.delta 2 1 ≠ 0 ∧
      s.estimateDouble = .tof
        (((s.delta 3 0 : ℚ) * s.delta 5 2 - (s.delta 4 3 : ℚ) * s.delta 2 1) /
          ((s.delta 3 0 : ℚ) + s.delta 5 2 + s.delta 4 3 + s.delta 2 1))) := by
  have hden : denDouble (delta32 s.ts[3] s.ts[0]) (delta32 s.ts[5] s.ts[2]) (delta32 s.ts[4] s.ts[3])
      (delta32 s.ts[2] s.ts[1]) = s.delta 3 0 + s.delta 5 2 + s.delta 4 3 + s.delta 2 1 := by
    rw [denDouble]
    exact congr (congrArg _ (congr (congrArg _ (congr (congrArg _ (delta32_eq_delta s 3 0))
      (delta32_eq_delta s 5 2))) (delta32_eq_delta s 4 3))) (delta32_eq_delta s 2 1)
  have hnum : numDouble (delta32 s.ts[3] s.ts[0]) (delta32 s.ts[5] s.ts[2]) (delta32 s.ts[4] s.ts[3])
      (delta32 s.ts[2] s.ts[1]) = (s.delta 3 0 : ℤ) * s.delta 5 2 - (s.delta 4 3 : ℤ) * s.delta 2 1 := by
    rw [numDouble, ← delta32_eq_delta, ← delta32_eq_delta, ← delta32_eq_delta, ← delta32_eq_delta]
    rfl
  by_cases h : s.delta 3 0 + s.delta 5 2 + s.delta 4 3 + s.delta 2 1 = 0
  · exact .inl ⟨h, by simp only [State.estimateDouble, hden, h, if_true]⟩
  · refine .inr ⟨h, ?_⟩
    simp only [State.estimateDouble, hden, h, if_false, hnum, Rat.mkRat_eq_div]
    push_cast
    rfl

/-- A quotient of products of bounded deltas is below 2^32 (R144). -/
theorem quotient_bound {ra rb da db : Nat} (h1 : ra < 2 ^ 32) (h2 : rb < 2 ^ 32) (h3 : da < 2 ^ 32) (h4 : db < 2 ^ 32)
    (hd : ra + rb + da + db ≠ 0) :
    |((ra : ℚ) * rb - (da : ℚ) * db) / ((ra : ℚ) + rb + da + db)| < 2 ^ 32 := by
  have hpos : (0 : ℚ) < (ra : ℚ) + rb + da + db := by
    have : 0 < ra + rb + da + db := Nat.pos_of_ne_zero hd
    exact_mod_cast this
  have q1 : (ra : ℚ) < 2 ^ 32 := by exact_mod_cast h1
  have q2 : (rb : ℚ) < 2 ^ 32 := by exact_mod_cast h2
  have q3 : (da : ℚ) < 2 ^ 32 := by exact_mod_cast h3
  have q4 : (db : ℚ) < 2 ^ 32 := by exact_mod_cast h4
  have p1 : (0 : ℚ) ≤ ra := by positivity
  have p2 : (0 : ℚ) ≤ rb := by positivity
  have p3 : (0 : ℚ) ≤ da := by positivity
  have p4 : (0 : ℚ) ≤ db := by positivity
  have m1 : (ra : ℚ) * rb ≤ ra * 2 ^ 32 := mul_le_mul_of_nonneg_left q2.le p1
  have m2 : (da : ℚ) * db ≤ da * 2 ^ 32 := mul_le_mul_of_nonneg_left q4.le p3
  have n1 : (0 : ℚ) ≤ (ra : ℚ) * rb := mul_nonneg p1 p2
  have n2 : (0 : ℚ) ≤ (da : ℚ) * db := mul_nonneg p3 p4
  have s1 : (ra : ℚ) * rb ≤ rb * 2 ^ 32 := by rw [mul_comm]; exact mul_le_mul_of_nonneg_left q1.le p2
  have s2 : (da : ℚ) * db ≤ db * 2 ^ 32 := by rw [mul_comm]; exact mul_le_mul_of_nonneg_left q3.le p4
  rw [abs_div, abs_of_pos hpos, div_lt_iff₀ hpos, abs_lt]
  constructor <;> linarith

theorem State.delta_lt (s : State) (a b : RegNum) : s.delta a b < 2 ^ 32 := Nat.mod_lt _ (by decide)

/-- Rounding toward zero is the floor of a non-negative and the ceiling of a negative rational (R11, R146). -/
theorem trunc0_eq (q : ℚ) : trunc0 q = if 0 ≤ q then ⌊q⌋ else ⌈q⌉ := by
  have hd : (0 : ℤ) < q.den := by exact_mod_cast q.den_pos
  rw [trunc0]
  split
  · rename_i h
    rw [Int.tdiv_eq_ediv_of_nonneg (Rat.num_nonneg.mpr h)]
    exact Rat.floor_def'.symm
  · rename_i h
    have hn : 0 ≤ (-q).num := Rat.num_nonneg.mpr (by linarith)
    have hf : ⌊-q⌋ = (-q).num / (-q).den := Rat.floor_def'
    rw [show ⌈q⌉ = -⌊-q⌋ by rw [Int.floor_neg, neg_neg], hf, ← Int.tdiv_eq_ediv_of_nonneg hn, Rat.neg_num,
      Rat.neg_den, Int.neg_tdiv, neg_neg]

end Sys2Proof.Machine
end

