-- ==== Sys2Proof/Laws/RegisterMap.lean ====
section
/-! SUPPORT. The register map: the views as numbers, a register read after a write, the indexes that name none. -/

namespace Sys2Proof.Machine

theorem bit_toNat (b : Bool) : (bit b).toNat = b.toNat := by cases b <;> rfl

/-- Bits put above a view of `w` bits. -/
theorem append_toNat {n w : Nat} (x : BitVec n) (y : BitVec w) : (x ++ y).toNat = x.toNat * 2 ^ w + y.toNat := by
  rw [BitVec.toNat_append, Nat.shiftLeft_eq, Nat.mul_comm, ← Nat.two_pow_add_eq_or_of_lt y.isLt]

/-- `STATUS` as a number (spec/10_state.md R38). -/
theorem statusView_toNat (s : State) : s.statusView.toNat = registerReadings.statusNumber s := by
  have h : s.tagBits.toNat = s.tsw[7].toNat * 2 ^ 7 + s.tsw[6].toNat * 2 ^ 6 + s.tsw[5].toNat * 2 ^ 5
      + s.tsw[4].toNat * 2 ^ 4 + s.tsw[3].toNat * 2 ^ 3 + s.tsw[2].toNat * 2 ^ 2 + s.tsw[1].toNat * 2
      + s.tsw[0].toNat := by
    unfold State.tagBits
    simp only [append_toNat, bit_toNat]
    ring
  unfold registerReadings.statusNumber
  have e : s.statusView = s.tagBits ++ bit s.ivSet ++ bit s.keySet ++ bit s.session ++ bit s.firstDone
    ++ bit s.resyncPending ++ bit s.tofValid ++ s.outcome.code ++ s.state.code := rfl
  rw [e]
  simp only [append_toNat, bit_toNat, h]
  ring

/-- A template is stored with byte 2 as 0 (R37). -/
theorem tplStored_toNat (v : BitVec 80) : (tplStored v).toNat = registerReadings.templateNumber v := by
  have e : tplStored v = v.extractLsb' 24 56 ++ 0#8 ++ v.extractLsb' 0 16 := by
    refine BitVec.eq_of_getLsbD_eq fun i hi => ?_
    rw [tplStored, BitVec.getLsbD_and]
    simp only [BitVec.getLsbD_append, BitVec.getLsbD_extractLsb']
    interval_cases i <;> simp
  have := v.isLt
  rw [e]
  simp only [append_toNat, BitVec.extractLsb'_toNat, Nat.shiftRight_eq_div_pow, registerReadings.templateNumber,
    BitVec.toNat_ofNat]
  omega

/-- A write of one register does not change what another reads as. -/
theorem readReg_writeReg_other {s : State} {r q : CfgReg} (h : q ≠ r) : (s.writeReg r).readReg q = s.readReg q := by
  cases r <;> cases q <;> first
    | rfl
    | exact absurd rfl h
    | simp [State.readReg, State.writeReg]

/-- The width of a register (R36). -/
def regWidth : CfgReg → Nat
  | .ctrl => 4
  | .status => 22
  | .respDelay | .finalDelay | .txAntDly => 40
  | .dPoll | .dResp | .dFinal | .toPoll | .toResp | .toFinal | .toAck | .stsCtrInc | .cntBadFrame | .cntBadSts
  | .cntRxTimeout | .cntRxError | .pollCtr | .stsCtr | .k => 32
  | .seq | .frameLenPoll | .frameLenResponse | .frameLenFinal | .frameLenReport | .pollCtrIdx | .finalPollTxIdx
  | .finalRespRxIdx | .finalFinalTxIdx | .reportPollRxIdx | .reportRespTxIdx | .aesMicLen | .aesErrMask
  | .fcsLen => 8
  | .tplPoll | .tplResponse | .tplFinal | .tplReport => 80
  | .stsScore | .aesFrameLen | .aesHdrLen | .aesBufCap => 16
  | .aesCtr | .aesSrc => 48
  | .aesMode => 1

/-- A writable register that is no template reads back as the low bits of the operand (R37). -/
theorem readReg_writeReg_same {s : State} {r : CfgReg} (hr : regClass r ≠ .ro)
    (ht : r ∉ [CfgReg.tplPoll, .tplResponse, .tplFinal, .tplReport]) :
    (s.writeReg r).readReg r = (s.opndLow (regWidth r)).setWidth 128 := by
  cases r <;> first
    | rfl
    | exact absurd rfl hr
    | (simp [State.readReg, State.writeReg, regWidth]; done)
    | exact absurd (by simp) ht

/-- A template reads back with byte 2 as 0. -/
theorem readReg_writeReg_template {s : State} {r : CfgReg}
    (ht : r ∈ [CfgReg.tplPoll, .tplResponse, .tplFinal, .tplReport]) :
    ((s.writeReg r).readReg r).toNat =
      s.opnd.toNat % 2 ^ 16 + 2 ^ 24 * (s.opnd.toNat % 2 ^ 80 / 2 ^ 24) := by
  have idem : ∀ v, tplStored (tplStored v) = tplStored v := by
    intro v
    rw [tplStored, tplStored, BitVec.and_assoc, BitVec.and_self]
  have num : ((tplStored (s.opndLow 80)).setWidth 128).toNat =
      s.opnd.toNat % 2 ^ 16 + 2 ^ 24 * (s.opnd.toNat % 2 ^ 80 / 2 ^ 24) := by
    have := (tplStored (s.opndLow 80)).isLt
    rw [BitVec.toNat_setWidth, Nat.mod_eq_of_lt (by omega), tplStored_toNat, registerReadings.templateNumber,
      State.opndLow_toNat]
    omega
  simp only [List.mem_cons, List.not_mem_nil, or_false] at ht
  rcases ht with rfl | rfl | rfl | rfl <;> simp only [State.readReg, State.writeReg, Vector.getElem_set_self, idem] <;>
    exact num

/-- A register write changes `SEQ`, `K`, the configuration or the AES operands, and nothing else. -/
theorem writeReg_frame (s : State) (r : CfgReg) :
    s.writeReg r = { s with
      seq := (s.writeReg r).seq, k := (s.writeReg r).k, cfg := (s.writeReg r).cfg, aes := (s.writeReg r).aes } := by
  cases r <;> rfl

/-- A class `opd` register is not part of the configuration. -/
theorem writeReg_cfg_of_opd {s : State} {r : CfgReg} (h : regClass r = .opd) : (s.writeReg r).cfg = s.cfg := by
  cases r <;> first | rfl | cases h

/-- Templates stay stored with byte 2 as 0 (R25). -/
theorem tplStored_byte2 (v : BitVec 80) : (tplStored v).extractLsb' 16 8 = 0 := by
  refine BitVec.eq_of_getLsbD_eq fun i hi => ?_
  rw [BitVec.getLsbD_extractLsb', tplStored, BitVec.getLsbD_and]
  interval_cases i <;> simp

/-- The index of a register (R36). -/
def indexOf : CfgReg → BitVec 8
  | .ctrl => 0x00 | .status => 0x01 | .seq => 0x02 | .respDelay => 0x03 | .finalDelay => 0x04 | .txAntDly => 0x05
  | .dPoll => 0x06 | .dResp => 0x07 | .dFinal => 0x08 | .toPoll => 0x09 | .toResp => 0x0A | .toFinal => 0x0B
  | .toAck => 0x0C | .stsCtrInc => 0x0D | .frameLenPoll => 0x10 | .frameLenResponse => 0x11
  | .frameLenFinal => 0x12 | .frameLenReport => 0x13 | .pollCtrIdx => 0x14 | .finalPollTxIdx => 0x15
  | .finalRespRxIdx => 0x16 | .finalFinalTxIdx => 0x17 | .reportPollRxIdx => 0x18 | .reportRespTxIdx => 0x19
  | .tplPoll => 0x20 | .tplResponse => 0x21 | .tplFinal => 0x22 | .tplReport => 0x23 | .cntBadFrame => 0x30
  | .cntBadSts => 0x31 | .cntRxTimeout => 0x32 | .cntRxError => 0x33 | .stsScore => 0x34 | .pollCtr => 0x35
  | .stsCtr => 0x36 | .k => 0x37 | .aesCtr => 0x40 | .aesSrc => 0x41 | .aesFrameLen => 0x42 | .aesHdrLen => 0x43
  | .aesMicLen => 0x44 | .aesMode => 0x45 | .aesBufCap => 0x46 | .aesErrMask => 0x47 | .fcsLen => 0x48

theorem regOf_indexOf (r : CfgReg) : regOf (indexOf r) = some r := by cases r <;> rfl

/-- An index names at most one register, and that register is named by it alone. -/
theorem indexOf_regOf {idx : BitVec 8} {r : CfgReg} (h : regOf idx = some r) : indexOf r = idx := by
  have all : ∀ idx : BitVec 8, (regOf idx).map indexOf = none ∨ (regOf idx).map indexOf = some idx := by decide
  rcases all idx with h' | h' <;> rw [h] at h' <;> simp at h'
  exact h'

theorem regAt_some {s : State} {idx : BitVec 8} {r : CfgReg} :
    s.regAt idx = some r ↔ regOf idx = some r ∧ (regIsAes r = true → s.hasAes = true) := by
  unfold State.regAt
  cases regOf idx with
  | none => simp
  | some q =>
    by_cases h : regIsAes q = true <;> by_cases ha : s.hasAes = true <;> simp [h, ha] <;> rintro rfl <;>
      first | exact h | simpa using h

theorem regAt_none {s : State} {idx : BitVec 8} :
    s.regAt idx = none ↔ ∀ r, regOf idx = some r → regIsAes r = true ∧ s.hasAes = false := by
  unfold State.regAt
  cases regOf idx with
  | none => simp
  | some q => cases h : regIsAes q <;> cases ha : s.hasAes <;> simp [h]

/-- The writable registers as the statements list them are those of the map that are not read-only. -/
theorem mem_writableRegisters {idx : BitVec 8} {bits : Nat} {isCfg : Bool} :
    (idx, bits, isCfg) ∈ writableRegisters ↔
      ∃ r, regOf idx = some r ∧ regClass r ≠ .ro ∧ bits = regWidth r ∧ isCfg = decide (regClass r = .cfg) := by
  have h1 : ∀ p ∈ writableRegisters, (regOf p.1).any (fun r =>
      decide (regClass r ≠ .ro ∧ p.2.1 = regWidth r ∧ p.2.2 = decide (regClass r = .cfg))) = true := by decide
  have h2 : ∀ r : CfgReg, regClass r ≠ .ro →
      (indexOf r, regWidth r, decide (regClass r = .cfg)) ∈ writableRegisters := by
    intro r
    cases r <;> decide
  constructor
  · intro h
    have := h1 _ h
    cases hr : regOf idx with
    | none => simp [hr] at this
    | some r => rw [hr] at this; exact ⟨r, rfl, by simpa using this⟩
  · rintro ⟨r, hr, hc, rfl, rfl⟩
    rw [← indexOf_regOf hr]
    exact h2 r hc

theorem aesIndex_iff {idx : BitVec 8} {r : CfgReg} (h : regOf idx = some r) : aesIndex idx ↔ regIsAes r = true := by
  have := indexOf_regOf h
  subst this
  cases r <;> decide

theorem templateIndex_iff {idx : BitVec 8} {r : CfgReg} (h : regOf idx = some r) :
    (0x20 ≤ idx.toNat ∧ idx.toNat ≤ 0x23) ↔ r ∈ [CfgReg.tplPoll, .tplResponse, .tplFinal, .tplReport] := by
  have := indexOf_regOf h
  subst this
  cases r <;> decide

end Sys2Proof.Machine
end

