-- ==== Sys2Proof/Laws/Sts.lean ====
section
/-! SUPPORT. The STS manager as numbers: the counter inside the IV, the exchange-start action, the
resynchronisation. -/

namespace Sys2Proof.Machine

/-- An IV built from its upper 96 bits and a counter. -/
theorem joinIv_toNat (hi : BitVec 96) (lo : BitVec 32) : (hi ++ lo).toNat = hi.toNat * 2 ^ 32 + lo.toNat := by
  rw [BitVec.toNat_append, Nat.shiftLeft_eq, Nat.mul_comm, ← Nat.two_pow_add_eq_or_of_lt lo.isLt]

theorem upperIv_toNat (v : BitVec 128) : (v.extractLsb' 32 96).toNat = v.toNat / 2 ^ 32 := by
  have := v.isLt
  rw [BitVec.extractLsb'_toNat, Nat.shiftRight_eq_div_pow, Nat.mod_eq_of_lt (by omega)]

theorem stsCtr_toNat (s : State) : s.stsCtr.toNat = s.stsIv.toNat % 2 ^ 32 := by simp [State.stsCtr]

theorem setStsCtr_stsIv_toNat (s : State) (c : BitVec 32) :
    (s.setStsCtr c).stsIv.toNat = s.stsIv.toNat / 2 ^ 32 * 2 ^ 32 + c.toNat := by
  show (s.stsIv.extractLsb' 32 96 ++ c).toNat = _
  rw [joinIv_toNat, upperIv_toNat]

/-- The counter read after it was written. -/
theorem setStsCtr_stsCtr (s : State) (c : BitVec 32) : (s.setStsCtr c).stsCtr = c := by
  apply BitVec.eq_of_toNat_eq
  rw [stsCtr_toNat, setStsCtr_stsIv_toNat]
  have := c.isLt
  omega

/-- The exchange-start action is the statements' `stsStarted` (R184). -/
theorem exchangeStart_eq (s : State) : s.exchangeStart = s.stsStarted := by
  have hc : s.stsCtr + s.cfg.stsCtrInc = BitVec.ofNat 32 (s.stsIv.toNat % 2 ^ 32 + s.cfg.stsCtrInc.toNat) := by
    apply BitVec.eq_of_toNat_eq
    rw [BitVec.toNat_add, stsCtr_toNat, BitVec.toNat_ofNat]
  unfold State.exchangeStart State.stsStarted
  split
  · simp only [hc, setStsCtr_stsCtr]
    rfl
  · rfl

/-- The exchange-start action writes the counter, the flag and the trace, and nothing else. -/
theorem stsStarted_frame (s : State) :
    ∃ iv cs, s.stsStarted = { s with stsIv := iv, firstDone := true, calls := s.calls ++ cs } := by
  unfold State.stsStarted
  split
  · rename_i h
    exact ⟨_, _, by rw [← h]⟩
  · exact ⟨s.stsIv, _, rfl⟩

/-- The counter after an exchange start: bumped modulo 2^32 on every start but the first, the upper bits kept. -/
theorem stsStarted_counter (s : State) :
    s.stsStarted.stsIv.toNat / 2 ^ 32 = s.stsIv.toNat / 2 ^ 32 ∧
    s.stsStarted.stsIv.toNat % 2 ^ 32 =
      (s.stsIv.toNat + if s.firstDone then s.cfg.stsCtrInc.toNat else 0) % 2 ^ 32 := by
  unfold State.stsStarted
  split
  · simp only [joinIv_toNat, upperIv_toNat, BitVec.toNat_ofNat]
    omega
  · simp

/-- The resynchronisation writes the counter only while it is permitted (R187). -/
theorem resync_pending {s : State} (h : s.resyncPending = true) : s.resync = s.setStsCtr s.pollCtr := if_pos h

theorem resync_suppressed {s : State} (h : s.resyncPending = false) : s.resync = s := by
  simp [State.resync, h]

/-- A score is good exactly when it is not negative (R186). -/
theorem goodScore_iff (v : BitVec 16) : goodScore v = true ↔ 0 ≤ v.toInt := by
  rw [goodScore, BitVec.msb_eq_toInt]
  simp

end Sys2Proof.Machine
end

