-- ==== Sys2Proof/Laws/Sequencer.lean ====
section
/-! SUPPORT. The sequencer's shared operations: the wait, the acceptance procedure, the delayed transmission, and the
commands that share their work. -/

namespace Sys2Proof.Machine

/-! ## Waits -/

theorem onEvent_waiting {ev mask : EventBits} {timeout : BitVec 32} {s : State} {k : State → Result}
    (hw : s.wait = some (mask, timeout)) (hm : ev &&& mask ≠ 0) :
    onEvent ev s k = k (s.call (.awaitStatus mask timeout)) := by
  simp only [onEvent, hw, if_neg hm]

theorem onEvent_outside {ev mask : EventBits} {timeout : BitVec 32} {s : State} {k : State → Result}
    (hw : s.wait = some (mask, timeout)) (hm : ev &&& mask = 0) : onEvent ev s k = .fault .eventOutsideContract := by
  simp [onEvent, hw, hm]

theorem onEvent_none {ev : EventBits} {s : State} {k : State → Result} (hw : s.wait = none) :
    onEvent ev s k = .next s := by simp [onEvent, hw]

/-- An event word that gives a next state either found nothing waiting, or answered the wait. -/
theorem onEvent_next {ev : EventBits} {s t : State} {k : State → Result} (h : onEvent ev s k = .next t) :
    s.wait = none ∧ t = s ∨
      ∃ mask timeout, s.wait = some (mask, timeout) ∧ ev &&& mask ≠ 0 ∧ k (s.call (.awaitStatus mask timeout)) = .next t := by
  unfold onEvent at h
  split at h
  · exact .inl ⟨‹_›, by injection h with h; exact h.symm⟩
  · split at h
    · cases h
    · exact .inr ⟨_, _, ‹_›, ‹_›, h⟩

/-- A state that waits is active. -/
theorem wait_active {s : State} {w : EventBits × BitVec 32} (h : s.wait = some w) : s.state.isActive = true := by
  revert h
  unfold State.wait
  cases s.state <;> simp [SeqState.isActive]

/-- A receive wait: its mask, and its timeout register (R201, R202). -/
theorem wait_of_awaits {s : State} {k : FrameKind} (h : s.awaits k) : s.wait = some (rxMask, s.rxTimeout) := by
  rcases h with ⟨h, -⟩ | ⟨h, -⟩ | ⟨h, -⟩ | ⟨h, -⟩ <;> simp [State.wait, State.rxTimeout, h]

/-! ## The commands that share work with a sequencer step -/

theorem kindBits_kindNumber (k : FrameKind) : (kindBits k).setWidth 128 = BitVec.ofNat 128 (kindNumber k) := by
  cases k <;> rfl

/-- What `FDEC` answers in `Idle` with `OK`: the layout holds and the frame decodes. -/
theorem fdec_ok {k : FrameKind} {s t : State} {d : Datum} (hs : s.state.isActive = false)
    (h : exec (.fdec k) s = .next t) (ht : t.responses = s.responses ++ [⟨.ok, d⟩]) :
    s.layoutOK k = true ∧ ∃ u, s.decodeFrame k = .matched u ∧ t = u.respond .ok ((kindBits k).setWidth 128) := by
  rw [exec, execFdec, admitWrite_inactive hs] at h
  split at h
  · injection h with h; subst h; simp [State.respond] at ht
  · rename_i hl
    refine ⟨by simpa using hl, ?_⟩
    rcases decodeFrame_shape s k with hd | hd | hd <;> rw [hd] at h ⊢ <;> injection h with h <;> subst h
    · simp [State.respond] at ht
    · simp [State.respond] at ht
    · exact ⟨_, rfl, rfl⟩

/-- What `FDEC` answers in `Idle` with `MISMATCH`: the layout holds and the frame is of another length or header. -/
theorem fdec_mismatch {k : FrameKind} {s t : State} {d : Datum} (hs : s.state.isActive = false)
    (h : exec (.fdec k) s = .next t) (ht : t.responses = s.responses ++ [⟨.mismatch, d⟩]) :
    s.layoutOK k = true ∧ (s.decodeFrame k = .wrongLength ∧ t = s.respond .mismatch 0 ∨
      ∃ u, s.decodeFrame k = .wrongHeader u ∧ t = u.respond .mismatch 0) := by
  rw [exec, execFdec, admitWrite_inactive hs] at h
  split at h
  · injection h with h; subst h; simp [State.respond] at ht
  · rename_i hl
    refine ⟨by simpa using hl, ?_⟩
    rcases decodeFrame_shape s k with hd | hd | hd <;> rw [hd] at h ⊢ <;> injection h with h <;> subst h
    · exact .inl ⟨rfl, rfl⟩
    · exact .inr ⟨_, rfl, rfl⟩
    · obtain ⟨a, b, c, he⟩ := extractFields_frame s.clearSeqByte (s.fields k)
      rw [he] at ht; simp [State.respond, State.clearSeqByte] at ht

/-- What `FENC` answers in `Idle` with `OK`: the layout holds and the frame is built. -/
theorem fenc_ok {k : FrameKind} {s t : State} {d : Datum} (hs : s.state.isActive = false)
    (h : exec (.fenc k) s = .next t) (ht : t.responses = s.responses ++ [⟨.ok, d⟩]) :
    s.layoutOK k = true ∧ t = (s.encodeFrame k).respond .ok ((s.frameLenOf k).setWidth 128) := by
  rw [exec, execFenc, admitWrite_inactive hs] at h
  unfold withWritten at h
  split at h
  · injection h with h; subst h; simp [State.respond] at ht
  · rename_i hl
    refine ⟨by simpa using hl, ?_⟩
    split at h
    · injection h with h; subst h; simp [State.respond] at ht
    · split at h
      · injection h with h; subst h; simp [State.respond] at ht
      · injection h with h; exact h.symm

/-! ## The acceptance procedure (R203) -/

/-- The state of a good-frame step once the frame is read: the received frame with the two calls made. -/
theorem call_loadFrame (s : State) (c d : HalCall) :
    ((s.call c).call d).loadFrame = { s.received with calls := s.calls ++ [c] ++ [d] } := rfl

theorem accept_wrongFrame {k : FrameKind} {s : State} {acc : State → Result} (ho : s.ans.frameOK = false) :
    accept k s acc = .fault .frameOutsideContract := by rw [accept, if_pos ho]

/-- Decoding the received frame with the calls of the step made, from the decoding of the same frame at rest. -/
theorem decodeFrame_calls (s : State) (k : FrameKind) (cs : List HalCall) :
    State.decodeFrame { s with calls := cs } k = (s.decodeFrame k).map fun u => { u with calls := cs } := by
  have h := decodeFrame_ports s k s.state cs s.responses
  rw [show ({ s with state := s.state, calls := cs, responses := s.responses } : State) = { s with calls := cs } from rfl] at h
  rw [h]
  rcases decodeFrame_shape s k with hd | hd | hd <;> rw [hd] <;> simp only [Decoded.map]
  · rfl
  · obtain ⟨a, b, c, he⟩ := extractFields_frame s.clearSeqByte (s.fields k)
    rw [he]; rfl

/-- Decoding at rest is decoding in any state. -/
theorem decodeFrame_atRest (s : State) (k : FrameKind) :
    s.atRest.decodeFrame k = (s.decodeFrame k).map fun u => { u with state := .idle } := by
  have h := decodeFrame_ports s k .idle s.calls s.responses
  rw [show ({ s with state := .idle, calls := s.calls, responses := s.responses } : State) = s.atRest from rfl] at h
  rw [h]
  rcases decodeFrame_shape s k with hd | hd | hd <;> rw [hd] <;> simp only [Decoded.map]
  · rfl
  · obtain ⟨a, b, c, he⟩ := extractFields_frame s.clearSeqByte (s.fields k)
    rw [he]; rfl

/-- A good-frame step, by what the decode of the received frame answers. -/
theorem accept_eq (k : FrameKind) (s : State) (acc : State → Result) (ho : s.ans.frameOK = true) :
    accept k s acc =
      match s.received.decodeFrame k with
      | .wrongLength => .next (State.raise { s.received with calls := s.calls ++ [.readFrame 128] } .badFrame)
      | .wrongHeader u => .next (State.raise { u with calls := s.calls ++ [.readFrame 128] } .badFrame)
      | .matched u =>
        if s.layoutOK k = false then .fault .layoutViolated
        else checkQuality k { u with calls := s.calls ++ [.readFrame 128] } acc := by
  have e : (s.call (.readFrame Config.fbSize)).loadFrame = { s.received with calls := s.calls ++ [.readFrame 128] } := rfl
  have hl : State.layoutOK { s.received with calls := s.calls ++ [.readFrame 128] } k = s.layoutOK k := layoutOK_congr rfl k
  rw [accept, if_neg (by simp [ho])]
  simp only [e, decodeFrame_calls, hl]
  cases s.received.decodeFrame k <;> rfl

/-- The quality test, by cases (R186, R203). -/
theorem checkQuality_cases (k : FrameKind) (s : State) (acc : State → Result) :
    s.usesSts = false ∧ checkQuality k s acc = acc s ∨
    s.usesSts = true ∧ 0 ≤ s.ans.score.toInt ∧ checkQuality k s acc = acc s.drawScore ∨
    s.usesSts = true ∧ s.ans.score.toInt < 0 ∧
      checkQuality k s acc = .next ((if k = .poll then s.drawScore.resync else s.drawScore).raise .badSts) := by
  unfold checkQuality
  cases hu : s.usesSts
  · exact .inl ⟨rfl, if_pos rfl⟩
  · by_cases hg : goodScore s.ans.score = true
    · exact .inr (.inl ⟨rfl, (goodScore_iff _).mp hg, by simp [hg]⟩)
    · exact .inr (.inr ⟨rfl, by simpa using mt (goodScore_iff _).mpr hg, by simp [hg]⟩)

theorem wf_received {s : State} (hm : Memory.wf s.fb) (hf : s.wholeFrame) : Memory.wf s.received.fb :=
  Memory.wf_writeBytes hm (by rw [hf.2]; simpa using hf.1)

/-- A received frame of the kind decodes as a match, and `FDEC` of it at rest answers so. -/
theorem ofKind_decodes {s : State} {k : FrameKind} (hm : Memory.wf s.fb) (hl : layoutHolds s k) (hf : s.wholeFrame)
    (hk : s.ofKind k) : ∃ (t : State) (fb : Memory) (ts : Vector Timestamp 8) (tsw : Vector Bool 8) (ctr : BitVec 32),
      s.received.decodeFrame k =
        .matched { s with fb := fb, fbLen := s.received.fbLen, ts := ts, tsw := tsw, pollCtr := ctr } ∧
      s.decodesTo k .ok (kindNumber k) t ∧ t.fb = fb ∧ t.fbLen = s.received.fbLen ∧ t.ts = ts ∧ t.tsw = tsw ∧
      t.pollCtr = ctr := by
  have hlo : s.received.atRest.layoutOK k = true := (layoutOK_congr rfl k).trans ((layoutOK_iff s k).mpr hl)
  rcases decodeFrame_cases k (wf_received hm hf) with ⟨h, -⟩ | ⟨-, h, -⟩ | ⟨-, -, hd⟩
  · exact absurd hk.1 h
  · exact absurd hk.2 h
  · obtain ⟨a, b, c, he⟩ := extractFields_frame s.received.clearSeqByte (s.received.fields k)
    have hd' := decodeFrame_atRest s.received k
    rw [hd, he] at hd'
    refine ⟨State.respond { s.received.clearSeqByte with ts := a, tsw := b, pollCtr := c, state := .idle } .ok
      ((kindBits k).setWidth 128), s.received.clearSeqByte.fb, a, b, c, by rw [hd, he]; rfl, ⟨?_, ?_⟩, ?_⟩
    · rw [exec, execFdec, admitWrite_inactive rfl, if_neg (by simp [hlo]), hd']
      rfl
    · rw [kindBits_kindNumber]; rfl
    · exact ⟨rfl, rfl, rfl, rfl, rfl⟩

/-- A received frame of another length or header decodes as a mismatch, and `FDEC` of it at rest answers so. -/
theorem foreign_decodes {s : State} {k : FrameKind} (hm : Memory.wf s.fb) (hl : layoutHolds s k) (hf : s.wholeFrame)
    (hk : ¬ s.ofKind k) : ∃ t : State, s.decodesTo k .mismatch 0 t ∧ t.fbLen = s.received.fbLen ∧
      (s.received.decodeFrame k = .wrongLength ∧ t.fb = s.received.fb ∨
        s.received.decodeFrame k = .wrongHeader { s with fb := t.fb, fbLen := t.fbLen }) := by
  have hlo : s.received.atRest.layoutOK k = true := (layoutOK_congr rfl k).trans ((layoutOK_iff s k).mpr hl)
  have hd' := decodeFrame_atRest s.received k
  rcases decodeFrame_cases k (wf_received hm hf) with ⟨-, hd⟩ | ⟨-, -, hd⟩ | ⟨h1, h2, -⟩
  · rw [hd] at hd'
    refine ⟨s.received.atRest.respond .mismatch 0, ⟨?_, rfl⟩, rfl, .inl ⟨hd, rfl⟩⟩
    rw [exec, execFdec, admitWrite_inactive rfl, if_neg (by simp [hlo]), hd']
    rfl
  · rw [hd] at hd'
    refine ⟨s.received.clearSeqByte.atRest.respond .mismatch 0, ⟨?_, rfl⟩, rfl, .inr hd⟩
    rw [exec, execFdec, admitWrite_inactive rfl, if_neg (by simp [hlo]), hd']
    rfl
  · exact absurd ⟨h1, h2⟩ hk

/-- What follows an accepted reply, as one update (R211). -/
theorem acceptedReply_eq (s : State) : acceptedReply s = .next { s with
    ts := s.ts.set RegNum.respRx s.answerTime, tsw := s.tsw.set RegNum.respRx true
    calls := s.calls ++ [.readTimestamp .rx] ++ (if s.isDoubleSided then [] else [.readClockOffsetRatio])
    k := if s.isDoubleSided then s.k else s.ans.ratio
    resyncPending := false, state := .respondValid } := by
  have hd : (s.stampRx .respRx).isDoubleSided = s.isDoubleSided := rfl
  rw [acceptedReply]
  simp only [hd]
  cases s.isDoubleSided
  · rfl
  · simp [State.stampRx, State.setT, State.call, State.answerTime]

/-! ## The delayed transmission (R213, R215, R221) -/

/-- The frame sent, with the predicted transmit time in its register: the state before the start verdict counts. -/
def State.sent (s : State) (rx tx : RegNum) (delay : Timestamp) (k : FrameKind) : State :=
  let t := (s.setT tx (s.txstamp (sched s.ts[rx] delay))).encodeFrame k
  t.call (.transmitDelayed t.frame (sched s.ts[rx] delay))

/-- A delayed transmission, by the layout and the start verdict. -/
theorem sendDelayed_cases (rx tx : RegNum) (delay : Timestamp) (k : FrameKind) (window : Option (BitVec 32))
    (after : SeqState) (s : State) :
    s.layoutOK k = false ∧ sendDelayed rx tx delay k window after s = .fault .layoutViolated ∨
    s.layoutOK k = true ∧ s.ans.start = .lateStart ∧
      sendDelayed rx tx delay k window after s = .next ((s.sent rx tx delay k).raise .lateStart) ∨
    s.layoutOK k = true ∧ s.ans.start = .ok ∧
      sendDelayed rx tx delay k window after s = .next { s.sent rx tx delay k with
        state := after
        calls := (s.sent rx tx delay k).calls ++
          (window.map fun d => .receiveEnable (.delayedFromTimestamp d)).toList } := by
  have hl : State.layoutOK (s.setT tx (s.txstamp (sched s.ts[rx] delay))) k = s.layoutOK k := layoutOK_congr rfl k
  have ha : ∀ x, s.ans.start = x → (s.sent rx tx delay k).ans.start = x := fun x h => h
  unfold sendDelayed
  cases h : s.layoutOK k
  · exact .inl ⟨rfl, by simp only [hl, h, if_true]⟩
  · cases hv : s.ans.start
    · refine .inr (.inr ⟨rfl, rfl, ?_⟩)
      have := ha _ hv
      unfold State.sent at this
      simp only [hl, h, Bool.true_eq_false, if_false, this]
      cases window <;> simp [State.sent, State.call]
    · refine .inr (.inl ⟨rfl, rfl, ?_⟩)
      have := ha _ hv
      unfold State.sent at this
      simp only [hl, h, Bool.true_eq_false, if_false, this]
      rfl

/-- The predicted transmit time as the statements write it (R122, R127). -/
theorem setT_txstamp (s : State) (rx tx : RegNum) (delay : Timestamp) :
    s.setT tx (s.txstamp (sched s.ts[rx] delay)) = s.scheduled rx tx delay := by
  have : s.txstamp (sched s.ts[rx] delay) = BitVec.ofNat 40 (targetNumber s.ts[rx] delay + s.cfg.txAntDly.toNat) := by
    apply BitVec.eq_of_toNat_eq
    simp [State.txstamp, sched_toNat]
  rw [this]
  rfl

end Sys2Proof.Machine
end

