-- ==== Sys2Proof/Laws/Step.lean ====
section
/-! SUPPORT. Inversions: what a step that answers a next state can have done. Proofs about every step cite these and
do not unfold the step. -/

namespace Sys2Proof.Machine

/-! ## The step (spec/00_scope.md R6) -/

/-- A step, by the next input. -/
theorem step_cases (s : State) :
    (s.inputs = [] ∧ step s = coreStep (if s.state.isTau then s.drawFree else s)) ∨
    (∃ w o a rest, s.inputs = .command w o a :: rest ∧
      ((∃ i, decodeCommand w = .ok i ∧ step s = exec i (s.latch o a rest)) ∨
        step s = .next ((s.latch o a rest).respond .errIllegal 0))) ∨
    (∃ ev a rest, s.inputs = .event ev a :: rest ∧
      ((∃ i, decodeEvent ev = .ok i ∧ step s = exec i (s.latch s.opnd a rest)) ∨
        (∃ e, decodeEvent ev = .error e) ∧ step s = strayEvent (s.latch s.opnd a rest))) ∨
    (∃ a rest, s.inputs = .core a :: rest ∧ step s = coreStep (s.latch s.opnd a rest)) ∨
    (∃ rest, s.inputs = .reset :: rest ∧ step s = .next { s with inputs := rest }.resetEvent) := by
  unfold step fetch
  cases h : s.inputs with
  | nil => exact .inl ⟨rfl, rfl⟩
  | cons x rest =>
    cases x with
    | command w o a =>
      refine .inr (.inl ⟨w, o, a, rest, rfl, ?_⟩)
      cases hd : decodeCommand w with
      | ok i => exact .inl ⟨i, rfl, by simp only [hd]⟩
      | error e => exact .inr (by simp only [hd]; rfl)
    | event ev a =>
      refine .inr (.inr (.inl ⟨ev, a, rest, rfl, ?_⟩))
      cases hd : decodeEvent ev with
      | ok i => exact .inl ⟨i, rfl, by simp only [hd]⟩
      | error e => exact .inr ⟨⟨e, rfl⟩, by simp only [hd]⟩
    | core a => exact .inr (.inr (.inr (.inl ⟨a, rest, rfl, rfl⟩)))
    | reset => exact .inr (.inr (.inr (.inr ⟨rest, rfl, rfl⟩)))

/-- A word of the command port is never an event word. -/
theorem decodeCommand_not_event {w : CmdWord} {i : Instr} (h : decodeCommand w = .ok i) : isEventWord i = false := by
  have hc : ∀ {m : CmdWord} {j : Instr}, checked w m j = .ok i → j = i := by
    intro m j h
    unfold checked at h
    split at h
    · injection h
    · cases h
  unfold decodeCommand at h
  split at h
  all_goals first
    | (have := hc h; subst this; rfl)
    | cases h

/-- The four event answers (R98). -/
theorem decodeEvent_cases {ev : EventBits} {i : Instr} (h : decodeEvent ev = .ok i) :
    ev = evGoodBit ∧ i = .evGood ∨ ev = evRxErrBit ∧ i = .evRxErr ∨ ev = evRxToBit ∧ i = .evRxTo ∨
      ev = evTxDoneBit ∧ i = .evTxDone := by
  have all : ∀ ev : EventBits,
      ev = 1 ∨ ev = 2 ∨ ev = 4 ∨ ev = 8 ∨ decodeEvent ev = .error (.notOneEvent ev) := by decide
  rcases all ev with rfl | rfl | rfl | rfl | h'
  · injection h with h; exact .inl ⟨rfl, h.symm⟩
  · injection h with h; exact .inr (.inl ⟨rfl, h.symm⟩)
  · injection h with h; exact .inr (.inr (.inl ⟨rfl, h.symm⟩))
  · injection h with h; exact .inr (.inr (.inr ⟨rfl, h.symm⟩))
  · rw [h'] at h; cases h

/-- What an event word does where nothing waits, and where its bit is outside the mask. -/
theorem exec_event_none {ev : EventBits} {i : Instr} {s : State} (h : decodeEvent ev = .ok i) (hw : s.wait = none) :
    exec i s = .next s := by
  rcases decodeEvent_cases h with ⟨-, rfl⟩ | ⟨-, rfl⟩ | ⟨-, rfl⟩ | ⟨-, rfl⟩ <;>
    simp only [exec, execEvGood, execEvRxErr, execEvRxTo, execEvTxDone] <;> exact onEvent_none hw

theorem exec_event_outside {ev mask : EventBits} {timeout : BitVec 32} {i : Instr} {s : State}
    (h : decodeEvent ev = .ok i) (hw : s.wait = some (mask, timeout)) (hm : ev &&& mask = 0) :
    exec i s = .fault .eventOutsideContract := by
  rcases decodeEvent_cases h with ⟨rfl, rfl⟩ | ⟨rfl, rfl⟩ | ⟨rfl, rfl⟩ | ⟨rfl, rfl⟩ <;>
    simp only [exec, execEvGood, execEvRxErr, execEvRxTo, execEvTxDone] <;> exact onEvent_outside hw hm

/-! ## Commands -/

theorem admitWrite_next {s t : State} {k : Result} (h : admitWrite s k = .next t) :
    s.state.isActive = true ∧ t = s.respond .errBusy 0 ∨ s.state.isActive = false ∧ k = .next t := by
  cases ha : s.state.isActive
  · rw [admitWrite_inactive ha] at h; exact .inr ⟨rfl, h⟩
  · rw [admitWrite_active ha] at h; injection h with h; exact .inl ⟨rfl, h.symm⟩

theorem admitIdle_next {s t : State} {k : Result} (h : admitIdle s k = .next t) :
    (∃ st, t = s.respond st 0) ∨ s.state = .idle ∧ k = .next t := by
  unfold admitIdle at h
  split at h
  · injection h with h; exact .inl ⟨_, h.symm⟩
  · split at h
    · injection h with h; exact .inl ⟨_, h.symm⟩
    · exact .inr ⟨SeqState.idle_iff.mpr ⟨Bool.eq_false_of_not_eq_true ‹_›, Bool.eq_false_of_not_eq_true ‹_›⟩, h⟩

theorem admitTerminal_next {s t : State} {k : Result} (h : admitTerminal s k = .next t) :
    (∃ st, t = s.respond st 0) ∨ s.state.isTerminal = true ∧ k = .next t := by
  unfold admitTerminal at h
  split at h
  · injection h with h; exact .inl ⟨_, h.symm⟩
  · split at h
    · exact .inr ⟨‹_›, h⟩
    · injection h with h; exact .inl ⟨_, h.symm⟩

theorem withSource_next {s t : State} {r : RegNum} {k : Timestamp → Result} (h : withSource s r k = .next t) :
    (∃ st d, t = s.respond st d) ∨ k s.ts[r] = .next t := by
  unfold withSource at h
  split at h
  · exact .inr h
  · injection h with h; exact .inl ⟨_, _, h.symm⟩

theorem withWritten_next {s t : State} {rs : List RegNum} {k : Result} (h : withWritten s rs k = .next t) :
    (∃ st d, t = s.respond st d) ∨ k = .next t := by
  unfold withWritten at h
  split at h
  · injection h with h; exact .inl ⟨_, _, h.symm⟩
  · exact .inr h

theorem withSpan_next {s t : State} {off : BitVec 8} {n : Nat} {k : Result} (h : withSpan s off n k = .next t) :
    (∃ st d, t = s.respond st d) ∨ off.toNat + n ≤ 128 ∧ k = .next t := by
  unfold withSpan at h
  split at h
  · exact .inr ⟨‹_›, h⟩
  · injection h with h; exact .inl ⟨_, _, h.symm⟩

theorem withAes_next {s t : State} {k : Result} (h : withAes s k = .next t) :
    (∃ st d, t = s.respond st d) ∨ k = .next t := by
  unfold withAes at h
  split at h
  · exact .inr h
  · injection h with h; exact .inl ⟨_, _, h.symm⟩

/-! ## Sequencer steps -/

/-- Every field that a decode stores into carries its tag afterwards, and no tag is lost (R22, R160). -/
theorem extractFields_tags (s : State) (k : FrameKind) :
    (∀ r ∈ (timestampFields s k).map Prod.fst, (s.extractFields (s.fields k)).tsw[r] = true) ∧
    (∀ r : RegNum, s.tsw[r] = true → (s.extractFields (s.fields k)).tsw[r] = true) := by
  obtain ⟨h1, h2, -⟩ := extractFields_spec s k
  have h3 : ∀ r ∈ (timestampFields s k).map Prod.fst, (s.extractFields (s.fields k)).tsw[r] = true := by
    intro r hr
    obtain ⟨p, hp, rfl⟩ := List.mem_map.mp hr
    exact (h1 p hp).2
  refine ⟨h3, fun r hr => ?_⟩
  by_cases hm : r ∈ (timestampFields s k).map Prod.fst
  · exact h3 r hm
  · rw [(h2 r hm).2, hr]

/-- What an acceptance that ends the step or lets it go on has done: the frame is whole, and the state up to the
quality test differs from the start in the buffer, the timestamp registers, `POLL_CTR` and the trace only. -/
theorem accept_next {k : FrameKind} {s t : State} {acc : State → Result} (h : accept k s acc = .next t) :
    s.ans.frameOK = true ∧ ∃ (u : State) (fb : Memory) (ts : Vector Timestamp 8) (tsw : Vector Bool 8) (ctr : BitVec 32),
      u = { s with
        fb := fb, fbLen := BitVec.ofNat 8 s.ans.frameLen, ts := ts, tsw := tsw, pollCtr := ctr
        calls := s.calls ++ [.readFrame 128] } ∧
      (Memory.wf s.fb → Memory.wf fb) ∧ (∀ r : RegNum, s.tsw[r] = true → tsw[r] = true) ∧
      (t = u.raise .badFrame ∨
        (∀ r ∈ (timestampFields s k).map Prod.fst, tsw[r] = true) ∧ s.layoutOK k = true ∧
          (s.usesSts = false ∧ acc u = .next t ∨ s.usesSts = true ∧ acc u.drawScore = .next t ∨
            s.usesSts = true ∧
              t = (if k = .poll then u.drawScore.resync else u.drawScore).raise .badSts)) := by
  have ho : s.ans.frameOK = true := by
    rw [← Bool.not_eq_false]
    intro ho
    rw [accept_wrongFrame ho] at h
    cases h
  have hf : s.ans.frameLen ≤ 128 ∧ s.ans.frameBytes.length = s.ans.frameLen := by
    simpa [HalAnswers.frameOK] using ho
  have hw : Memory.wf s.fb → Memory.wf s.received.fb := fun hm =>
    Memory.wf_writeBytes hm (by rw [hf.2]; simpa using hf.1)
  refine ⟨ho, ?_⟩
  rw [accept_eq k s acc ho] at h
  rcases decodeFrame_shape s.received k with hd | hd | hd <;> rw [hd] at h <;> simp only at h
  · injection h with h
    exact ⟨_, s.received.fb, s.ts, s.tsw, s.pollCtr, rfl, hw, fun _ h => h, .inl h.symm⟩
  · injection h with h
    exact ⟨_, s.received.clearSeqByte.fb, s.ts, s.tsw, s.pollCtr, rfl, fun hm => wf_clearSeqByte (hw hm),
      fun _ h => h, .inl h.symm⟩
  · obtain ⟨a, b, c, he⟩ := extractFields_frame s.received.clearSeqByte (s.received.fields k)
    obtain ⟨t1, t2⟩ := extractFields_tags s.received.clearSeqByte k
    rw [show s.received.clearSeqByte.fields k = s.received.fields k from rfl, he] at t1 t2
    rw [he] at h
    have hl : s.layoutOK k = true := by
      rw [← Bool.not_eq_false]
      intro hl
      rw [if_pos hl] at h
      cases h
    rw [if_neg (by simp [hl])] at h
    refine ⟨_, s.received.clearSeqByte.fb, a, b, c, rfl, fun hm => wf_clearSeqByte (hw hm), t2, .inr ⟨t1, hl, ?_⟩⟩
    rcases checkQuality_cases k _ acc with ⟨hu, hq⟩ | ⟨hu, -, hq⟩ | ⟨hu, -, hq⟩ <;> rw [hq] at h
    · exact .inl ⟨hu, h⟩
    · exact .inr (.inl ⟨hu, h⟩)
    · injection h with h; exact .inr (.inr ⟨hu, h.symm⟩)

/-- An acceptance answers, when the frame is whole, the layout holds, and what follows answers. -/
theorem accept_answers {k : FrameKind} {s : State} {acc : State → Result} (ho : s.ans.frameOK = true)
    (hl : s.layoutOK k = true) (ha : ∀ u, ∃ t, acc u = .next t) : ∃ t, accept k s acc = .next t := by
  rw [accept_eq k s acc ho]
  rcases decodeFrame_shape s.received k with hd | hd | hd <;> rw [hd]
  · exact ⟨_, rfl⟩
  · exact ⟨_, rfl⟩
  · simp only [if_neg (show ¬ s.layoutOK k = false by simp [hl])]
    rcases checkQuality_cases k { s.received.clearSeqByte.extractFields (s.received.fields k) with calls := s.calls ++ [.readFrame 128] } acc with
      ⟨-, hq⟩ | ⟨-, -, hq⟩ | ⟨-, -, hq⟩ <;> rw [hq]
    · exact ha _
    · exact ha _
    · exact ⟨_, rfl⟩

/-- The layouts that an accepted configuration guarantees (R272). -/
theorem layoutOK_of_configOK {s : State} (h : s.configOK = true) :
    s.layoutOK .poll = true ∧ s.layoutOK s.replyKind = true ∧
    (s.isDoubleSided = true → s.layoutOK .final = true) ∧
    (s.isDoubleSided = true → s.isResponder = false → s.ackEnabled = true → s.layoutOK .report = true) := by
  obtain ⟨h1, h2, h3, h4, -⟩ := (configOK_iff s).mp h
  simp only [layoutOK_iff]
  refine ⟨h1, ?_, fun hd => (h3 hd).2, h4⟩
  unfold State.replyKind
  split
  · exact (h3 ‹_›).1
  · exact h2 (Bool.eq_false_of_not_eq_true ‹_›)

end Sys2Proof.Machine
end

