-- ==== Sys2Proof/Laws/Invariant.lean ====
section
/-! SUPPORT. How the shared operations keep the invariant: the ends of an exchange, a state where none is active,
a register write, and the tags that a step sets. -/

namespace Sys2Proof.Machine

/-- The invariant does not read the inputs, the operand, the answers or the recorded outputs. -/
theorem inv_ports {s : State} (h : s.Inv) (i : List Input) (o : Datum) (a : HalAnswers) (c : List HalCall)
    (r : List Response) (d : Nat) :
    State.Inv { s with inputs := i, opnd := o, ans := a, calls := c, responses := r, draws := d } :=
  ⟨h.memory, h.frameLen, h.templates, h.outcome, h.role, h.active, h.written, h.noTof, h.suppressed, h.loaded⟩

theorem inv_respond {s : State} (h : s.Inv) (st : Status) (d : Datum) : (s.respond st d).Inv :=
  inv_ports h s.inputs s.opnd s.ans s.calls _ s.draws

/-- Outside an exchange only the buffer, its length, the templates, the outcome and the loaded session count. -/
theorem inv_inactive {t : State} (hs : t.state.isActive = false) (m : Memory.wf t.fb) (l : t.fbLen.toNat ≤ 128)
    (tp : ∀ i : Fin 4, t.cfg.tpl[i].extractLsb' 16 8 = 0) (o : outcomeFits t.state t.outcome = true)
    (ld : t.firstDone = true → t.keySet = true ∧ t.ivSet = true) : t.Inv := by
  refine ⟨m, l, tp, o, ?_, ?_, ?_, ?_, ?_, ld⟩
  · unfold stateFits
    cases h : t.state <;> simp_all [SeqState.isActive]
  · simp [hs]
  · unfold writtenBy
    cases h : t.state <;> simp_all [SeqState.isActive]
  · simp [hs]
  · cases h : t.state <;> simp_all [SeqState.isActive, SeqState.replyExchanged]

theorem raise_inv {u : State} (e : ErrorKind) (m : Memory.wf u.fb) (l : u.fbLen.toNat ≤ 128)
    (tp : ∀ i : Fin 4, u.cfg.tpl[i].extractLsb' 16 8 = 0) (ld : u.firstDone = true → u.keySet = true ∧ u.ivSet = true) :
    (u.raise e).Inv :=
  inv_inactive (by cases e <;> rfl) m l tp (by cases e <;> rfl) ld

theorem conclude_inv {u : State} (m : Memory.wf u.fb) (l : u.fbLen.toNat ≤ 128)
    (tp : ∀ i : Fin 4, u.cfg.tpl[i].extractLsb' 16 8 = 0) (ld : u.firstDone = true → u.keySet = true ∧ u.ivSet = true) :
    u.conclude.Inv := inv_inactive rfl m l tp rfl ld

/-- A register write leaves byte 2 of every template 0 (R25). -/
theorem writeReg_templates {s : State} (h : ∀ i : Fin 4, s.cfg.tpl[i].extractLsb' 16 8 = 0) (r : CfgReg) :
    ∀ i : Fin 4, (s.writeReg r).cfg.tpl[i].extractLsb' 16 8 = 0 := by
  have aux : ∀ (j : Fin 4) (v : BitVec 80), ∀ i : Fin 4, (s.cfg.tpl.set j (tplStored v))[i].extractLsb' 16 8 = 0 := by
    intro j v i
    by_cases e : j = i
    · subst e; simp [tplStored_byte2]
    · have e' : (j : Nat) ≠ i := fun x => e (Fin.ext x)
      simpa [Vector.getElem_set_ne, e'] using h i
  cases r
  case tplPoll => exact aux 0 _
  case tplResponse => exact aux 1 _
  case tplFinal => exact aux 2 _
  case tplReport => exact aux 3 _
  all_goals exact h

/-- A written tag stays written when another, or the same, register is written (R22). -/
theorem tag_set_keeps {tsw : Vector Bool 8} {q r : RegNum} (h : tsw[r] = true) : (tsw.set q true)[r] = true := by
  by_cases e : (q : Nat) = r
  · simp [e]
  · simpa [Vector.getElem_set_ne, e] using h

theorem tag_set_self {tsw : Vector Bool 8} {q : RegNum} : (tsw.set q true)[q] = true := by simp

/-- The start of an exchange writes the counter, the flag and the trace, and transmits nothing delayed. -/
theorem startSts_frame (s : State) : ∃ iv fd cs,
    s.startSts = { s with stsIv := iv, firstDone := fd, calls := s.calls ++ cs } ∧
    (∀ f g, HalCall.transmitDelayed f g ∉ cs) ∧ (s.firstDone = true → fd = true) ∧
    (fd = true → s.firstDone = true ∨ s.usesSts = true) := by
  unfold State.startSts
  split
  · unfold State.exchangeStart
    split
    · exact ⟨_, s.firstDone, _, rfl, by simp, fun h => h, .inl⟩
    · exact ⟨s.stsIv, true, _, rfl, by simp, fun _ => rfl, fun _ => .inr ‹_›⟩
  · exact ⟨s.stsIv, s.firstDone, [], by simp, by simp, fun h => h, .inl⟩

/-- The core does nothing by itself outside its three states (R201). -/
theorem coreStep_still {s : State} (hs : s.state ∉ [SeqState.respondValid, .pollValid, .finalValid]) :
    coreStep s = .next s := by
  unfold coreStep
  split <;> simp_all

end Sys2Proof.Machine
end

