-- ==== Sys2Proof/Laws/PerInstr.lean ====
section
/-! SUPPORT. The per-instruction family WordFormat: the word of every instruction, at every value of its operand
fields, is a word of its row of spec/opcode_table.json (spec/30_encoding.md R82, R83, R98). -/

namespace Sys2Proof.Laws.WordFormat

/-- A row of the table: the mask and match of a command word, or the event bits. -/
inductive TableRow where
  | command (mask value : CmdWord)
  | event (value : EventBits)
  deriving DecidableEq, Repr

/-- The row of each instruction, written out from spec/opcode_table.json. -/
def row : Instr → TableRow
  | .nop => .command 0xFFFFFFFF 0x00000000
  | .tsld _ => .command 0xFF8FFFFF 0x10000000
  | .tsrd _ => .command 0xFF8FFFFF 0x11000000
  | .tsmov _ _ => .command 0xFF88FFFF 0x12000000
  | .tscaptx _ => .command 0xFF8FFFFF 0x13000000
  | .tscaprx _ => .command 0xFF8FFFFF 0x14000000
  | .tsadd _ _ _ => .command 0xFF888FFF 0x15000000
  | .tssub _ _ _ => .command 0xFF888FFF 0x16000000
  | .tssub32 _ _ _ => .command 0xFF888FFF 0x17000000
  | .tslo32 _ _ => .command 0xFF88FFFF 0x18000000
  | .tsalign _ _ => .command 0xFF88FFFF 0x19000000
  | .tssched _ _ _ => .command 0xFF888FFF 0x1A000000
  | .tscmp _ _ => .command 0xFFF88FFF 0x1B000000
  | .tscmp32 _ _ => .command 0xFFF88FFF 0x1C000000
  | .tofss => .command 0xFFFFFFFF 0x20000000
  | .tofds => .command 0xFFFFFFFF 0x21000000
  | .tofrd => .command 0xFFFFFFFF 0x22000000
  | .fenc _ => .command 0xFFFCFFFF 0x30000000
  | .fdec _ => .command 0xFFFCFFFF 0x31000000
  | .fput32 _ _ => .command 0xFF8F00FF 0x32000000
  | .fget32 _ _ => .command 0xFF8F00FF 0x33000000
  | .fbwr _ => .command 0xFFFF00FF 0x34000000
  | .fbrd _ => .command 0xFFFF00FF 0x35000000
  | .flenw => .command 0xFFFFFFFF 0x36000000
  | .flenr => .command 0xFFFFFFFF 0x37000000
  | .stskey => .command 0xFFFFFFFF 0x40000000
  | .stsiv => .command 0xFFFFFFFF 0x41000000
  | .stsbegin => .command 0xFFFFFFFF 0x42000000
  | .stschk => .command 0xFFFFFFFF 0x43000000
  | .stsresync => .command 0xFFFFFFFF 0x44000000
  | .stslock => .command 0xFFFFFFFF 0x45000000
  | .stsunlock => .command 0xFFFFFFFF 0x46000000
  | .xstart => .command 0xFFFFFFFF 0x50000000
  | .xclr => .command 0xFFFFFFFF 0x51000000
  | .cfgw _ => .command 0xFF00FFFF 0x52000000
  | .cfgr _ => .command 0xFF00FFFF 0x53000000
  | .aesnonce => .command 0xFFFFFFFF 0x60000000
  | .aeslen => .command 0xFFFFFFFF 0x61000000
  | .aescls => .command 0xFFFFFFFF 0x62000000
  | .aesprot => .command 0xFFFFFFFF 0x63000000
  | .evGood => .event 0x1
  | .evRxErr => .event 0x2
  | .evRxTo => .event 0x4
  | .evTxDone => .event 0x8

/-- The instruction's word stands at the port of its row, and its bits under the row's mask are the row's match. -/
def Statement (i : Instr) : Prop :=
  match encode i, row i with
  | .command w, .command mask value => w &&& mask = value
  | .event ev, .event value => ev = value
  | .command _, .event _ | .event _, .command _ _ => False

theorem nop : Statement (.nop) := encN_mask _
theorem tsld (rd : RegNum) : Statement (.tsld rd) := encR1_mask _ rd
theorem tsrd (rs : RegNum) : Statement (.tsrd rs) := encR1_mask _ rs
theorem tsmov (rd : RegNum) (ra : RegNum) : Statement (.tsmov rd ra) := encR2_mask _ rd ra
theorem tscaptx (rd : RegNum) : Statement (.tscaptx rd) := encR1_mask _ rd
theorem tscaprx (rd : RegNum) : Statement (.tscaprx rd) := encR1_mask _ rd
theorem tsadd (rd : RegNum) (ra : RegNum) (rb : RegNum) : Statement (.tsadd rd ra rb) := encR3_mask _ rd ra rb
theorem tssub (rd : RegNum) (ra : RegNum) (rb : RegNum) : Statement (.tssub rd ra rb) := encR3_mask _ rd ra rb
theorem tssub32 (rd : RegNum) (ra : RegNum) (rb : RegNum) : Statement (.tssub32 rd ra rb) := encR3_mask _ rd ra rb
theorem tslo32 (rd : RegNum) (ra : RegNum) : Statement (.tslo32 rd ra) := encR2_mask _ rd ra
theorem tsalign (rd : RegNum) (ra : RegNum) : Statement (.tsalign rd ra) := encR2_mask _ rd ra
theorem tssched (rd : RegNum) (ra : RegNum) (rb : RegNum) : Statement (.tssched rd ra rb) := encR3_mask _ rd ra rb
theorem tscmp (ra : RegNum) (rb : RegNum) : Statement (.tscmp ra rb) := encRC_mask _ ra rb
theorem tscmp32 (ra : RegNum) (rb : RegNum) : Statement (.tscmp32 ra rb) := encRC_mask _ ra rb
theorem tofss : Statement (.tofss) := encN_mask _
theorem tofds : Statement (.tofds) := encN_mask _
theorem tofrd : Statement (.tofrd) := encN_mask _
theorem fenc (kind : FrameKind) : Statement (.fenc kind) := encK_mask _ kind
theorem fdec (kind : FrameKind) : Statement (.fdec kind) := encK_mask _ kind
theorem fput32 (rs : RegNum) (off : BitVec 8) : Statement (.fput32 rs off) := encFO_mask _ rs off
theorem fget32 (rd : RegNum) (off : BitVec 8) : Statement (.fget32 rd off) := encFO_mask _ rd off
theorem fbwr (off : BitVec 8) : Statement (.fbwr off) := encO_mask _ off
theorem fbrd (off : BitVec 8) : Statement (.fbrd off) := encO_mask _ off
theorem flenw : Statement (.flenw) := encN_mask _
theorem flenr : Statement (.flenr) := encN_mask _
theorem stskey : Statement (.stskey) := encN_mask _
theorem stsiv : Statement (.stsiv) := encN_mask _
theorem stsbegin : Statement (.stsbegin) := encN_mask _
theorem stschk : Statement (.stschk) := encN_mask _
theorem stsresync : Statement (.stsresync) := encN_mask _
theorem stslock : Statement (.stslock) := encN_mask _
theorem stsunlock : Statement (.stsunlock) := encN_mask _
theorem xstart : Statement (.xstart) := encN_mask _
theorem xclr : Statement (.xclr) := encN_mask _
theorem cfgw (idx : BitVec 8) : Statement (.cfgw idx) := encC_mask _ idx
theorem cfgr (idx : BitVec 8) : Statement (.cfgr idx) := encC_mask _ idx
theorem aesnonce : Statement (.aesnonce) := encN_mask _
theorem aeslen : Statement (.aeslen) := encN_mask _
theorem aescls : Statement (.aescls) := encN_mask _
theorem aesprot : Statement (.aesprot) := encN_mask _
theorem evGood : Statement (.evGood) := rfl
theorem evRxErr : Statement (.evRxErr) := rfl
theorem evRxTo : Statement (.evRxTo) := rfl
theorem evTxDone : Statement (.evTxDone) := rfl

end Sys2Proof.Laws.WordFormat
end

