-- ==== Sys2Proof/Tests/Slice0.lean ====
section
/-! SUPPORT. Tests on fixed values, each from the words, vectors and programs of spec/95_test_vectors.md or the
examples of the rules named, and a witness for the hypotheses of each statement. -/

namespace Sys2Proof.Tests

open Sys2Proof Sys2Proof.Machine

/-! ## Helpers -/

/-- A view of the next state, if there is one. -/
def after {α : Type} (r : Result) (f : State → α) : Option α :=
  match r with
  | .next t => some (f t)
  | .fault _ => none
  | .refused _ => none

/-- The responses given by a step from a state that had given none. -/
def replies (r : Result) : Option (List Response) := after r State.responses

/-- The state with timestamp registers loaded. -/
def regs (s : State) (l : List (RegNum × Timestamp)) : State := l.foldl (fun s p => s.setT p.1 p.2) s

/-- The example configuration EX of spec/95_test_vectors.md, with a value of CTRL. -/
def cfgEx (ctrl : BitVec 4) : CfgRegs :=
  { CfgRegs.reset with
    ctrl := ctrl, frameLen := #v[16, 12, 24, 20]
    pollCtrIdx := 10, finalPollTxIdx := 10, finalRespRxIdx := 14, finalFinalTxIdx := 18, reportPollRxIdx := 10
    reportRespTxIdx := 14
    tpl := #v[0x2145564157DECA008841, 0x1041574556DECA008841, 0x2345564157DECA008841, 0x2A41574556DECA008841]
    respDelay := 0x10000, finalDelay := 0x20000, txAntDly := 16, toPoll := 5000, stsCtrInc := 1 }

/-- The reset state with EX. -/
def ex (ctrl : BitVec 4) : State := { State.reset with cfg := cfgEx ctrl }

/-- The reset state, with STATE set. -/
def at' (x : SeqState) : State := { State.reset with state := x }

/-- The session's key and IV loaded (vector T3). -/
def withSession (s : State) : State :=
  { s with
    stsKey := 0x0123456789ABCDEF0123456789ABCDEF, keySet := true
    stsIv := 0x1F9A3DE4D37EC3CAC44FA8FB00000001, ivSet := true }

/-- The answers of a step that reads a frame. -/
def heard (f : List Byte) (score : BitVec 16) (t : BitVec 64) : HalAnswers :=
  { HalAnswers.reset with frameLen := f.length, frameBytes := f, score := score, timestamp := t }

/-- An exchange in progress with EX: the session locked, STATE as given. -/
def running (ctrl : BitVec 4) (x : SeqState) (a : HalAnswers) : State :=
  { withSession (ex ctrl) with state := x, session := true, firstDone := true, ans := a }

/-- The Poll of program P4, step 2, its trailing bytes in no field. -/
def pollFrame : List Byte :=
  [0x41, 0x88, 0x33, 0xCA, 0xDE, 0x57, 0x41, 0x56, 0x45, 0x21, 0x05, 0, 0, 0, 0xAA, 0xBB]

/-- The Final of program P4, step 8. -/
def finalFrame : List Byte :=
  [0x41, 0x88, 0x35, 0xCA, 0xDE, 0x57, 0x41, 0x56, 0x45, 0x23, 0x00, 0xFF, 0xFF, 0xFF, 0xB5, 0xFE, 0, 0, 0x25, 0x10,
   0x02, 0, 0xCC, 0xDD]

/-- The Report of program P5, step 3. -/
def reportFrame : List Byte :=
  [0x41, 0x88, 0x77, 0xCA, 0xDE, 0x56, 0x45, 0x57, 0x41, 0x2A, 0, 0x10, 0, 0x80, 0, 0x10, 0x03, 0x80, 0, 0]

/-- The Response of trace Q4. -/
def responseFrame : List Byte := [0x41, 0x88, 0x09, 0xCA, 0xDE, 0x56, 0x45, 0x57, 0x41, 0x10, 0, 0]

/-- The start of vector F1. -/
def f1 : State :=
  { regs (ex 0) [(0, 0x0012345678), (3, 0x00123A0000), (4, 0xAB123C4400)] with seq := 7 }

/-- The frame of vector F1 in the buffer, its registers reloaded with 0 (vector F2). -/
def f2 : State :=
  { regs (ex 0) [(0, 0), (3, 0), (4, 0)] with
    fb := Memory.writeBytes [] 0
      [0x41, 0x88, 0x07, 0xCA, 0xDE, 0x57, 0x41, 0x56, 0x45, 0x23, 0x78, 0x56, 0x34, 0x12, 0, 0, 0x3A, 0x12, 0, 0x44,
       0x3C, 0x12, 0, 0]
    fbLen := 24 }

/-- The operands of vector A1. -/
def aes1 : State :=
  { State.reset with aes := { AesRegs.reset with
      frameLen := 40, hdrLen := 10, micLen := 8, fcsLen := 2, bufCap := 127, errMask := 0x0F } }

/-! ## Words (vectors EN1 to EN21, the examples of R112 to R275, programs P1 to P6) -/

theorem test_decode_timestamp_unit :
    (decodeCommand 0x10500000).toOption = some (.tsld 5) ∧ (decodeCommand 0x11300000).toOption = some (.tsrd 3) ∧
    (decodeCommand 0x12760000).toOption = some (.tsmov 7 6) ∧
    (decodeCommand 0x13400000).toOption = some (.tscaptx 4) ∧
    (decodeCommand 0x14300000).toOption = some (.tscaprx 3) ∧
    (decodeCommand 0x15617000).toOption = some (.tsadd 6 1 7) ∧
    (decodeCommand 0x16654000).toOption = some (.tssub 6 5 4) ∧
    (decodeCommand 0x17630000).toOption = some (.tssub32 6 3 0) ∧
    (decodeCommand 0x18610000).toOption = some (.tslo32 6 1) ∧
    (decodeCommand 0x19670000).toOption = some (.tsalign 6 7) ∧
    (decodeCommand 0x1A216000).toOption = some (.tssched 2 1 6) ∧
    (decodeCommand 0x1B021000).toOption = some (.tscmp 2 1) ∧
    (decodeCommand 0x1C030000).toOption = some (.tscmp32 3 0) := by decide +kernel

theorem test_decode_estimator :
    (decodeCommand 0x20000000).toOption = some .tofss ∧ (decodeCommand 0x21000000).toOption = some .tofds ∧
    (decodeCommand 0x22000000).toOption = some .tofrd := by decide +kernel

theorem test_decode_codec :
    (decodeCommand 0x30020000).toOption = some (.fenc .final) ∧
    (decodeCommand 0x31030000).toOption = some (.fdec .report) ∧
    (decodeCommand 0x32200E00).toOption = some (.fput32 2 14) ∧
    (decodeCommand 0x33600E00).toOption = some (.fget32 6 14) ∧
    (decodeCommand 0x34000900).toOption = some (.fbwr 9) ∧ (decodeCommand 0x35008000).toOption = some (.fbrd 128) ∧
    (decodeCommand 0x36000000).toOption = some .flenw ∧
    (decodeCommand 0x37000000).toOption = some .flenr := by decide +kernel

theorem test_decode_sts :
    (decodeCommand 0x40000000).toOption = some .stskey ∧ (decodeCommand 0x41000000).toOption = some .stsiv ∧
    (decodeCommand 0x42000000).toOption = some .stsbegin ∧ (decodeCommand 0x43000000).toOption = some .stschk ∧
    (decodeCommand 0x44000000).toOption = some .stsresync ∧ (decodeCommand 0x45000000).toOption = some .stslock ∧
    (decodeCommand 0x46000000).toOption = some .stsunlock := by decide +kernel

theorem test_decode_system_and_aes :
    (decodeCommand 0x00000000).toOption = some .nop ∧ (decodeCommand 0x50000000).toOption = some .xstart ∧
    (decodeCommand 0x51000000).toOption = some .xclr ∧ (decodeCommand 0x52370000).toOption = some (.cfgw 0x37) ∧
    (decodeCommand 0x53010000).toOption = some (.cfgr 0x01) ∧
    (decodeCommand 0x60000000).toOption = some .aesnonce ∧ (decodeCommand 0x61000000).toOption = some .aeslen ∧
    (decodeCommand 0x62000000).toOption = some .aescls ∧
    (decodeCommand 0x63000000).toOption = some .aesprot := by decide +kernel

theorem test_decode_events :
    (decodeEvent 0x1).toOption = some .evGood ∧ (decodeEvent 0x2).toOption = some .evRxErr ∧
    (decodeEvent 0x4).toOption = some .evRxTo ∧ (decodeEvent 0x8).toOption = some .evTxDone ∧
    (decodeEvent 0x0).toOption = none ∧ (decodeEvent 0x3).toOption = none := by decide +kernel

/-- EN11 to EN18. -/
theorem test_illegal_words :
    ([0x00000001, 0x10800000, 0x10010000, 0x1B100000, 0x30040000, 0x32200E01, 0x52000100, 0x01000000, 0x1D000000,
      0x47000000, 0xFF000000] : List CmdWord).all (fun w => (decodeCommand w).toOption = none) = true := by
  decide +kernel

theorem test_table_words :
    decodeTableWord 32 0x10500000 = some (.tsld 5) ∧ decodeTableWord 8 0x4 = some .evRxTo ∧
    decodeTableWord 8 0x10 = none ∧ decodeTableWord 32 0x01000000 = none := by decide +kernel

/-- WellFormed refuses reserved and read-only indexes (EN19, EN20), and no other term of the syntax. -/
theorem test_ill_formed_indexes :
    (Instr.cfgw 0x0E).wellFormed = false ∧ (Instr.cfgr 0x38).wellFormed = false ∧
    (Instr.cfgw 0x01).wellFormed = false ∧ (Instr.cfgr 0x01).wellFormed = true ∧
    (Instr.cfgw 0x48).wellFormed = true := by decide +kernel

/-- V36: illegal before busy; EN21: an AES opcode without the unit. -/
theorem test_step_illegal :
    replies (step { at' .awaitPoll with inputs := [.command 0x10800000 0 HalAnswers.reset] }) =
      some [⟨.errIllegal, 0⟩] ∧
    replies (step { State.reset with hasAes := false, inputs := [.command 0x60000000 0 HalAnswers.reset] }) =
      some [⟨.errIllegal, 0⟩] := by decide +kernel

/-- Y1 as the first instruction after reset. -/
theorem test_fetch_first : replies (step (State.reset.withFetchWord 32 0x53010000)) = some [⟨.ok, 0x200⟩] := by
  decide +kernel

/-! ## Timestamp unit (vectors V1 to V37) -/

theorem test_nop : replies (exec .nop (at' .awaitPoll)) = some [⟨.ok, 0⟩] := by decide +kernel

theorem test_tsld_low_bits : -- V18
    after (exec (.tsld 0) { State.reset with opnd := 0x1000000000005 }) (fun t => (t.ts[0], t.tsw[0])) =
      some (5, true) := by decide +kernel

theorem test_tsld_busy : replies (exec (.tsld 6) (at' .awaitPoll)) = some [⟨.errBusy, 0⟩] := by decide +kernel -- V35

theorem test_tsrd : replies (exec (.tsrd 0) (regs State.reset [(0, 1000)])) = some [⟨.ok, 1000⟩] := by decide +kernel

theorem test_tsrd_unwritten : replies (exec (.tsrd 3) (at' .awaitPoll)) = some [⟨.errUnwritten, 3⟩] := by -- V31
  decide +kernel

theorem test_tsmov : after (exec (.tsmov 6 1) (regs State.reset [(1, 0xAB12345678)])) (fun t => t.ts[6]) =
    some 0xAB12345678 := by decide +kernel

theorem test_tscaptx : -- V37
    after (exec (.tscaptx 0) { State.reset with ans := heard [] 0 0xABCDEFFFFFFFFF00 })
      (fun t => (t.ts[0], t.calls)) = some (0xFFFFFFFF00, [.readTimestamp .tx]) := by decide +kernel

theorem test_tscaprx :
    after (exec (.tscaprx 3) { State.reset with ans := heard [] 0 0x12FFFFF123 }) (fun t => (t.ts[3], t.calls)) =
      some (0x12FFFFF123, [.readTimestamp .rx]) := by decide +kernel

theorem test_tsadd_wraps : -- V1
    after (exec (.tsadd 2 0 1) (regs State.reset [(0, 0xFFFFFFFF00), (1, 0x200)])) (fun t => t.ts[2]) = some 0x100 := by
  decide +kernel

theorem test_tsadd_same : -- V34
    after (exec (.tsadd 6 6 6) (regs State.reset [(6, 0x4000000001)])) (fun t => t.ts[6]) = some 0x8000000002 := by
  decide +kernel

theorem test_tssub_wraps : -- V5
    after (exec (.tssub 2 0 1) (regs State.reset [(0, 0xFFFFFFFF00), (1, 0x100)])) (fun t => t.ts[2]) =
      some 0xFFFFFFFE00 := by decide +kernel

theorem test_tssub_unwritten : -- V32, V33
    replies (exec (.tssub 6 5 4) State.reset) = some [⟨.errUnwritten, 5⟩] ∧
    replies (exec (.tssub 6 5 4) (regs State.reset [(5, 1)])) = some [⟨.errUnwritten, 4⟩] := by decide +kernel

theorem test_tssub32_carry : -- V7
    after (exec (.tssub32 6 3 0) (regs State.reset [(3, 0x0100000010), (0, 0x00FFFFFFF0)])) (fun t => t.ts[6]) =
      some 0x20 := by decide +kernel

theorem test_tssub32_never_negative : -- V10
    after (exec (.tssub32 6 3 0) (regs State.reset [(3, 1000), (0, 1360)])) (fun t => t.ts[6]) =
      some 0x00FFFFFE98 := by decide +kernel

theorem test_tslo32 : -- V11
    after (exec (.tslo32 6 1) (regs State.reset [(1, 0xAB12345678)])) (fun t => t.ts[6]) = some 0x12345678 := by
  decide +kernel

theorem test_tsalign : -- V12, V15
    after (exec (.tsalign 6 6) (regs State.reset [(6, 0x13FF)])) (fun t => t.ts[6]) = some 0x1200 ∧
    after (exec (.tsalign 6 6) (regs State.reset [(6, 0xFFFFFFFFFF)])) (fun t => t.ts[6]) = some 0xFFFFFFFE00 := by
  decide +kernel

theorem test_tssched_wraps : -- V16
    after (exec (.tssched 2 1 6) (regs State.reset [(1, 0xFFFFFFFE10), (6, 0x400)])) (fun t => t.ts[2]) =
      some 0x200 := by decide +kernel

theorem test_tscmp : -- V21, V25
    replies (exec (.tscmp 2 1) (regs State.reset [(2, 0x100), (1, 0xFFFFFFFF00)])) = some [⟨.ok, 4⟩] ∧
    replies (exec (.tscmp 2 1) (regs State.reset [(2, 0x8000000000), (1, 0)])) = some [⟨.ok, 10⟩] := by decide +kernel

theorem test_tscmp32 : -- V27, V30
    replies (exec (.tscmp32 3 0) (regs State.reset [(3, 0xAB00000010), (0, 0x12FFFFFFF0)])) = some [⟨.ok, 4⟩] ∧
    replies (exec (.tscmp32 3 0) (regs State.reset [(3, 0), (0, 1)])) = some [⟨.ok, 2⟩] := by decide +kernel

/-! ## Estimator (vectors E1 to E23) -/

theorem test_tofss_example : -- E1
    after (exec .tofss (regs State.reset [(0, 1000), (1, 1050), (2, 1300), (3, 1360)])) (fun t => (t.tof, t.tofValid)) =
      some (55, true) := by decide +kernel

theorem test_tofss_ratio : -- E12
    after (exec .tofss { regs State.reset [(0, 0), (1, 0), (2, 65536), (3, 65646)] with k := 0xB7800000 })
      (fun t => t.tof) = some (109 / 2) := by decide +kernel

theorem test_tofds_distinct : -- E5
    after (exec .tofds (regs State.reset [(0, 0), (1, 5000), (2, 5700), (3, 1000), (4, 1800), (5, 6600)]))
      (fun t => t.tof) = some 100 := by decide +kernel

theorem test_tofds_degenerate : -- E8
    replies (exec .tofds (regs State.reset [(0, 7), (1, 7), (2, 7), (3, 7), (4, 7), (5, 7)])) =
      some [⟨.degenerate, 0⟩] := by decide +kernel

theorem test_tofrd_truncates : -- E22, E18
    replies (exec .tofrd { State.reset with tof := -1 / 2, tofValid := true }) = some [⟨.ok, 0⟩] ∧
    replies (exec .tofrd { State.reset with tof := -495, tofValid := true }) =
      some [⟨.ok, BitVec.ofInt 128 (-495)⟩] := by decide +kernel

theorem test_tofrd_invalid : replies (exec .tofrd State.reset) = some [⟨.errUnwritten, 0x10⟩] := by -- E21
  decide +kernel

/-! ## Frame codec (vectors F1 to F21) -/

theorem test_fenc_final : -- F1
    after (exec (.fenc .final) f1) (fun t => (Memory.readBytes t.fb 0 24, t.fbLen, t.responses)) =
      some ([0x41, 0x88, 0x07, 0xCA, 0xDE, 0x57, 0x41, 0x56, 0x45, 0x23, 0x78, 0x56, 0x34, 0x12, 0, 0, 0x3A, 0x12, 0,
        0x44, 0x3C, 0x12, 0, 0], 24, [⟨.ok, 24⟩]) := by decide +kernel

theorem test_fenc_poll_iv_unset : -- F5
    replies (exec (.fenc .poll) (ex 0b0100)) = some [⟨.errUnwritten, 0x21⟩] := by decide +kernel

theorem test_fdec_final : -- F2
    after (exec (.fdec .final) f2) (fun t => (t.ts[0], t.ts[3], t.ts[4], Memory.read t.fb 2, t.responses)) =
      some (0x0012345678, 0x00123A0000, 0x00123C4400, 0, [⟨.ok, 2⟩]) := by decide +kernel

theorem test_fdec_mismatch : -- F7
    after (exec (.fdec .final) { f2 with fb := Memory.write f2.fb 9 0x24 })
      (fun t => (t.ts[0], Memory.read t.fb 2, t.responses)) = some (0, 0, [⟨.mismatch, 0⟩]) := by decide +kernel

theorem test_fput32 : -- F15, F17
    after (exec (.fput32 1 10) (regs State.reset [(1, 0xAB12345678)])) (fun t => t.fb) =
      some [(10, 0x78), (11, 0x56), (12, 0x34), (13, 0x12)] ∧
    replies (exec (.fput32 1 124) (regs State.reset [(1, 0)])) = some [⟨.ok, 0⟩] := by decide +kernel

theorem test_fput32_range_first : -- F18
    replies (exec (.fput32 0 125) State.reset) = some [⟨.errRange, 0⟩] := by decide +kernel

theorem test_fget32 : -- F16
    after (exec (.fget32 6 14) { State.reset with fb := [(16, 0x3A), (17, 0x12)] }) (fun t => (t.ts[6], t.tsw[6])) =
      some (0x00123A0000, true) := by decide +kernel

theorem test_fbwr : after (exec (.fbwr 9) { State.reset with opnd := 0x124 }) (fun t => t.fb) = some [(9, 0x24)] := by
  decide +kernel

theorem test_fbrd : -- F19
    replies (exec (.fbrd 127) { State.reset with fb := [(127, 0x99)] }) = some [⟨.ok, 0x99⟩] ∧
    replies (exec (.fbrd 128) State.reset) = some [⟨.errRange, 0⟩] := by decide +kernel

theorem test_flenw : -- F20
    after (exec .flenw { State.reset with opnd := 128 }) (fun t => t.fbLen) = some 128 ∧
    replies (exec .flenw { State.reset with opnd := 129 }) = some [⟨.errRange, 0⟩] := by decide +kernel

theorem test_flenr : replies (exec .flenr f2) = some [⟨.ok, 24⟩] := by decide +kernel

/-! ## STS unit (vectors T1 to T11) -/

theorem test_stskey : -- T7, T11
    after (exec .stskey { State.reset with opnd := 5 }) (fun t => (t.stsKey, t.keySet)) = some (5, true) ∧
    replies (exec .stskey { State.reset with firstDone := true }) = some [⟨.errLocked, 0⟩] ∧
    replies (exec .stskey (at' .done)) = some [⟨.errState, 0⟩] := by decide +kernel

theorem test_stsiv :
    after (exec .stsiv { State.reset with opnd := 0x1F9A3DE4D37EC3CAC44FA8FB00000001 }) (fun t => (t.stsIv, t.ivSet)) =
      some (0x1F9A3DE4D37EC3CAC44FA8FB00000001, true) := by decide +kernel

theorem test_stsbegin_first : -- T3
    after (exec .stsbegin (withSession (ex 0))) (fun t => (t.firstDone, t.calls, t.responses)) =
      some (true, [.configureSts 0x0123456789ABCDEF0123456789ABCDEF 0x1F9A3DE4D37EC3CAC44FA8FB00000001],
        [⟨.ok, 1⟩]) := by decide +kernel

theorem test_stsbegin_wraps : -- T8
    after (exec .stsbegin
        { ex 0 with
          keySet := true, ivSet := true, firstDone := true, stsIv := 0xFFFFFFFF
          cfg := { cfgEx 0 with stsCtrInc := 2 } })
      (fun t => (t.stsIv, t.calls, t.responses)) = some (1, [.reloadStsCounter 1], [⟨.ok, 1⟩]) := by decide +kernel

theorem test_stschk : -- T9, T10
    after (exec .stschk { State.reset with ans := heard [] 0xFFFF 0 }) (fun t => (t.stsScore, t.responses)) =
      some (0xFFFF, [⟨.ok, 0⟩]) ∧
    replies (exec .stschk { State.reset with ans := heard [] 0 0 }) = some [⟨.ok, 1⟩] := by decide +kernel

theorem test_stsresync : -- T5, T6
    after (exec .stsresync { State.reset with pollCtr := 0x42, stsIv := 0xAB00000007 })
      (fun t => (t.stsIv, t.responses)) = some (0xAB00000042, [⟨.ok, 1⟩]) ∧
    after (exec .stsresync { State.reset with pollCtr := 0x42, stsIv := 0xAB00000007, resyncPending := false })
      (fun t => (t.stsIv, t.responses)) = some (0xAB00000007, [⟨.ok, 0⟩]) := by decide +kernel

theorem test_stslock : after (exec .stslock State.reset) (fun t => t.resyncPending) = some false := by decide +kernel

theorem test_stsunlock :
    after (exec .stsunlock { State.reset with resyncPending := false }) (fun t => t.resyncPending) = some true := by
  decide +kernel

/-! ## System commands (vectors Y1 to Y11) -/

theorem test_xstart_unconfigured : -- Y2
    after (exec .xstart State.reset) (fun t => (t.session, t.responses)) = some (false, [⟨.errConfig, 0⟩]) := by
  decide +kernel

theorem test_xstart_initiator : -- Q4, its first step; STATUS by R38
    after (exec .xstart { ex 0b1010 with cfg := { cfgEx 0b1010 with dPoll := 400 } })
      (fun t => (t.calls, t.statusView)) =
      some ([.transmit [0x41, 0x88, 0, 0xCA, 0xDE, 0x57, 0x41, 0x56, 0x45, 0x21, 0, 0, 0, 0, 0, 0] true,
        .receiveEnable (.delayedFromTimestamp 400)], 0x000A01) := by decide +kernel

theorem test_xclr : -- Y3, Y11
    replies (exec .xclr State.reset) = some [⟨.errState, 0⟩] ∧
    after (exec .xclr { at' .done with outcome := .success, tofValid := true })
      (fun t => (t.state, t.outcome, t.tofValid)) = some (.idle, .none, true) := by decide +kernel

theorem test_cfgw_template : -- Y5
    after (exec (.cfgw 0x20) { State.reset with opnd := 0x2145564157DECA078841 })
      (fun t => t.cfg.tpl[0]) = some 0x2145564157DECA008841 := by decide +kernel

theorem test_cfgw_refused : -- EN20, Y7, Y9, Y10
    replies (exec (.cfgw 0x36) State.reset) = some [⟨.errIllegal, 0⟩] ∧
    replies (exec (.cfgw 0x03) { State.reset with session := true }) = some [⟨.errLocked, 0⟩] ∧
    replies (exec (.cfgw 0x37) (at' .awaitPoll)) = some [⟨.errBusy, 0⟩] ∧
    replies (exec (.cfgw 0x03) (at' .done)) = some [⟨.errState, 0⟩] := by decide +kernel

theorem test_cfgr_score : -- T9
    replies (exec (.cfgr 0x34) { State.reset with stsScore := 0xFFFF }) =
      some [⟨.ok, 0xFFFFFFFFFFFFFFFFFFFFFFFFFFFFFFFF⟩] := by decide +kernel

theorem test_cfgr_status : -- P1, step 9
    replies (exec (.cfgr 0x01)
      { regs State.reset [(0, 1000), (1, 1050), (2, 1300), (3, 1360), (6, 360), (7, 250)] with tofValid := true }) =
      some [⟨.ok, 0x33C300⟩] := by decide +kernel

/-! ## AES unit (vectors A1 to A8) -/

theorem test_aesnonce : -- A6
    replies (exec .aesnonce { State.reset with
      aes := { AesRegs.reset with ctr := 0x060504030201, src := 0x0C0B0A090807 } }) =
      some [⟨.ok, 0x0C0B0A090807060504030201⟩] := by decide +kernel

theorem test_aeslen : -- A1, A2
    replies (exec .aeslen aes1) = some [⟨.ok, 20⟩] ∧
    replies (exec .aeslen { aes1 with aes := { aes1.aes with frameLen := 15, micLen := 16 } }) =
      some [⟨.lengthError, BitVec.ofInt 128 (-13)⟩] := by decide +kernel

theorem test_aeslen_capacity : -- A3, A4
    replies (exec .aeslen { aes1 with aes := { aes1.aes with frameLen := 139, micLen := 0 } }) =
      some [⟨.lengthError, 127⟩] ∧
    replies (exec .aeslen { aes1 with aes := { aes1.aes with frameLen := 138, micLen := 0 } }) =
      some [⟨.ok, 126⟩] := by decide +kernel

theorem test_aescls : -- A7
    replies (exec .aescls { aes1 with opnd := 0x04 }) = some [⟨.cryptoError, 4⟩] ∧
    replies (exec .aescls { aes1 with opnd := 0x10 }) = some [⟨.ok, 0⟩] ∧
    replies (exec .aescls { aes1 with opnd := 0xFF }) = some [⟨.lengthError, BitVec.ofInt 128 (-1)⟩] := by decide +kernel

theorem test_aesprot : -- A8
    after (exec .aesprot { aes1 with ans := { HalAnswers.reset with aes := 4 } }) (fun t => (t.calls, t.responses)) =
      some ([.doAes ⟨0, 10, 20, 8, 0⟩], [⟨.cryptoError, 4⟩]) := by decide +kernel

theorem test_aesprot_length : -- A5
    after (exec .aesprot { aes1 with aes := { aes1.aes with frameLen := 15, micLen := 16 } })
      (fun t => (t.calls, t.responses)) = some ([], [⟨.lengthError, BitVec.ofInt 128 (-13)⟩]) := by decide +kernel

/-! ## Sequencer (traces Q1 to Q4, programs P4 to P6) -/

theorem test_timeout : -- Q1
    after (exec .evRxTo { ex 1 with state := .awaitPoll, session := true })
      (fun t => (t.statusView, t.cnt.rxTimeout, t.calls)) = some (0x000A4C, 1, [.awaitStatus 0b0111 5000]) := by
  decide +kernel

theorem test_reception_error : -- Q1
    after (exec .evRxErr { ex 1 with state := .awaitPoll, session := true })
      (fun t => (t.statusView, t.cnt.rxError)) = some (0x000A5F, 1) := by decide +kernel

theorem test_bad_quality_poll : -- P4, step 2
    after (exec .evGood (running 7 .awaitPoll (heard pollFrame 0xFFFD 0)))
      (fun t => (t.pollCtr, t.stsCtr, t.cnt.badSts, t.statusView, Memory.read t.fb 2)) =
      some (5, 5, 1, 0x003E3E, 0) := by decide +kernel

theorem test_good_final : -- P4, step 8
    after (exec .evGood { regs (running 7 .awaitFinal (heard finalFrame 9 0xABCDEF1300020248)) [(1, 0), (2, 0)] with
        resyncPending := false })
      (fun t => (t.ts[0], t.ts[3], t.ts[4], t.ts[5], t.statusView)) =
      some (0x00FFFFFF00, 0x000000FEB5, 0x0000021025, 0x1300020248, 0x0FFC0A) := by decide +kernel

theorem test_poll_transmitted : -- P5, step 2
    after (exec .evTxDone
        { ex 0 with state := .pollSent, session := true, seq := 0x10, ans := heard [] 0 0xFFFFFFFF00 })
      (fun t => (t.ts[0], t.seq, t.statusView)) = some (0xFFFFFFFF00, 0x11, 0x004A02) := by decide +kernel

theorem test_delayed_reply : -- P4, step 6
    after (coreStep { regs (running 7 .pollValid HalAnswers.reset) [(1, 0x12FFFFF123)] with
        cfg := { cfgEx 7 with dResp := 1000 } })
      (fun t => (t.ts[2], t.statusView, t.calls)) =
      some (0x130000F010, 0x01BE08,
        [.transmitDelayed [0x41, 0x88, 0, 0xCA, 0xDE, 0x56, 0x45, 0x57, 0x41, 0x10, 0, 0] 0x130000F000,
          .receiveEnable (.delayedFromTimestamp 1000)]) := by decide +kernel

theorem test_late_start : -- P6, step 3
    after (coreStep { regs (ex 1) [(1, 0x1234)] with
        state := .pollValid, session := true, ans := { HalAnswers.reset with start := .lateStart }
        cfg := { cfgEx 1 with respDelay := 0x100, txAntDly := 0 } })
      (fun t => (t.ts[2], t.statusView)) = some (0x1200, 0x018A6F) := by decide +kernel

theorem test_event_outside_mask :
    exec .evGood { ex 0 with state := .pollSent } = .fault .eventOutsideContract := rfl

/-! ## Witnesses: a state and operands that meet the hypotheses of each statement, clause by clause -/

theorem witness_EncodeOfDecode : decode (.command 0x15617000) = .ok (.tsadd 6 1 7) := rfl

theorem witness_DecodedWordsMatchTheTable :
    ((0xFF8FFFFF, 0x10000000) : CmdWord × CmdWord) ∈ commandRows true ∧
    (0x10500000 : CmdWord) &&& 0xFF8FFFFF = 0x10000000 := by decide +kernel

theorem witness_WrittenOutWordsDecode : (0xF : EventBits) ≠ 1 ∧ (0xF : EventBits) ≠ 2 ∧ (0xF : EventBits) ≠ 4 ∧
    (0xF : EventBits) ≠ 8 := by decide

theorem witness_StepRunsTheDecodedInstruction :
    (State.place State.reset (.command 0x11000000)).inputs = [.command 0x11000000 0 HalAnswers.reset] ∧
    decode (.command 0x11000000) = .ok (.tsrd 0) ∧
    (State.place State.reset (.event 0x8)).inputs = [.event 0x8 HalAnswers.reset] ∧
    decode (.event 0x8) = .ok .evTxDone := ⟨rfl, rfl, rfl, rfl⟩

theorem witness_IllegalWordsAreRefused :
    ((commandRows true).all fun r => (0x10800000 : CmdWord) &&& r.1 ≠ r.2) = true ∧
    ((commandRows false).all fun r => (0x60000000 : CmdWord) &&& r.1 ≠ r.2) = true := by decide +kernel

theorem witness_CoreStepsOnlyInTauStates :
    State.reset.inputs = [] ∧ State.reset.state ∉ [SeqState.respondValid, .pollValid, .finalValid] ∧
    (at' .pollValid).inputs = [] ∧ (at' .pollValid).state ∈ [SeqState.respondValid, .pollValid, .finalValid] ∧
    ({ State.reset with inputs := [.core HalAnswers.reset] } : State).inputs = .core HalAnswers.reset :: [] := by
  decide +kernel

theorem witness_ResetInputGivesTheResetState :
    ({ at' .badSts with inputs := [.reset] } : State).inputs = .reset :: [] := rfl

theorem witness_LoadsAndCaptures : State.reset.state.isActive = false ∧ (at' .finalValid).state.isActive = true := by
  decide

theorem witness_TsrdReadsWrittenRegisters :
    (regs State.reset [(7, 1)]).tsw[(7 : RegNum)] = true ∧ State.reset.tsw[(0 : RegNum)] = false := by decide +kernel

theorem witness_OneSourceCommands :
    (regs State.reset [(1, 0xAB12345678)]).state.isActive = false ∧
    (regs State.reset [(1, 0xAB12345678)]).tsw[(1 : RegNum)] = true ∧
    (regs State.reset [(1, 0xAB12345678)]).tsw[(0 : RegNum)] = false ∧
    (at' .pollSent).state.isActive = true := by decide +kernel

theorem witness_TwoSourceCommands :
    (regs State.reset [(5, 1), (4, 2)]).state.isActive = false ∧
    (regs State.reset [(5, 1), (4, 2)]).allWritten [5, 4] ∧
    (regs State.reset [(5, 1)]).tsw[(5 : RegNum)] = true ∧ (regs State.reset [(5, 1)]).tsw[(4 : RegNum)] = false ∧
    (at' .pollSent).state.isActive = true := by decide +kernel

theorem witness_ComparisonVerdicts :
    (regs State.reset [(2, 0x8000000000), (1, 0)]).allWritten [2, 1] ∧
    (regs State.reset [(2, 1)]).tsw[(2 : RegNum)] = true ∧
    (regs State.reset [(2, 1)]).tsw[(1 : RegNum)] = false := by decide +kernel

/-- Two instants across the 40-bit wrap, at the longest distance of each comparison. -/
theorem witness_ComparisonGivesTheTrueOrder :
    (regs State.reset [(2, 0x7FFFFFFF00), (1, 0xFFFFFFFF01)]).allWritten [2, 1] ∧
    (0x7FFFFFFF00 : Timestamp) = BitVec.ofNat 40 (0xFFFFFFFF01 + (2 ^ 39 - 1)) ∧
    (0x007FFFFF00 : Timestamp) = BitVec.ofNat 40 (0xFFFFFFFF01 + (2 ^ 31 - 1)) ∧
    (0xFFFFFFFF01 : Timestamp) = BitVec.ofNat 40 0xFFFFFFFF01 := by decide +kernel

theorem witness_DifferencesAreElapsedTime :
    (regs State.reset [(2, 0xFF), (1, 0x100)]).state.isActive = false ∧
    (regs State.reset [(2, 0xFF), (1, 0x100)]).allWritten [2, 1] ∧
    (0xFF : Timestamp) = BitVec.ofNat 40 (0x100 + (2 ^ 40 - 1)) ∧
    (0x100 : Timestamp) = BitVec.ofNat 40 0x100 := by decide +kernel

/-- E1 (a result), E4 (degenerate), E14 (a non-finite ratio), E23 (unwritten), and a busy block. -/
theorem witness_TofssEstimates :
    (regs State.reset [(0, 1000), (1, 1050), (2, 1300), (3, 1360)]).allWritten [0, 1, 2, 3] ∧
    ¬ nonFinite 0 ∧ nonFinite 0x7F800000 ∧
    ¬ ((regs State.reset [(0, 1000), (1, 1050), (2, 1300), (3, 1360)]).delta 3 0 = 0 ∧
      (regs State.reset [(0, 1000), (1, 1050), (2, 1300), (3, 1360)]).delta 2 1 = 0) ∧
    (regs State.reset [(0, 5), (1, 9), (2, 9), (3, 5)]).delta 3 0 = 0 ∧
    (regs State.reset [(0, 5), (1, 9), (2, 9), (3, 5)]).delta 2 1 = 0 ∧
    (regs State.reset [(0, 5)]).firstMissing [0, 1, 2, 3] 1 ∧ (at' .awaitAck).state.isActive = true := by
  decide +kernel

/-- E20 (every delta at its largest), E8 (degenerate), E23 (unwritten). -/
theorem witness_TofdsEstimates :
    (regs State.reset [(0, 0), (1, 0), (2, 0xFFFFFFFF), (3, 0xFFFFFFFF), (4, 0xFFFFFFFE),
      (5, 0xFFFFFFFE)]).allWritten [0, 1, 2, 3, 4, 5] ∧
    (regs State.reset [(0, 0), (1, 0), (2, 0xFFFFFFFF), (3, 0xFFFFFFFF), (4, 0xFFFFFFFE),
      (5, 0xFFFFFFFE)]).delta 5 2 = 2 ^ 32 - 1 ∧
    (regs State.reset [(0, 7), (1, 7), (2, 7), (3, 7), (4, 7), (5, 7)]).delta 4 3 = 0 ∧
    (regs State.reset [(0, 5)]).firstMissing [0, 1, 2, 3, 4, 5] 1 := by decide +kernel

/-- The bounds of the signed 64-bit range, and half below zero. -/
theorem witness_TofrdRoundsTowardZero :
    (-2 ^ 63 : ℤ) = (if 0 ≤ (-2 ^ 63 : ℚ) then ⌊(-2 ^ 63 : ℚ)⌋ else ⌈(-2 ^ 63 : ℚ)⌉) ∧
    (2 ^ 63 : ℤ) = (if 0 ≤ (2 ^ 63 : ℚ) then ⌊(2 ^ 63 : ℚ)⌋ else ⌈(2 ^ 63 : ℚ)⌉) ∧
    (0 : ℤ) = (if 0 ≤ (-1 / 2 : ℚ) then ⌊(-1 / 2 : ℚ)⌋ else ⌈(-1 / 2 : ℚ)⌉) ∧
    State.reset.tofValid = false ∧ ({ State.reset with tof := -1 / 2, tofValid := true } : State).tofValid = true := by
  decide +kernel

/-- E6, and a next state of TOFSS. -/
theorem witness_EstimatesDependOnDeltasOnly :
    (regs State.reset [(0, 0), (1, 0), (2, 1000), (3, 1110), (4, 2110), (5, 2110)]).allWritten [0, 1, 2, 3, 4, 5] ∧
    (regs State.reset [(0, 0), (1, 0), (2, 1000), (3, 1110), (4, 2110), (5, 2110)]).delta 3 0 = 1110 ∧
    (regs State.reset [(0, 0), (1, 0), (2, 1000), (3, 1110), (4, 2110), (5, 2110)]).delta 5 2 = 1110 ∧
    (regs State.reset [(0, 0), (1, 0), (2, 1000), (3, 1110), (4, 2110), (5, 2110)]).delta 4 3 = 1000 ∧
    (regs State.reset [(0, 0), (1, 0), (2, 1000), (3, 1110), (4, 2110), (5, 2110)]).delta 2 1 = 1000 ∧
    replies (exec .tofss (regs State.reset [(0, 0), (1, 0), (2, 1000), (3, 1110)])) = some [⟨.ok, 0⟩] ∧
    ¬ nonFinite 0 ∧ ratioOfPattern 0 = 0 ∧ ¬ nonFinite 0x80000000 ∧ ratioOfPattern 0x80000000 = 0 := by
  decide +kernel

theorem witness_LayoutIsChecked :
    (at' .respSent).state.isActive = true ∧ State.reset.state.isActive = false ∧
    ¬ layoutHolds State.reset .poll := by decide +kernel

/-- F1 (a Final), F4 (a Poll with its counter), F5, an unwritten source, and F21 (a header-only frame). -/
theorem witness_FencBuildsTheFrame :
    layoutHolds f1 .final ∧ Memory.wf f1.fb ∧ encodeReady f1 .final ∧
    layoutHolds (withSession (ex 4)) .poll ∧ encodeReady (withSession (ex 4)) .poll ∧
    carriesCounter (withSession (ex 4)) .poll ∧ carriesCounter (ex 4) .poll ∧ (ex 4).ivSet = false ∧
    (regs (ex 0) [(0, 1)]).firstMissing ((timestampFields (ex 0) .final).map Prod.fst) 3 ∧
    layoutHolds { ex 0 with cfg := { cfgEx 0 with frameLen := #v[16, 10, 24, 20] } } .response := by
  refine ⟨?_, ?_, ?_, ?_, ?_, ?_, ?_, ?_, ?_, ?_⟩ <;> decide +kernel

/-- F2, F7 and F11. -/
theorem witness_FdecDecodesTheFrame :
    layoutHolds f2 .final ∧ f2.fbLen = f2.frameLenOf .final ∧ Memory.wf f2.fb ∧ prefixMatches f2 .final ∧
    ¬ prefixMatches { f2 with fb := Memory.write f2.fb 9 0x24 } .final ∧
    ({ f2 with fbLen := 23 } : State).fbLen ≠ f2.frameLenOf .final := by decide +kernel

theorem witness_CodecRoundTrip :
    f1.state.isActive = false ∧ layoutHolds f1 .final ∧ Memory.wf f1.fb ∧ encodeReady f1 .final ∧
    (withSession (ex 4)).state.isActive = false ∧ layoutHolds (withSession (ex 4)) .poll ∧
    encodeReady (withSession (ex 4)) .poll ∧ carriesCounter (withSession (ex 4)) .poll := by decide +kernel

/-- A buffer that FDEC accepts, and a corruption of each kind: F7, F9, the first payload byte, the last byte. -/
theorem witness_PrefixCorruptionIsDetected :
    answers (.fdec .final) f2 .ok (kindNumber .final) ∧ f2.state.isActive = false ∧ Memory.wf f2.fb ∧
    (9 < 10 ∧ (0x24 : Byte) ≠ Memory.read f2.fb 9) ∧ (2 = 2 ∨ 10 ≤ 2 ∧ 2 < 128) ∧ (10 ≤ 10 ∧ 10 < 128) ∧
    (10 ≤ 127 ∧ 127 < 128) := by
  have h : replies (exec (.fdec .final) f2) = some [⟨.ok, 2⟩] := by decide +kernel
  refine ⟨?_, by decide +kernel⟩
  revert h
  unfold replies after answers
  cases exec (.fdec .final) f2 with
  | next t => intro h; exact ⟨t, rfl, Option.some.inj h⟩
  | fault _ => intro h; cases h
  | refused _ => intro h; cases h

theorem witness_SpanAccess :
    State.reset.state.isActive = false ∧ (124 : BitVec 8).toNat + 4 ≤ 128 ∧ Memory.wf State.reset.fb ∧
    (regs State.reset [(1, 7)]).tsw[(1 : RegNum)] = true ∧ State.reset.tsw[(0 : RegNum)] = false ∧
    128 < (125 : BitVec 8).toNat + 4 ∧ 128 < (255 : BitVec 8).toNat + 4 ∧ (at' .awaitFinal).state.isActive = true := by
  decide +kernel

theorem witness_ByteAndLengthAccess :
    (127 : BitVec 8).toNat < 128 ∧ 128 ≤ (128 : BitVec 8).toNat ∧ State.reset.state.isActive = false ∧
    Memory.wf State.reset.fb ∧ (128 : Datum).toNat % 256 ≤ 128 ∧ 128 < (129 : Datum).toNat % 256 ∧
    (at' .awaitFinal).state.isActive = true := by decide +kernel

theorem witness_SessionLoads :
    State.reset.state = .idle ∧ State.reset.firstDone = false ∧
    ({ State.reset with firstDone := true } : State).firstDone = true ∧ (at' .pollSent).state.isActive = true ∧
    (at' .done).state.isTerminal = true := by decide +kernel

theorem witness_StsbeginStartsTheExchange :
    (withSession (ex 0)).keySet = true ∧ (withSession (ex 0)).ivSet = true ∧
    (withSession (ex 0)).state.isActive = false ∧ (ex 0).keySet = false ∧
    ({ ex 0 with keySet := true } : State).ivSet = false ∧ (at' .pollSent).state.isActive = true := by decide +kernel

theorem witness_StschkReadsTheQuality :
    State.reset.state.isActive = false ∧ (at' .pollSent).state.isActive = true := by decide

theorem witness_ResyncCommands :
    State.reset.state.isActive = false ∧ State.reset.resyncPending = true ∧
    ({ State.reset with resyncPending := false } : State).resyncPending = false ∧
    (at' .pollSent).state.isActive = true := by decide

/-- Two blocks of one session, the second having decoded the first's Poll with counter 0x10. -/
theorem witness_OverwriteRealignsTheCounters :
    ({ withSession (ex 4) with firstDone := true, stsIv := 0xAB00000010 } : State).stsIv.toNat % 2 ^ 32 = 0x10 ∧
    ({ withSession (ex 4) with firstDone := true, pollCtr := 0x10 } : State).pollCtr.toNat = 0x10 ∧
    ({ withSession (ex 4) with firstDone := true, pollCtr := 0x10 } : State).resyncPending = true ∧
    (withSession (ex 4)).keySet = true ∧ (withSession (ex 4)).ivSet = true ∧
    (withSession (ex 4)).state.isActive = false := by decide +kernel

/-- Q4's configuration, and one with STS. -/
theorem witness_XstartAsInitiator :
    (ex 0b1010).state = .idle ∧ configHolds (ex 0b1010) ∧ (ex 0b1010).isResponder = false ∧
    configHolds (withSession (ex 0b0100)) ∧ (withSession (ex 0b0100)).usesSts = true ∧
    (withSession (ex 0b0100)).isResponder = false :=
  ⟨rfl, (configOK_iff _).mp (by decide +kernel), rfl, (configOK_iff _).mp (by decide +kernel), rfl, rfl⟩

/-- P4's configuration. -/
theorem witness_XstartAsResponder :
    (withSession (ex 7)).state = .idle ∧ configHolds (withSession (ex 7)) ∧
    (withSession (ex 7)).isResponder = true :=
  ⟨rfl, (configOK_iff _).mp (by decide +kernel), rfl⟩

theorem witness_XclrReturnsAndXstartIsRefused :
    (at' .failed).state.isTerminal = true ∧ (at' .pollSent).state.isActive = true ∧ State.reset.state = .idle ∧
    ¬ configHolds State.reset :=
  ⟨rfl, rfl, rfl, fun h => absurd ((configOK_iff _).mpr h) (by decide +kernel)⟩

/-- Y6, Y8 and an AES register; another register is readable. -/
theorem witness_CfgwWritesOneRegister :
    (0x03, 40, true) ∈ writableRegisters ∧ (0x37, 32, false) ∈ writableRegisters ∧
    (0x48, 8, false) ∈ writableRegisters ∧ aesIndex 0x48 ∧ State.reset.hasAes = true ∧ ¬ aesIndex 0x37 ∧
    State.reset.state = .idle ∧ State.reset.session = false ∧ State.reset.state.isActive = false ∧
    replies (exec (.cfgr 0x36) State.reset) = some [⟨.ok, 0⟩] := by decide +kernel

/-- EN20, EN21, Y7, Y9 and Y10. -/
theorem witness_CfgwRefusals :
    (0x36 : BitVec 8) ∉ writableRegisters.map Prod.fst ∧ (0x0E : BitVec 8) ∉ writableRegisters.map Prod.fst ∧
    aesIndex 0x40 ∧ ({ State.reset with hasAes := false } : State).hasAes = false ∧
    (0x03, 40, true) ∈ writableRegisters ∧ ¬ aesIndex 0x03 ∧ (at' .awaitPoll).state.isActive = true ∧
    (at' .done).state.isTerminal = true ∧ ({ State.reset with session := true } : State).state = .idle ∧
    ({ State.reset with session := true } : State).session = true := by decide +kernel

theorem witness_CfgrReadsTheMap :
    (0x00, 7) ∈ registerReadings (ex 7) ∧ (0x36, 1) ∈ registerReadings (withSession (ex 7)) ∧
    (0x48, 2) ∈ aesReadings aes1 ∧ aes1.hasAes = true ∧ (0x38 : BitVec 8) ∉ (registerReadings (ex 7)).map Prod.fst ∧
    (0x38 : BitVec 8) ∉ (aesReadings (ex 7)).map Prod.fst ∧
    ({ ex 7 with hasAes := false } : State).hasAes = false := by decide +kernel

/-- A1, and the two bounds of the length contract: 0 (in), the capacity (out); A2 below 0. -/
theorem witness_AesNonceAndLength :
    (20 : ℤ) = (aes1.aes.frameLen.toNat : ℤ) - aes1.aes.hdrLen.toNat - aes1.aes.micLen.toNat - aes1.aes.fcsLen.toNat ∧
    (0 : ℤ) ≤ 20 ∧ (20 : ℤ) < aes1.aes.bufCap.toNat ∧ (0 : ℤ) = (20 : ℤ) - 10 - 8 - 2 ∧
    (127 : ℤ) = (139 : ℤ) - 10 - 0 - 2 ∧ (-13 : ℤ) = (15 : ℤ) - 10 - 16 - 2 ∧ aes1.hasAes = true ∧
    ({ aes1 with hasAes := false } : State).hasAes = false := by decide +kernel

/-- A7: 0x80 is the first negative status, 0x04 has a masked bit, 0x10 has none. -/
theorem witness_AesclsClassifies :
    (0x80 : BitVec 8).toInt < 0 ∧ 0 ≤ (0x7F : BitVec 8).toInt ∧ (0x7F : BitVec 8) &&& aes1.aes.errMask ≠ 0 ∧
    0 ≤ (0x10 : BitVec 8).toInt ∧ (0x10 : BitVec 8) &&& aes1.aes.errMask = 0 ∧
    (0x80 : BitVec 8).toNat = (0x180 : Datum).toNat % 256 ∧ aes1.hasAes = true := by decide +kernel

theorem witness_AesprotRunsOneJob :
    aes1.hasAes = true ∧ aes1.state.isActive = false ∧
    (20 : ℤ) = (aes1.aes.frameLen.toNat : ℤ) - aes1.aes.hdrLen.toNat - aes1.aes.micLen.toNat - aes1.aes.fcsLen.toNat ∧
    (0 : ℤ) ≤ 20 ∧ (20 : ℤ) < aes1.aes.bufCap.toNat ∧
    ({ aes1 with state := .pollSent } : State).state.isActive = true := by decide +kernel

theorem witness_ReceptionFailuresEndTheExchange :
    (running 0b0010 .awaitResponse HalAnswers.reset).awaits .response ∧
    (running 0b0000 .awaitResponse HalAnswers.reset).awaits .report ∧
    (running 0b1010 .awaitAck HalAnswers.reset).awaits .report ∧
    (running 0b0011 .awaitPoll HalAnswers.reset).awaits .poll ∧
    (running 0b0011 .awaitFinal HalAnswers.reset).awaits .final := by decide +kernel

theorem witness_TransmissionsComplete :
    (running 0 .pollSent HalAnswers.reset).state = .pollSent ∧
    (running 0b1010 .finalSent HalAnswers.reset).ackEnabled = true ∧
    (running 0b0010 .finalSent HalAnswers.reset).ackEnabled = false ∧
    (running 0b0011 .respSent HalAnswers.reset).isDoubleSided = true ∧
    (running 0b0001 .respSent HalAnswers.reset).isDoubleSided = false := by decide +kernel

/-- The premises that a frame meets in its receive wait. -/
abbrev meets (s : State) (k : FrameKind) : Prop :=
  s.awaits k ∧ Memory.wf s.fb ∧ layoutHolds s k ∧ s.wholeFrame ∧ s.ofKind k

/-- P4 steps 5 and 8, P5 step 3, Q4, and an acknowledging Report; zero is a good score. -/
theorem witness_GoodFramesAreAccepted :
    meets (running 7 .awaitPoll (heard pollFrame 0 0x12FFFFF123)) .poll ∧
    (running 7 .awaitPoll (heard pollFrame 0 0x12FFFFF123)).qualityPasses ∧
    meets (running 7 .awaitFinal (heard finalFrame 9 0)) .final ∧
    (running 7 .awaitFinal (heard finalFrame 9 0)).qualityPasses ∧
    meets (running 0b0000 .awaitResponse (heard reportFrame 0 0)) .report ∧
    (running 0b0000 .awaitResponse (heard reportFrame 0 0)).qualityPasses ∧
    meets (running 0b1010 .awaitResponse (heard responseFrame 0 0)) .response ∧
    meets (running 0b1010 .awaitAck (heard reportFrame 0 0)) .report := by
  refine ⟨?_, ?_, ?_, ?_, ?_, ?_, ?_, ?_⟩ <;> decide +kernel

/-- Q2: a Final, and a frame of function code 0x22, where a Poll is awaited. -/
theorem witness_ForeignFramesEndInBadFrame :
    (running 1 .awaitPoll (heard finalFrame 0 0)).awaits .poll ∧
    layoutHolds (running 1 .awaitPoll (heard finalFrame 0 0)) .poll ∧
    (running 1 .awaitPoll (heard finalFrame 0 0)).wholeFrame ∧
    ¬ (running 1 .awaitPoll (heard finalFrame 0 0)).ofKind .poll ∧
    ¬ (running 1 .awaitPoll (heard (pollFrame.set 9 0x22) 0 0)).ofKind .poll ∧
    Memory.wf (running 1 .awaitPoll (heard finalFrame 0 0)).fb := by decide +kernel

/-- P4 step 2 (overwritten), Q3 (suppressed), both with a score of -1. -/
theorem witness_BadQualityEndsInBadSts :
    meets (running 7 .awaitPoll (heard pollFrame 0xFFFF 0)) .poll ∧
    (running 7 .awaitPoll (heard pollFrame 0xFFFF 0)).resyncPending = true ∧
    meets (running 7 .awaitFinal (heard finalFrame 0xFFFF 0)) .final ∧
    (running 7 .awaitFinal (heard finalFrame 0xFFFF 0)).usesSts = true ∧ (0xFFFF : BitVec 16).toInt < 0 := by
  decide +kernel

/-- P5 step 4 and P4 step 9 as states with E1's and E8's registers. -/
theorem witness_EstimatingStepsConclude :
    (regs (running 0 .respondValid HalAnswers.reset) [(0, 1000), (1, 1050), (2, 1300), (3, 1360)]).isDoubleSided =
      false ∧
    replies (exec .tofss
      (regs (running 0 .respondValid HalAnswers.reset) [(0, 1000), (1, 1050), (2, 1300), (3, 1360)]).atRest) =
        some [⟨.ok, 0⟩] ∧
    replies (exec .tofss { regs (at' .idle) [(0, 1000), (1, 1050), (2, 1300), (3, 1360)] with k := 0x7F800000 }) =
      some [⟨.errBadK, 0⟩] ∧
    replies (exec .tofds
      (regs (running 3 .finalValid HalAnswers.reset) [(0, 7), (1, 7), (2, 7), (3, 7), (4, 7), (5, 7)]).atRest) =
        some [⟨.degenerate, 0⟩] := by decide +kernel

/-- P4 step 6 and Q4's Final: FENC of the reply with the predicted timestamp in its register answers OK. -/
theorem witness_TransmittingStepsScheduleAndSend :
    targetNumber 0x12FFFFF123 0x10000 = 0x130000F000 ∧
    replies (exec (.fenc .response)
      ((regs (running 7 .pollValid HalAnswers.reset) [(1, 0x12FFFFF123)]).scheduled 1 2 0x10000).atRest) =
        some [⟨.ok, 12⟩] ∧
    targetNumber 0x123456 0x20000 = 0x143400 ∧
    replies (exec (.fenc .final)
      ((regs (running 0b1010 .respondValid HalAnswers.reset) [(0, 0x100000), (3, 0x123456)]).scheduled 3 4
        0x20000).atRest) = some [⟨.ok, 24⟩] := by decide +kernel

theorem witness_EventsOutsideAWaitOrItsMask :
    State.reset.wait = none ∧ decodeEvent 0x8 = .ok .evTxDone ∧ (running 0 .pollSent HalAnswers.reset).wait = some (0x8, 0) ∧
    (0x1 : EventBits) &&& 0x8 = 0 ∧ decodeEvent 0x1 = .ok .evGood ∧
    decodeEvent 0x3 = .error (.notOneEvent 0x3) := ⟨rfl, rfl, rfl, rfl, rfl, rfl⟩

/-- A Responder of P4 that waits for its Poll, with the radio's answer as the next input. -/
def waiting : State :=
  { running 7 .awaitPoll HalAnswers.reset with inputs := [.event 0x1 (heard pollFrame 12 0x12FFFFF123)] }

theorem witness_waiting_Inv : waiting.Inv :=
  ⟨by decide +kernel, by decide +kernel, by decide +kernel, rfl, rfl, fun _ => ⟨rfl, by decide +kernel⟩,
    by decide +kernel, fun _ => rfl, by decide +kernel, fun _ => ⟨rfl, rfl⟩⟩

theorem witness_StepKeepsInv : waiting.Inv ∧ ∃ t, step waiting = .next t ∧ t.state = .pollValid := by
  have h : after (step waiting) State.state = some .pollValid := by decide +kernel
  refine ⟨witness_waiting_Inv, ?_⟩
  revert h
  unfold after
  cases step waiting with
  | next t => intro h; exact ⟨t, rfl, by simpa using h⟩
  | fault _ => intro h; cases h
  | refused _ => intro h; cases h

theorem witness_NoStopUnderTheContract : waiting.Inv ∧ waiting.contractNext := by
  refine ⟨witness_waiting_Inv, ⟨.evGood, rfl⟩, ?_, fun _ => by decide +kernel⟩
  rintro mask t h
  injection h with h
  injection h with h _
  subst h
  decide

/-- F7 clears byte 2, F11 writes nothing, A8 hands over its job. -/
theorem witness_EveryCommandIsAnsweredOnce :
    isEventWord (.fdec .final) = false ∧ isEventWord .aesprot = false ∧
    after (exec (.fdec .final) { f2 with fb := Memory.write f2.fb 9 0x24 }) (fun t => (t.fb, t.responses)) =
      some (Memory.write (Memory.write f2.fb 9 0x24) 2 0, [⟨.mismatch, 0⟩]) ∧
    after (exec (.fdec .final) { f2 with fbLen := 23 }) (fun t => (t.fb, t.responses)) =
      some (f2.fb, [⟨.mismatch, 0⟩]) ∧
    replies (exec .aesprot { aes1 with ans := { HalAnswers.reset with aes := 4 } }) =
      some [⟨.cryptoError, 4⟩] := by
  decide +kernel

theorem witness_ReadClassChangesNothing : isReadClass (.cfgr 0x34) = true ∧ isReadClass .aescls = true := by decide

/-- Y9 on an instance without the AES unit, and an AES index on one with it. -/
theorem witness_ActiveExchangesAreUndisturbed :
    waiting.state.isActive = true ∧ isEventWord (.cfgw 0x37) = false ∧ isReadClass (.cfgw 0x37) = false ∧
    (Instr.cfgw 0x37).wellFormed = true ∧ (needsAes (.cfgw 0x37) → ({ waiting with hasAes := false } : State).hasAes) ∧
    (Instr.cfgw 0x40).wellFormed = true ∧ needsAes (.cfgw 0x40) ∧ waiting.hasAes = true := by
  refine ⟨rfl, rfl, rfl, rfl, ?_, rfl, .inr ⟨0x40, rfl, by decide, by decide⟩, rfl⟩
  rintro (h | ⟨idx, h, hl, -⟩)
  · cases h
  · cases h
    exact absurd hl (by decide)

/-- Q3: the Final of bad quality after the reply. -/
theorem witness_SuppressedCounterIsNotOverwritten :
    (running 7 .awaitFinal (heard finalFrame 0xFFFF 0)).state.isActive = true ∧
    ¬ ((running 7 .awaitFinal (heard finalFrame 0xFFFF 0)).state = .awaitPoll ∧
      (running 7 .awaitFinal (heard finalFrame 0xFFFF 0)).resyncPending = true) ∧
    after (step { running 7 .awaitFinal HalAnswers.reset with
      inputs := [.event 0x1 (heard finalFrame 0xFFFF 0)] }) State.state = some .badSts := by decide +kernel

theorem witness_ExchangesEndWithinFiveSteps :
    isEventWord .evGood = true ∧ waiting.wait ≠ none ∧
    after (exec .evRxTo waiting) State.state = some .timedOut ∧
    after (exec .xstart (ex 0)) (fun t => (t.state, t.responses)) = some (.pollSent, [⟨.ok, 0⟩]) ∧
    after (exec .xstart (ex 1)) (fun t => (t.state, t.responses)) = some (.awaitPoll, [⟨.ok, 0⟩]) ∧
    after (coreStep (regs (running 3 .finalValid HalAnswers.reset) [(0, 7), (1, 7), (2, 7), (3, 7), (4, 7), (5, 7)]))
      State.state = some .failed := by decide +kernel

theorem witness_CountersCountEndedExchanges :
    waiting.inputs.head? ≠ some .reset ∧ after (step waiting) State.state = some .pollValid := by decide +kernel

theorem witness_DelayedTransmissionsAreAligned :
    after (exec .xstart (ex 0)) (fun t => t.calls.length) = some 2 ∧
    after (coreStep (regs (running 7 .pollValid HalAnswers.reset) [(1, 0x12FFFFF123)])) (fun t => t.calls.length) =
      some 2 := by decide +kernel

theorem witness_ConfigurationIsLockedForTheSession :
    waiting.session = true ∧ waiting.firstDone = true ∧ waiting.inputs.head? ≠ some .reset ∧
    after (step waiting) State.session = some true := by decide +kernel

end Sys2Proof.Tests
end

section
/-! PROOF. The step of a presented word that decodes (spec/00_scope.md R5, R6). -/

namespace Sys2Proof.Machine

/-- The command port: a word that decodes is fetched with its own operand and answers (R5). -/
theorem fetch_of_decodeCommand {s : State} {w : CmdWord} {o : Datum} {a : HalAnswers} {rest : List Input} {i : Instr}
    (hin : s.inputs = .command w o a :: rest) (hdec : decodeCommand w = .ok i) :
    fetch s = .run i (s.latch o a rest) := by
  simp only [fetch, hin, hdec]

/-- The event port: the word comes with answers alone, so the operand in the port stays (R98). -/
theorem fetch_of_decodeEvent {s : State} {ev : EventBits} {a : HalAnswers} {rest : List Input} {i : Instr}
    (hin : s.inputs = .event ev a :: rest) (hdec : decodeEvent ev = .ok i) :
    fetch s = .run i (s.latch s.opnd a rest) := by
  simp only [fetch, hin, hdec]

theorem step_of_fetch_run {s t : State} {i : Instr} (h : fetch s = .run i t) : step s = exec i t := by
  simp only [step, h]

/-- Settles O5: each port's fetch runs the decoded word in the latched state. -/
theorem stepRunsTheDecodedInstruction : Obligations.StepRunsTheDecodedInstruction := by
  constructor
  · intro s w o a rest i hin hdec
    exact step_of_fetch_run (fetch_of_decodeCommand hin hdec)
  · intro s ev a rest i hin hdec
    exact step_of_fetch_run (fetch_of_decodeEvent hin hdec)

end Sys2Proof.Machine
end

section
/-! PROOF. The register map as CFGR reads it and CFGW writes it, and the state after reset (spec/10_state.md R36 to
R41; spec/46_system_commands.md R274, R275). -/

namespace Sys2Proof.Machine

/-! ## CFGR -/

theorem exec_cfgr_of_regAt {s : State} {idx : BitVec 8} {r : CfgReg} (h : s.regAt idx = some r) :
    exec (.cfgr idx) s = reply s .ok (s.readReg r) := by
  simp only [exec, execCfgr, h]

theorem exec_cfgr_of_regAt_none {s : State} {idx : BitVec 8} (h : s.regAt idx = none) :
    exec (.cfgr idx) s = .next (s.answered .errIllegal 0) := by
  simp only [exec, execCfgr, h, reply_zero]

/-- CFGR's answer as the statements write it, by its number. -/
theorem exec_cfgr_answered {s : State} {idx : BitVec 8} {r : CfgReg} (h : s.regAt idx = some r) :
    exec (.cfgr idx) s = .next (s.answered .ok (s.readReg r).toNat) := by
  rw [exec_cfgr_of_regAt h, ← reply_ofNat, BitVec.ofNat_toNat, BitVec.setWidth_eq]

theorem exec_cfgr_indexOf {s : State} {r : CfgReg} (h : regIsAes r = true → s.hasAes = true) :
    exec (.cfgr (indexOf r)) s = .next (s.answered .ok (s.readReg r).toNat) :=
  exec_cfgr_answered (regAt_some.mpr ⟨regOf_indexOf r, h⟩)

/-- The registers of `registerReadings`, in its order. -/
def plainRegisters : List CfgReg :=
  [.ctrl, .status, .seq, .respDelay, .finalDelay, .txAntDly, .dPoll, .dResp, .dFinal, .toPoll, .toResp, .toFinal,
   .toAck, .stsCtrInc, .frameLenPoll, .frameLenResponse, .frameLenFinal, .frameLenReport, .pollCtrIdx,
   .finalPollTxIdx, .finalRespRxIdx, .finalFinalTxIdx, .reportPollRxIdx, .reportRespTxIdx, .tplPoll, .tplResponse,
   .tplFinal, .tplReport, .cntBadFrame, .cntBadSts, .cntRxTimeout, .cntRxError, .pollCtr, .stsCtr, .k]

/-- The registers of `aesReadings`, in its order. -/
def aesRegisters : List CfgReg :=
  [.aesCtr, .aesSrc, .aesFrameLen, .aesHdrLen, .aesMicLen, .aesMode, .aesBufCap, .aesErrMask, .fcsLen]

/-- The statements' table is what the plain registers read as. -/
theorem registerReadings_eq (s : State) :
    registerReadings s = plainRegisters.map fun r => (indexOf r, (s.readReg r).toNat) := by
  simp [-BitVec.toNat_setWidth, BitVec.toNat_setWidth_of_le, registerReadings, registerReadings.timing,
    registerReadings.layout, registerReadings.counts, plainRegisters, indexOf, State.readReg, statusView_toNat,
    tplStored_toNat, stsCtr_toNat]

theorem aesReadings_eq (s : State) :
    aesReadings s = aesRegisters.map fun r => (indexOf r, (s.readReg r).toNat) := by
  simp [-BitVec.toNat_setWidth, BitVec.toNat_setWidth_of_le, aesReadings, aesRegisters, indexOf, State.readReg]

/-- The map has no other registers: `STS_SCORE` is the one that the statements' two tables leave out. -/
theorem plain_or_score_or_aes (r : CfgReg) : r ∈ plainRegisters ∨ r = .stsScore ∨ r ∈ aesRegisters := by
  cases r <;> decide

theorem regIsAes_iff_mem {r : CfgReg} : regIsAes r = true ↔ r ∈ aesRegisters := by
  cases r <;> decide

theorem regIsAes_of_plain {r : CfgReg} (h : r ∈ plainRegisters) : regIsAes r = false := by
  revert h
  cases r <;> decide

/-- An index that the statements' tables leave out names no register in this state. -/
theorem regAt_none_of_not_listed {s : State} {idx : BitVec 8} (hscore : idx ≠ 0x34)
    (hplain : idx ∉ (registerReadings s).map Prod.fst)
    (haes : s.hasAes = true → idx ∉ (aesReadings s).map Prod.fst) : s.regAt idx = none := by
  rw [registerReadings_eq, List.map_map] at hplain
  rw [aesReadings_eq, List.map_map] at haes
  refine regAt_none.mpr fun r hr => ?_
  have hidx : indexOf r = idx := indexOf_regOf hr
  rcases plain_or_score_or_aes r with hp | rfl | ha
  · exact absurd (List.mem_map.mpr ⟨r, hp, hidx⟩) hplain
  · exact absurd hidx.symm hscore
  · refine ⟨regIsAes_iff_mem.mpr ha, Bool.eq_false_of_not_eq_true fun h => ?_⟩
    exact haes h (List.mem_map.mpr ⟨r, ha, hidx⟩)

/-- Settles O38: the two tables list what CFGR reads, `STS_SCORE` is read sign-extended, and no other index names a
register. -/
theorem cfgrReadsTheMap : Obligations.CfgrReadsTheMap := by
  intro idx s
  refine ⟨?_, ?_, ?_, fun hscore hplain haes => ?_⟩
  · intro v hv
    rw [registerReadings_eq] at hv
    obtain ⟨r, hr, hidx⟩ := List.mem_map.mp hv
    cases hidx
    exact exec_cfgr_indexOf (by simp [regIsAes_of_plain hr])
  · intro hs v hv
    rw [aesReadings_eq] at hv
    obtain ⟨r, -, hidx⟩ := List.mem_map.mp hv
    cases hidx
    exact exec_cfgr_indexOf fun _ => hs
  · rintro rfl
    exact exec_cfgr_of_regAt (r := .stsScore) (regAt_some.mpr ⟨rfl, by simp [regIsAes]⟩)
  · exact exec_cfgr_of_regAt_none (regAt_none_of_not_listed hscore hplain haes)

/-- CFGR answers alike in two states that agree on the register an index names. -/
theorem exec_cfgr_congr {s t : State} {j : BitVec 8} {st : Status} {d : Datum} (hat : t.regAt j = s.regAt j)
    (hread : ∀ q, s.regAt j = some q → t.readReg q = s.readReg q)
    (h : exec (.cfgr j) s = .next { s with responses := s.responses ++ [⟨st, d⟩] }) :
    exec (.cfgr j) t = .next { t with responses := t.responses ++ [⟨st, d⟩] } := by
  have same : ∀ st' d', reply s st' d' = .next { s with responses := s.responses ++ [⟨st, d⟩] } →
      reply t st' d' = .next { t with responses := t.responses ++ [⟨st, d⟩] } := by
    intro st' d' e
    have hr := congrArg State.responses (reply_next.mp e)
    obtain ⟨rfl, rfl⟩ : st = st' ∧ d = d' := by simpa using hr
    rfl
  cases hq : s.regAt j with
  | none =>
    rw [exec_cfgr_of_regAt_none hq] at h
    rw [exec_cfgr_of_regAt_none (hat.trans hq)]
    exact same .errIllegal 0 h
  | some q =>
    rw [exec_cfgr_of_regAt hq] at h
    rw [exec_cfgr_of_regAt (hat.trans hq), hread q hq]
    exact same .ok _ h

/-! ## CFGW -/

/-- CFGW of a register that its class admits (R274). -/
theorem exec_cfgw_admitted {s : State} {idx : BitVec 8} {r : CfgReg} (hat : s.regAt idx = some r)
    (hro : regClass r ≠ .ro) (hcfg : regClass r = .cfg → s.state = .idle ∧ s.session = false)
    (hopd : regClass r ≠ .cfg → s.state.isActive = false) :
    exec (.cfgw idx) s = .next ((s.writeReg r).answered .ok 0) := by
  simp only [exec, execCfgw, hat]
  cases hc : regClass r with
  | ro => exact absurd hc hro
  | cfg =>
    obtain ⟨hidle, hfree⟩ := hcfg hc
    simp only [admitIdle_idle hidle, hfree, Bool.false_eq_true, if_false, reply_zero]
  | opd => simp only [admitWrite_inactive (hopd (by simp [hc])), reply_zero]

/-- A response is no register. -/
theorem readReg_answered (s : State) (st : Status) (d : Nat) (q : CfgReg) :
    (s.answered st d).readReg q = s.readReg q := by
  cases q <;> rfl

theorem writeReg_hasAes (s : State) (r : CfgReg) : (s.writeReg r).hasAes = s.hasAes := by
  cases r <;> rfl

theorem regAt_congr {s t : State} (h : t.hasAes = s.hasAes) (idx : BitVec 8) : t.regAt idx = s.regAt idx := by
  simp only [State.regAt, h]

/-- What a written register reads back as, as the statements number it (R37). -/
theorem readReg_writeReg_toNat {s : State} {idx : BitVec 8} {r : CfgReg} (hidx : regOf idx = some r)
    (hro : regClass r ≠ .ro) : ((s.writeReg r).readReg r).toNat = readBack idx (regWidth r) s.opnd := by
  by_cases ht : r ∈ [CfgReg.tplPoll, .tplResponse, .tplFinal, .tplReport]
  · rw [readReg_writeReg_template ht, readBack, if_pos ((templateIndex_iff hidx).mpr ht)]
  · have hw : regWidth r ≤ 128 := by cases r <;> decide
    rw [readReg_writeReg_same hro ht, BitVec.toNat_setWidth_of_le hw, State.opndLow_toNat, readBack,
      if_neg (mt (templateIndex_iff hidx).mp ht)]

/-- Settles O36: the write goes to the register named, and the laws of the map say what it, and every other
register, reads as afterwards. -/
theorem cfgwWritesOneRegister : Obligations.CfgwWritesOneRegister := by
  intro idx bits isCfg s hmem haes hcfg hopd
  obtain ⟨r, hidx, hro, rfl, rfl⟩ := mem_writableRegisters.mp hmem
  have hat : s.regAt idx = some r := regAt_some.mpr ⟨hidx, fun h => haes ((aesIndex_iff hidx).mpr h)⟩
  have hat' : ∀ j, ((s.writeReg r).answered .ok 0).regAt j = s.regAt j := regAt_congr (writeReg_hasAes s r)
  refine ⟨(s.writeReg r).answered .ok 0,
    exec_cfgw_admitted hat hro (fun h => hcfg (by simpa using h)) (fun h => hopd (by simpa using h)), ?_, ?_, ?_⟩
  · conv_lhs => rw [writeReg_frame s r]
    rfl
  · rw [exec_cfgr_answered ((hat' idx).trans hat), readReg_answered, readReg_writeReg_toNat hidx hro]
  · intro j st d hj
    refine exec_cfgr_congr (hat' j) fun q hq => ?_
    have hne : q ≠ r := by
      rintro rfl
      exact hj ((indexOf_regOf (regAt_some.mp hq).1).symm.trans (indexOf_regOf hidx))
    rw [readReg_answered, readReg_writeReg_other hne]

/-! ## Reset -/

/-- The layout predicate fails right after reset: every frame length is 0 (R41). -/
theorem reset_configOK : State.reset.configOK = false := by decide

/-- `STATUS` right after reset: `RESYNC_PENDING` alone (R38, R41). -/
theorem reset_statusNumber : registerReadings.statusNumber State.reset = 0x200 := by decide

theorem reset_registerReadings : ∀ p ∈ registerReadings State.reset, p.1 ≠ 0x01 → p.2 = 0 := by decide

theorem reset_aesReadings : ∀ p ∈ aesReadings State.reset, p.2 = 0 := by decide

theorem exec_cfgr_status (s : State) :
    exec (.cfgr 0x01) s = .next (s.answered .ok (registerReadings.statusNumber s)) :=
  (cfgrReadsTheMap 0x01 s).1 _ (by simp [registerReadings, registerReadings.timing])

theorem exec_xstart_configBad {s : State} (hidle : s.state = .idle) (hbad : s.configOK = false) :
    exec .xstart s = .next (s.answered .errConfig 0) := by
  simp only [exec, execXstart, admitIdle_idle hidle, hbad, if_true, reply_zero]

/-- Settles O9: the fields are those of the table, `STATUS` is read through the map, and XSTART finds no layout. -/
theorem resetValues : Obligations.ResetValues := by
  refine ⟨by decide, fun _ => rfl, rfl, by decide, rfl, rfl, rfl, rfl, rfl, rfl, rfl, rfl, rfl, rfl, rfl, rfl, rfl,
    rfl, rfl, rfl, reset_registerReadings, reset_aesReadings, ?_, exec_xstart_configBad rfl reset_configOK⟩
  rw [exec_cfgr_status, reset_statusNumber]

/-- Settles O50: no exchange is active, the buffer is empty, and the templates and `FIRST_DONE` are clear. -/
theorem invAtReset : Obligations.InvAtReset :=
  inv_inactive rfl ⟨.nil, by simp [State.reset]⟩ (by decide) (by decide) rfl (by decide)

end Sys2Proof.Machine
end

section
/-! PROOF. What every step but reset keeps: the counters up to the exchange that it ends, and the session's lock on
configuration and key (spec/10_state.md R32, R33; spec/43_sts_sync.md R182; spec/44_sequencer.md R231). -/

namespace Sys2Proof.Machine

/-! ## The books -/

/-- What the statements about every step speak of, `STATE` apart: the configuration, the session's locks and the
counters. Only the error entry writes any of it in a sequencer step, and there only a counter (R32, R33, R182). -/
structure Books where
  cfg : CfgRegs
  session : Bool
  stsKey : BitVec 128
  firstDone : Bool
  hasAes : Bool
  cnt : Counters

/-- The books as the state holds them. -/
def State.books (s : State) : Books :=
  { cfg := s.cfg, session := s.session, stsKey := s.stsKey, firstDone := s.firstDone, hasAes := s.hasAes, cnt := s.cnt }

theorem books_resync (s : State) : s.resync.books = s.books := by
  unfold State.resync
  split <;> rfl

/-! ## Results -/

/-- Every next state of a result has the property. -/
def Result.Ends (P : State → Prop) (r : Result) : Prop := ∀ t, r = .next t → P t

section
variable {P : State → Prop} {s t : State} {k : Result}

theorem ends_next (h : P t) : Result.Ends P (.next t) := by
  rintro _ ⟨⟩
  exact h

theorem ends_fault (f : Fault) : Result.Ends P (.fault f) := fun _ h => nomatch h

theorem ends_reply {st : Status} {d : Datum} (h : P (t.respond st d)) : Result.Ends P (reply t st d) := ends_next h

theorem ends_ite {c : Prop} [Decidable c] {k₁ k₂ : Result} (h₁ : c → Result.Ends P k₁) (h₂ : ¬ c → Result.Ends P k₂) :
    Result.Ends P (if c then k₁ else k₂) := by
  split
  · exact h₁ ‹_›
  · exact h₂ ‹_›

variable (hr : ∀ st d, P (s.respond st d))
include hr

theorem ends_admitWrite (hk : s.state.isActive = false → Result.Ends P k) : Result.Ends P (admitWrite s k) := by
  intro t h
  rcases admitWrite_next h with ⟨-, rfl⟩ | ⟨ha, h⟩
  · exact hr _ _
  · exact hk ha t h

theorem ends_admitIdle (hk : s.state = .idle → Result.Ends P k) : Result.Ends P (admitIdle s k) := by
  intro t h
  rcases admitIdle_next h with ⟨_, rfl⟩ | ⟨hi, h⟩
  · exact hr _ _
  · exact hk hi t h

theorem ends_admitTerminal (hk : s.state.isTerminal = true → Result.Ends P k) :
    Result.Ends P (admitTerminal s k) := by
  intro t h
  rcases admitTerminal_next h with ⟨_, rfl⟩ | ⟨hi, h⟩
  · exact hr _ _
  · exact hk hi t h

theorem ends_withSource {r : RegNum} {f : Timestamp → Result} (hk : ∀ v, Result.Ends P (f v)) :
    Result.Ends P (withSource s r f) := by
  intro t h
  rcases withSource_next h with ⟨_, _, rfl⟩ | h
  · exact hr _ _
  · exact hk _ t h

theorem ends_withWritten {rs : List RegNum} (hk : Result.Ends P k) : Result.Ends P (withWritten s rs k) := by
  intro t h
  rcases withWritten_next h with ⟨_, _, rfl⟩ | h
  · exact hr _ _
  · exact hk t h

theorem ends_withSpan {off : BitVec 8} {n : Nat} (hk : Result.Ends P k) : Result.Ends P (withSpan s off n k) := by
  intro t h
  rcases withSpan_next h with ⟨_, _, rfl⟩ | ⟨-, h⟩
  · exact hr _ _
  · exact hk t h

theorem ends_withAes (hk : Result.Ends P k) : Result.Ends P (withAes s k) := by
  intro t h
  rcases withAes_next h with ⟨_, _, rfl⟩ | h
  · exact hr _ _
  · exact hk t h

end

/-! ## Commands -/

/-- What a host command keeps: the counters, an active exchange, and what the session and the first exchange start
have locked. -/
structure CommandKeeps (s t : State) : Prop where
  cnt : t.cnt = s.cnt
  hasAes : t.hasAes = s.hasAes
  active : s.state.isActive = true → t.state = s.state
  session : s.session = true → t.session = true ∧ t.cfg = s.cfg
  key : s.firstDone = true → t.firstDone = true ∧ t.stsKey = s.stsKey

/-- Most commands write neither the books nor `STATE`. -/
theorem CommandKeeps.of_books {s t : State} (hb : t.books = s.books) (hs : t.state = s.state) : CommandKeeps s t where
  cnt := congrArg Books.cnt hb
  hasAes := congrArg Books.hasAes hb
  active _ := hs
  session h := ⟨(congrArg Books.session hb).trans h, congrArg Books.cfg hb⟩
  key h := ⟨(congrArg Books.firstDone hb).trans h, congrArg Books.stsKey hb⟩

theorem commandKeeps_respond (s : State) (st : Status) (d : Datum) : CommandKeeps s (s.respond st d) :=
  .of_books rfl rfl

/-- An answer given in a state with the same books and the same `STATE`. -/
theorem reply_keeps_of_books {s t : State} {st : Status} {d : Datum} (hb : t.books = s.books)
    (hs : t.state = s.state) : Result.Ends (CommandKeeps s) (reply t st d) :=
  ends_reply (.of_books hb hs)

theorem reply_keeps (s : State) (st : Status) (d : Datum) : Result.Ends (CommandKeeps s) (reply s st d) :=
  reply_keeps_of_books rfl rfl

/-- A write-class command that answers in a state with the same books and the same `STATE`. -/
theorem write_keeps {s t : State} {st : Status} {d : Datum} (hb : t.books = s.books) (hs : t.state = s.state) :
    Result.Ends (CommandKeeps s) (admitWrite s (reply t st d)) :=
  ends_admitWrite (commandKeeps_respond s) fun _ => reply_keeps_of_books hb hs

theorem tsUnary_keeps (f : Timestamp → Timestamp) (rd ra : RegNum) (s : State) :
    Result.Ends (CommandKeeps s) (tsUnary f rd ra s) :=
  ends_admitWrite (commandKeeps_respond s) fun _ =>
    ends_withSource (commandKeeps_respond s) fun _ => reply_keeps_of_books rfl rfl

theorem tsBinary_keeps (f : Timestamp → Timestamp → Timestamp) (rd ra rb : RegNum) (s : State) :
    Result.Ends (CommandKeeps s) (tsBinary f rd ra rb s) :=
  ends_admitWrite (commandKeeps_respond s) fun _ =>
    ends_withSource (commandKeeps_respond s) fun _ =>
      ends_withSource (commandKeeps_respond s) fun _ => reply_keeps_of_books rfl rfl

theorem tsVerdict_keeps (f : Timestamp → Timestamp → BitVec 4) (ra rb : RegNum) (s : State) :
    Result.Ends (CommandKeeps s) (tsVerdict f ra rb s) :=
  ends_withSource (commandKeeps_respond s) fun _ =>
    ends_withSource (commandKeeps_respond s) fun _ => reply_keeps s _ _

theorem replyEstimate_keeps (s : State) (e : Estimate) : Result.Ends (CommandKeeps s) (replyEstimate s e) := by
  cases e <;> exact reply_keeps_of_books rfl rfl

theorem execTofss_keeps (s : State) : Result.Ends (CommandKeeps s) (execTofss s) :=
  ends_admitWrite (commandKeeps_respond s) fun _ =>
    ends_withWritten (commandKeeps_respond s) (replyEstimate_keeps s _)

theorem execTofds_keeps (s : State) : Result.Ends (CommandKeeps s) (execTofds s) :=
  ends_admitWrite (commandKeeps_respond s) fun _ =>
    ends_withWritten (commandKeeps_respond s) (replyEstimate_keeps s _)

theorem execTofrd_keeps (s : State) : Result.Ends (CommandKeeps s) (execTofrd s) :=
  ends_ite (fun _ => reply_keeps s _ _) fun _ => ends_ite (fun _ => reply_keeps s _ _) fun _ => reply_keeps s _ _

theorem execFenc_keeps (k : FrameKind) (s : State) : Result.Ends (CommandKeeps s) (execFenc k s) :=
  ends_admitWrite (commandKeeps_respond s) fun _ =>
    ends_ite (fun _ => reply_keeps s _ _) fun _ =>
      ends_withWritten (commandKeeps_respond s) <|
        ends_ite (fun _ => reply_keeps s _ _) fun _ => reply_keeps_of_books rfl rfl

theorem execFdec_keeps (k : FrameKind) (s : State) : Result.Ends (CommandKeeps s) (execFdec k s) := by
  refine ends_admitWrite (commandKeeps_respond s) fun _ => ends_ite (fun _ => reply_keeps s _ _) fun _ => ?_
  obtain ⟨ts, tsw, ctr, he⟩ := extractFields_frame s.clearSeqByte (s.fields k)
  rcases decodeFrame_shape s k with hd | hd | hd <;> rw [hd]
  · exact reply_keeps s _ _
  · exact reply_keeps_of_books rfl rfl
  · rw [he]
    exact reply_keeps_of_books rfl rfl

theorem execFlenw_keeps (s : State) : Result.Ends (CommandKeeps s) (execFlenw s) :=
  ends_admitWrite (commandKeeps_respond s) fun _ =>
    ends_ite (fun _ => reply_keeps s _ _) fun _ => reply_keeps_of_books rfl rfl

/-- A load of the key or the IV is refused once the first exchange has started (R182, R183). -/
theorem stsLoad_keeps {s t : State}
    (ht : s.firstDone = false → CommandKeeps s (t.respond .ok 0)) : Result.Ends (CommandKeeps s) (stsLoad s t) :=
  ends_admitIdle (commandKeeps_respond s) fun _ =>
    ends_ite (fun _ => reply_keeps s _ _) fun h => ends_reply (ht (by simpa using h))

theorem execStskey_keeps (s : State) : Result.Ends (CommandKeeps s) (execStskey s) :=
  stsLoad_keeps fun hf => ⟨rfl, rfl, fun _ => rfl, fun h => ⟨h, rfl⟩, by simp [hf]⟩

theorem execStsiv_keeps (s : State) : Result.Ends (CommandKeeps s) (execStsiv s) :=
  stsLoad_keeps fun _ => .of_books rfl rfl

/-- The exchange-start action sets `FIRST_DONE` and writes nothing else that is locked (R184). -/
theorem exchangeStart_firstDone (s : State) : s.exchangeStart.firstDone = true := by
  obtain ⟨_, _, h⟩ := stsStarted_frame s
  rw [exchangeStart_eq, h]

theorem startSts_firstDone {s : State} (h : s.firstDone = true) : s.startSts.firstDone = true := by
  obtain ⟨_, _, _, he, -, hf, -⟩ := startSts_frame s
  rw [he]
  exact hf h

theorem execStsbegin_keeps (s : State) : Result.Ends (CommandKeeps s) (execStsbegin s) :=
  ends_admitWrite (commandKeeps_respond s) fun _ =>
    ends_ite (fun _ => reply_keeps s _ _) fun _ => ends_ite (fun _ => reply_keeps s _ _) fun _ =>
      ends_reply
        { cnt := by simp
          hasAes := by simp
          active := fun _ => by simp
          session := fun h => by simp [h]
          key := fun _ => by simp [exchangeStart_firstDone] }

theorem execStsresync_keeps (s : State) : Result.Ends (CommandKeeps s) (execStsresync s) :=
  write_keeps (books_resync s) (State.resync_state s)

/-- XSTART leaves `Idle` only, locks the session, and keeps what an earlier start has locked (R272). -/
theorem commandKeeps_xstart {s t : State} (hidle : s.state = .idle) (cnt : t.cnt = s.cnt)
    (hasAes : t.hasAes = s.hasAes) (session : t.session = true) (cfg : t.cfg = s.cfg)
    (first : s.firstDone = true → t.firstDone = true) (stsKey : t.stsKey = s.stsKey) : CommandKeeps s t :=
  ⟨cnt, hasAes, by simp [hidle, SeqState.isActive], fun _ => ⟨session, cfg⟩, fun h => ⟨first h, stsKey⟩⟩

theorem execXstart_keeps (s : State) : Result.Ends (CommandKeeps s) (execXstart s) := by
  refine ends_admitIdle (commandKeeps_respond s) fun hidle => ends_ite (fun _ => reply_keeps s _ _) fun _ => ?_
  have first : s.firstDone = true → s.createExchange.startSts.firstDone = true :=
    startSts_firstDone (s := s.createExchange)
  refine ends_ite (fun _ => ends_reply (commandKeeps_xstart hidle ?_ ?_ ?_ ?_ first ?_))
    fun _ => ends_reply (commandKeeps_xstart hidle ?_ ?_ ?_ ?_ first ?_)
  all_goals simp [State.startResponder, State.startInitiator]

theorem execXclr_keeps (s : State) : Result.Ends (CommandKeeps s) (execXclr s) :=
  ends_admitTerminal (commandKeeps_respond s) fun ht =>
    ends_reply ⟨rfl, rfl, by simp [SeqState.not_active_of_terminal ht], fun h => ⟨h, rfl⟩, fun h => ⟨h, rfl⟩⟩

/-- A register write keeps the books when it leaves the configuration as it was. -/
theorem commandKeeps_writeReg {s : State} {r : CfgReg} (h : s.session = true → (s.writeReg r).cfg = s.cfg) :
    CommandKeeps s ((s.writeReg r).respond .ok 0) := by
  have hw := writeReg_frame s r
  generalize s.writeReg r = u at h hw ⊢
  rw [hw]
  exact ⟨rfl, rfl, fun _ => rfl, fun hs => ⟨hs, h hs⟩, fun hf => ⟨hf, rfl⟩⟩

/-- CFGW of a configuration register is refused while the session holds; the others are not configuration (R274). -/
theorem execCfgw_keeps (idx : BitVec 8) (s : State) : Result.Ends (CommandKeeps s) (execCfgw idx s) := by
  unfold execCfgw
  cases s.regAt idx with
  | none => exact reply_keeps s _ _
  | some r =>
    cases hc : regClass r with
    | ro => simpa only [hc] using reply_keeps s _ _
    | cfg =>
      simp only [hc]
      exact ends_admitIdle (commandKeeps_respond s) fun _ =>
        ends_ite (fun _ => reply_keeps s _ _) fun hs => ends_reply (commandKeeps_writeReg fun h => absurd h hs)
    | opd =>
      simp only [hc]
      exact ends_admitWrite (commandKeeps_respond s) fun _ =>
        ends_reply (commandKeeps_writeReg fun _ => writeReg_cfg_of_opd hc)

theorem execCfgr_keeps (idx : BitVec 8) (s : State) : Result.Ends (CommandKeeps s) (execCfgr idx s) := by
  unfold execCfgr
  split <;> exact reply_keeps s _ _

theorem replyClassified_keeps {s t : State} (st : BitVec 8) (hb : t.books = s.books) (hs : t.state = s.state) :
    Result.Ends (CommandKeeps s) (replyClassified t st) :=
  ends_ite (fun _ => reply_keeps_of_books hb hs) fun _ =>
    ends_ite (fun _ => reply_keeps_of_books hb hs) fun _ => reply_keeps_of_books hb hs

theorem execAeslen_keeps (s : State) : Result.Ends (CommandKeeps s) (execAeslen s) :=
  ends_withAes (commandKeeps_respond s) <| ends_ite (fun _ => reply_keeps s _ _) fun _ => reply_keeps s _ _

theorem execAesprot_keeps (s : State) : Result.Ends (CommandKeeps s) (execAesprot s) :=
  ends_withAes (commandKeeps_respond s) <| ends_admitWrite (commandKeeps_respond s) fun _ =>
    ends_ite (fun _ => reply_keeps s _ _) fun _ => replyClassified_keeps _ rfl rfl

/-- Every host command, by its meaning. -/
theorem exec_command_keeps {i : Instr} (s : State) (hi : isEventWord i = false) :
    Result.Ends (CommandKeeps s) (exec i s) := by
  have refusal := commandKeeps_respond s
  cases i with
  | nop => exact reply_keeps s _ _
  | tsld rd => exact write_keeps rfl rfl
  | tsrd rs => exact ends_withSource refusal fun _ => reply_keeps s _ _
  | tsmov rd ra => exact tsUnary_keeps _ rd ra s
  | tscaptx rd => exact write_keeps rfl rfl
  | tscaprx rd => exact write_keeps rfl rfl
  | tsadd rd ra rb => exact tsBinary_keeps _ rd ra rb s
  | tssub rd ra rb => exact tsBinary_keeps _ rd ra rb s
  | tssub32 rd ra rb => exact tsBinary_keeps _ rd ra rb s
  | tslo32 rd ra => exact tsUnary_keeps _ rd ra s
  | tsalign rd ra => exact tsUnary_keeps _ rd ra s
  | tssched rd ra rb => exact tsBinary_keeps _ rd ra rb s
  | tscmp ra rb => exact tsVerdict_keeps (fun a b => compareVerdict (a - b)) ra rb s
  | tscmp32 ra rb => exact tsVerdict_keeps (fun a b => compareVerdict (delta32 a b)) ra rb s
  | tofss => exact execTofss_keeps s
  | tofds => exact execTofds_keeps s
  | tofrd => exact execTofrd_keeps s
  | fenc k => exact execFenc_keeps k s
  | fdec k => exact execFdec_keeps k s
  | fput32 rs off =>
    exact ends_admitWrite refusal fun _ => ends_withSpan refusal <|
      ends_withSource refusal fun _ => reply_keeps_of_books rfl rfl
  | fget32 rd off => exact ends_admitWrite refusal fun _ => ends_withSpan refusal (reply_keeps_of_books rfl rfl)
  | fbwr off => exact ends_admitWrite refusal fun _ => ends_withSpan refusal (reply_keeps_of_books rfl rfl)
  | fbrd off => exact ends_withSpan refusal (reply_keeps s _ _)
  | flenw => exact execFlenw_keeps s
  | flenr => exact reply_keeps s _ _
  | stskey => exact execStskey_keeps s
  | stsiv => exact execStsiv_keeps s
  | stsbegin => exact execStsbegin_keeps s
  | stschk => exact write_keeps rfl rfl
  | stsresync => exact execStsresync_keeps s
  | stslock => exact write_keeps rfl rfl
  | stsunlock => exact write_keeps rfl rfl
  | xstart => exact execXstart_keeps s
  | xclr => exact execXclr_keeps s
  | cfgw idx => exact execCfgw_keeps idx s
  | cfgr idx => exact execCfgr_keeps idx s
  | aesnonce => exact ends_withAes refusal (reply_keeps s _ _)
  | aeslen => exact execAeslen_keeps s
  | aescls => exact ends_withAes refusal (replyClassified_keeps _ rfl rfl)
  | aesprot => exact execAesprot_keeps s
  | evGood | evRxErr | evRxTo | evTxDone => cases hi

/-! ## Sequencer steps -/

/-- How a sequencer step, or a step in which the sequencer does nothing, can end: an active exchange goes on or
concludes with the books kept, or the error entry is taken from a state with the same books (R204, R300). -/
inductive SequencerStep (s : State) : State → Prop
  | goesOn {t : State} (books : t.books = s.books)
      (active : s.state.isActive = true → t.state.isActive = true ∨ t.state = .done) : SequencerStep s t
  | raises (e : ErrorKind) {u : State} (active : s.state.isActive = true) (books : u.books = s.books) :
      SequencerStep s (u.raise e)

theorem SequencerStep.of_active {s t : State} (hb : t.books = s.books) (ht : t.state.isActive = true) :
    SequencerStep s t := .goesOn hb fun _ => .inl ht

theorem SequencerStep.of_done {s t : State} (hb : t.books = s.books) (ht : t.state = .done) : SequencerStep s t :=
  .goesOn hb fun _ => .inr ht

theorem SequencerStep.unmoved (s : State) : SequencerStep s s := .goesOn rfl .inl

/-- An event word: nothing happens where nothing waits; else what follows runs in an active exchange. -/
theorem onEvent_step {ev : EventBits} {s : State} {k : State → Result}
    (hk : ∀ u : State, s.state.isActive = true → u.books = s.books →
      Result.Ends (SequencerStep s) (k u)) : Result.Ends (SequencerStep s) (onEvent ev s k) := by
  intro t h
  rcases onEvent_next h with ⟨-, rfl⟩ | ⟨mask, timeout, hw, -, h⟩
  · exact .unmoved t
  · exact hk (s.call (.awaitStatus mask timeout)) (wait_active hw) rfl t h

/-- The acceptance procedure ends with an error, or hands on a state with the same books (R203). -/
theorem accept_step {k : FrameKind} {s u : State} {acc : State → Result} (ha : s.state.isActive = true)
    (hb : u.books = s.books) (hacc : ∀ v : State, v.books = s.books → Result.Ends (SequencerStep s) (acc v)) :
    Result.Ends (SequencerStep s) (accept k u acc) := by
  intro t h
  obtain ⟨-, v, fb, ts, tsw, ctr, hv, -, -, hend⟩ := accept_next h
  have hvb : v.books = s.books := by
    rw [hv]
    exact hb
  rcases hend with rfl | ⟨-, -, ⟨-, h⟩ | ⟨-, h⟩ | ⟨-, rfl⟩⟩
  · exact .raises .badFrame ha hvb
  · exact hacc v hvb t h
  · exact hacc v.drawScore hvb t h
  · refine .raises .badSts ha ?_
    split
    · exact (books_resync _).trans hvb
    · exact hvb

theorem acceptedReply_step {s v : State} (hb : v.books = s.books) :
    Result.Ends (SequencerStep s) (acceptedReply v) := by
  rw [acceptedReply_eq]
  exact ends_next (.of_active hb rfl)

theorem execEvGood_step (s : State) : Result.Ends (SequencerStep s) (execEvGood s) := by
  refine onEvent_step fun u ha hb => ?_
  split
  · exact accept_step ha hb fun v hv => acceptedReply_step hv
  · exact accept_step ha hb fun v hv => ends_next (.of_done hv rfl)
  · exact accept_step ha hb fun v hv => ends_next (.of_active hv rfl)
  · exact accept_step ha hb fun v hv => ends_next (.of_active hv rfl)
  all_goals exact ends_fault _

theorem finalTransmitted_step {s u : State} (hb : u.books = s.books) : SequencerStep s (finalTransmitted u) := by
  unfold finalTransmitted
  split
  · exact .of_active hb rfl
  · exact .of_done hb rfl

theorem replyTransmitted_step {s u : State} (hb : u.books = s.books) : SequencerStep s (replyTransmitted u) := by
  unfold replyTransmitted
  dsimp only
  split
  · exact .of_active hb rfl
  · exact .of_done hb rfl

theorem execEvTxDone_step (s : State) : Result.Ends (SequencerStep s) (execEvTxDone s) := by
  refine onEvent_step fun u _ hb => ?_
  split
  · exact ends_next (.of_active hb rfl)
  · exact ends_next (finalTransmitted_step hb)
  · exact ends_next (replyTransmitted_step hb)
  all_goals exact ends_fault _

/-- Every event word, by its meaning. -/
theorem exec_event_step {i : Instr} (s : State) (hi : isEventWord i = true) :
    Result.Ends (SequencerStep s) (exec i s) := by
  cases i with
  | evGood => exact execEvGood_step s
  | evRxErr => exact onEvent_step fun u ha hb => ends_next (.raises .rxError ha hb)
  | evRxTo => exact onEvent_step fun u ha hb => ends_next (.raises .rxTimeout ha hb)
  | evTxDone => exact execEvTxDone_step s
  | _ => cases hi

theorem strayEvent_step (s : State) : Result.Ends (SequencerStep s) (strayEvent s) := by
  unfold strayEvent
  split
  · exact ends_next (.unmoved s)
  · exact ends_fault _

theorem sendDelayed_step {rx tx : RegNum} {delay : Timestamp} {k : FrameKind} {window : Option (BitVec 32)}
    {after : SeqState} {s : State} (ha : s.state.isActive = true) (hafter : after.isActive = true) :
    Result.Ends (SequencerStep s) (sendDelayed rx tx delay k window after s) := by
  rcases sendDelayed_cases rx tx delay k window after s with ⟨-, h⟩ | ⟨-, -, h⟩ | ⟨-, -, h⟩ <;> rw [h]
  · exact ends_fault _
  · exact ends_next (.raises .lateStart ha rfl)
  · exact ends_next (.of_active rfl hafter)

theorem concludeEstimate_step {s : State} (ha : s.state.isActive = true) (e : Estimate) :
    SequencerStep s (concludeEstimate s e) := by
  cases e with
  | tof q => exact .of_done rfl rfl
  | degenerate => exact .raises .degenerateTiming ha rfl
  | badK => exact .raises .degenerateTiming ha rfl

/-- The core's own step, by the state that it is taken in. -/
theorem coreStep_step (s : State) : Result.Ends (SequencerStep s) (coreStep s) := by
  by_cases hs : s.state ∈ [SeqState.respondValid, .pollValid, .finalValid]
  · have ha : s.state.isActive = true := by
      revert hs
      cases s.state <;> decide
    simp only [List.mem_cons, List.not_mem_nil, or_false] at hs
    rcases hs with hs | hs | hs <;> simp only [coreStep, hs]
    · exact ends_ite (fun _ => sendDelayed_step ha rfl) fun _ => ends_next (concludeEstimate_step ha _)
    · exact sendDelayed_step ha rfl
    · exact ends_next (concludeEstimate_step ha _)
  · rw [coreStep_still hs]
    exact ends_next (.unmoved s)

/-! ## Every step -/

theorem decodeEvent_isEventWord {ev : EventBits} {i : Instr} (h : decodeEvent ev = .ok i) : isEventWord i = true := by
  rcases decodeEvent_cases h with ⟨-, rfl⟩ | ⟨-, rfl⟩ | ⟨-, rfl⟩ | ⟨-, rfl⟩ <;> rfl

/-- What a command keeps is read off the books and `STATE` of the state that it starts from. -/
theorem CommandKeeps.of_start {s u t : State} (hb : u.books = s.books) (hs : u.state = s.state)
    (h : CommandKeeps u t) : CommandKeeps s t where
  cnt := h.cnt.trans (congrArg Books.cnt hb)
  hasAes := h.hasAes.trans (congrArg Books.hasAes hb)
  active ha := (h.active (hs ▸ ha)).trans hs
  session hx := (h.session ((congrArg Books.session hb).trans hx)).imp_right (·.trans (congrArg Books.cfg hb))
  key hx := (h.key ((congrArg Books.firstDone hb).trans hx)).imp_right (·.trans (congrArg Books.stsKey hb))

theorem SequencerStep.of_start {s u t : State} (hb : u.books = s.books) (hs : u.state = s.state)
    (h : SequencerStep u t) : SequencerStep s t := by
  cases h with
  | goesOn books active => exact .goesOn (books.trans hb) (hs ▸ active)
  | raises e active books => exact .raises e (hs ▸ active) (books.trans hb)

section
variable {s t : State} {o : Datum} {a : HalAnswers} {rest : List Input}

theorem CommandKeeps.of_latch (h : CommandKeeps (s.latch o a rest) t) : CommandKeeps s t :=
  .of_start (u := s.latch o a rest) rfl rfl h

theorem SequencerStep.of_latch (h : SequencerStep (s.latch o a rest) t) : SequencerStep s t :=
  .of_start (u := s.latch o a rest) rfl rfl h

end

/-- A step but reset is a host command or a sequencer step. -/
theorem step_keeps_or_sequences {s t : State} (hin : s.inputs.head? ≠ some .reset) (h : step s = .next t) :
    CommandKeeps s t ∨ SequencerStep s t := by
  rcases step_cases s with ⟨-, he⟩ | ⟨w, o, a, rest, -, ⟨i, hd, he⟩ | he⟩ |
      ⟨ev, a, rest, -, ⟨i, hd, he⟩ | ⟨-, he⟩⟩ | ⟨a, rest, -, he⟩ | ⟨rest, hi, -⟩
  · right
    rw [he] at h
    refine (coreStep_step _ t h).of_start ?_ ?_ <;> split <;> rfl
  · exact .inl ((exec_command_keeps _ (decodeCommand_not_event hd) t (he.symm.trans h)).of_latch)
  · exact .inl ((reply_keeps (s.latch o a rest) .errIllegal 0 t (he.symm.trans h)).of_latch)
  · exact .inr ((exec_event_step _ (decodeEvent_isEventWord hd) t (he.symm.trans h)).of_latch)
  · exact .inr ((strayEvent_step _ t (he.symm.trans h)).of_latch)
  · exact .inr ((coreStep_step _ t (he.symm.trans h)).of_latch)
  · simp [hi] at hin

/-! ## The counters -/

/-- The counters after a step from `s` to `t`, as R231 (5) counts the exchanges that it ends. -/
def countedEnds (s t : State) : Counters := {
  badFrame := s.cnt.badFrame + if s.state.isActive = true ∧ t.state = .badFrame then 1 else 0
  badSts := s.cnt.badSts + if s.state.isActive = true ∧ t.state = .badSts then 1 else 0
  rxTimeout := s.cnt.rxTimeout + if s.state.isActive = true ∧ t.state = .timedOut then 1 else 0
  rxError := s.cnt.rxError + if s.state.isActive = true ∧ t.state = .failed ∧ t.outcome = .rxError then 1 else 0 }

/-- A step that ends no exchange with an error counts nothing. -/
theorem countedEnds_of_no_error {s t : State}
    (h : s.state.isActive = true → t.state.isActive = true ∨ t.state = .done) : countedEnds s t = s.cnt := by
  have off : ∀ x : SeqState, x.isActive = false → x ≠ .done → ¬ (s.state.isActive = true ∧ t.state = x) := by
    rintro x hx hd ⟨ha, rfl⟩
    rcases h ha with h | h
    · simp [hx] at h
    · exact hd h
  have offFailed : ¬ (s.state.isActive = true ∧ t.state = .failed ∧ t.outcome = .rxError) :=
    fun ⟨ha, hf, _⟩ => off .failed rfl (by simp) ⟨ha, hf⟩
  simp [countedEnds, off .badFrame rfl (by simp), off .badSts rfl (by simp), off .timedOut rfl (by simp), offFailed]

/-- The error entry from an active exchange counts its kind. -/
theorem countedEnds_raise {s u : State} (e : ErrorKind) (ha : s.state.isActive = true) :
    countedEnds s (u.raise e) = e.count s.cnt := by
  cases e <;> simp [countedEnds, ha, ErrorKind.count, ErrorKind.terminal, ErrorKind.outcome]

/-- Settles O58: a command ends no exchange, and a sequencer step goes on or takes the error entry, which counts. -/
theorem countersCountEndedExchanges : Obligations.CountersCountEndedExchanges := by
  intro s t hin h
  change t.cnt = countedEnds s t
  rcases step_keeps_or_sequences hin h with hk | hq
  · rw [hk.cnt, countedEnds_of_no_error fun ha => .inl ((hk.active ha).symm ▸ ha)]
  · cases hq with
    | goesOn books active => rw [countedEnds_of_no_error active, show t.cnt = s.cnt from congrArg Books.cnt books]
    | @raises e u ha books =>
      rw [countedEnds_raise e ha, State.raise_cnt, show u.cnt = s.cnt from congrArg Books.cnt books]

/-! ## The locks -/

/-- A state with the same books has the same locks, and the error entry writes none of them. -/
theorem SequencerStep.locks {s t : State} (h : SequencerStep s t) :
    t.cfg = s.cfg ∧ t.session = s.session ∧ t.stsKey = s.stsKey ∧ t.firstDone = s.firstDone ∧ t.hasAes = s.hasAes := by
  cases h with
  | goesOn books _ =>
    exact ⟨congrArg Books.cfg books, congrArg Books.session books, congrArg Books.stsKey books,
      congrArg Books.firstDone books, congrArg Books.hasAes books⟩
  | raises e _ books =>
    exact ⟨congrArg Books.cfg books, congrArg Books.session books, congrArg Books.stsKey books,
      congrArg Books.firstDone books, congrArg Books.hasAes books⟩

/-- Settles O60: commands respect the locks, and no sequencer step writes what they guard. -/
theorem configurationIsLockedForTheSession : Obligations.ConfigurationIsLockedForTheSession := by
  intro s t hin h
  rcases step_keeps_or_sequences hin h with hk | hq
  · exact ⟨hk.session, hk.key, hk.hasAes⟩
  · obtain ⟨hcfg, hses, hkey, hfirst, haes⟩ := hq.locks
    exact ⟨fun hs => ⟨hses.trans hs, hcfg⟩, fun hf => ⟨hfirst.trans hf, hkey⟩, haes⟩

end Sys2Proof.Machine
end

section
/-! PROOF. Every step keeps the invariant: a command writes nothing of an exchange in flight and is harmless between
exchanges; a sequencer step goes on with the registers its next state reads, or ends the exchange (spec/10_state.md
R22, R24, R25, R30; spec/20_memory.md R60; spec/43_sts_sync.md R181, R184; spec/46_system_commands.md R272). -/

namespace Sys2Proof.Machine

/-! ## What the invariant reads -/

/-- What the invariant reads beside the frame buffer, `STATE`, the tags and `RESYNC_PENDING`. A sequencer step that
does not end its exchange writes none of it, nor do most commands. -/
structure Held where
  cfg : CfgRegs
  session : Bool
  keySet : Bool
  ivSet : Bool
  firstDone : Bool
  tofValid : Bool
  outcome : ExchangeOutcome

/-- The held part of the state. -/
def State.held (s : State) : Held :=
  { cfg := s.cfg, session := s.session, keySet := s.keySet, ivSet := s.ivSet, firstDone := s.firstDone,
    tofValid := s.tofValid, outcome := s.outcome }

theorem held_resync (s : State) : s.resync.held = s.held := by
  unfold State.resync
  split <;> rfl

/-- The state with `STATE` alone moved to `x`: its role and scheme are those of the exchange. -/
def State.moved (s : State) (x : SeqState) : State := { s with state := x }

@[simp] theorem State.moved_state (s : State) (x : SeqState) : (s.moved x).state = x := rfl
@[simp] theorem State.moved_isResponder (s : State) (x : SeqState) : (s.moved x).isResponder = s.isResponder := rfl
@[simp] theorem State.moved_isDoubleSided (s : State) (x : SeqState) : (s.moved x).isDoubleSided = s.isDoubleSided :=
  rfl
@[simp] theorem State.moved_ackEnabled (s : State) (x : SeqState) : (s.moved x).ackEnabled = s.ackEnabled := rfl

/-- `stateFits` reads `STATE` and the configuration. -/
theorem stateFits_eq_moved {s t : State} (hc : t.cfg = s.cfg) : stateFits t = stateFits (s.moved t.state) := by
  unfold stateFits State.isResponder State.isDoubleSided State.ackEnabled
  rw [hc]
  rfl

/-- `writtenBy` reads `STATE` and the scheme. -/
theorem writtenBy_eq_moved {s t : State} (hc : t.cfg = s.cfg) : writtenBy t = writtenBy (s.moved t.state) := by
  unfold writtenBy State.isDoubleSided
  rw [hc]
  rfl

theorem outcomeFits_active {x : SeqState} {o : ExchangeOutcome} (hx : x.isActive = true) :
    outcomeFits x o = true ↔ o = .none := by
  cases x <;> simp_all [outcomeFits, SeqState.isActive]

section
variable {s t : State}

theorem held_templates (h : s.Inv) (hh : t.held = s.held) : ∀ i : Fin 4, t.cfg.tpl[i].extractLsb' 16 8 = 0 := by
  rw [show t.cfg = s.cfg from congrArg Held.cfg hh]
  exact h.templates

theorem held_loaded (h : s.Inv) (hh : t.held = s.held) : t.firstDone = true → t.keySet = true ∧ t.ivSet = true := by
  rw [show t.firstDone = s.firstDone from congrArg Held.firstDone hh,
    show t.keySet = s.keySet from congrArg Held.keySet hh, show t.ivSet = s.ivSet from congrArg Held.ivSet hh]
  exact h.loaded

/-- Between exchanges a command may write the buffer in its canonical form, and whatever else the invariant does not
read there. -/
theorem atRest_inv (h : s.Inv) (ha : s.state.isActive = false) (hs : t.state = s.state) (hh : t.held = s.held)
    (m : Memory.wf t.fb) (l : t.fbLen.toNat ≤ 128) : t.Inv := by
  have ho : outcomeFits t.state t.outcome = true := by
    rw [hs, show t.outcome = s.outcome from congrArg Held.outcome hh]
    exact h.outcome
  exact inv_inactive (hs ▸ ha) m l (held_templates h hh) ho (held_loaded h hh)

/-- The error entry from a state with the held part of one that satisfies the invariant. -/
theorem raise_inv_of_held (e : ErrorKind) (h : s.Inv) (hh : t.held = s.held) (m : Memory.wf t.fb)
    (l : t.fbLen.toNat ≤ 128) : (t.raise e).Inv :=
  raise_inv e m l (held_templates h hh) (held_loaded h hh)

/-- What a sequencer step leaves when it does not end the exchange: the held part as it was, the buffer in its
canonical form, no tag lost, and the registers `new` written. -/
structure Progress (new : List RegNum) (s t : State) : Prop where
  held : t.held = s.held
  memory : Memory.wf t.fb
  frameLen : t.fbLen.toNat ≤ 128
  tags : ∀ r : RegNum, s.tsw[r] = true → t.tsw[r] = true
  stored : ∀ r ∈ new, t.tsw[r] = true

/-- No register is written. -/
theorem Progress.of_tsw (hh : t.held = s.held) (m : Memory.wf t.fb) (l : t.fbLen.toNat ≤ 128)
    (htsw : t.tsw = s.tsw) : Progress [] s t := ⟨hh, m, l, fun _ hr => htsw ▸ hr, by simp⟩

theorem Progress.start (h : s.Inv) : Progress [] s s := .of_tsw rfl h.memory h.frameLen rfl

/-- One more register `q` is written. -/
theorem Progress.stamp {new : List RegNum} {u : State} {q : RegNum} (hp : Progress new s u) (hh : t.held = u.held)
    (hfb : t.fb = u.fb) (hlen : t.fbLen = u.fbLen) (htsw : t.tsw = u.tsw.set q true) :
    Progress (new ++ [q]) s t where
  held := hh.trans hp.held
  memory := hfb ▸ hp.memory
  frameLen := hlen ▸ hp.frameLen
  tags r hr := by
    rw [htsw]
    exact tag_set_keeps (hp.tags r hr)
  stored r hr := by
    rw [htsw]
    rcases List.mem_append.mp hr with hr | hr
    · exact tag_set_keeps (hp.stored r hr)
    · rw [List.mem_singleton.mp hr]
      exact tag_set_self

/-- An exchange that goes on in `x`: role and scheme are those that `x` needs, the registers that `x` reads were
written before or by the step, and resynchronisation is suppressed if the reply has been exchanged. -/
theorem goesOn_inv {new : List RegNum} (x : SeqState) (h : s.Inv) (hp : Progress new s t)
    (ha : s.state.isActive = true) (hx : x.isActive = true) (hs : t.state = x)
    (role : stateFits (s.moved x) = true) (covered : writtenBy (s.moved x) ⊆ writtenBy s ++ new)
    (suppressed : x.replyExchanged = true → t.resyncPending = false) : t.Inv := by
  subst hs
  have hh : t.held = s.held := hp.held
  have hcfg : t.cfg = s.cfg := congrArg Held.cfg hh
  have hconfig : t.configOK = s.configOK :=
    configOK_congr hcfg (congrArg Held.keySet hh) (congrArg Held.ivSet hh)
  obtain ⟨hsession, hok⟩ := h.active ha
  exact
    { memory := hp.memory
      frameLen := hp.frameLen
      templates := held_templates h hh
      outcome := (outcomeFits_active hx).mpr <|
        (congrArg Held.outcome hh).trans ((outcomeFits_active ha).mp h.outcome)
      role := (stateFits_eq_moved hcfg).trans role
      active := fun _ => ⟨(congrArg Held.session hh).trans hsession, hconfig.trans hok⟩
      written := fun r hr => (List.mem_append.mp (covered (writtenBy_eq_moved hcfg ▸ hr))).elim
        (fun hold => hp.tags r (h.written r hold)) (hp.stored r)
      noTof := fun _ => (congrArg Held.tofValid hh).trans (h.noTof ha)
      suppressed := suppressed
      loaded := held_loaded h hh }

end

/-! ## Commands -/

section
variable {s t : State}

theorem call_inv (h : s.Inv) (c : HalCall) : (s.call c).Inv := inv_ports h s.inputs s.opnd s.ans _ s.responses s.draws

theorem reply_inv (h : s.Inv) (st : Status) (d : Datum) : Result.Ends State.Inv (reply s st d) :=
  ends_reply (inv_respond h st d)

/-- An answer given between exchanges in a state that differs in nothing the invariant reads but the buffer. -/
theorem reply_atRest_inv {st : Status} {d : Datum} (h : s.Inv) (ha : s.state.isActive = false)
    (hs : t.state = s.state) (hh : t.held = s.held) (m : Memory.wf t.fb) (l : t.fbLen.toNat ≤ 128) :
    Result.Ends State.Inv (reply t st d) :=
  reply_inv (atRest_inv h ha hs hh m l) st d

theorem write_inv {st : Status} {d : Datum} (h : s.Inv) (hs : t.state = s.state) (hh : t.held = s.held)
    (m : Memory.wf t.fb) (l : t.fbLen.toNat ≤ 128) : Result.Ends State.Inv (admitWrite s (reply t st d)) :=
  ends_admitWrite (inv_respond h) fun ha => reply_atRest_inv h ha hs hh m l

/-- A span command: the span lies inside the buffer, or the answer is an error (R64). -/
theorem ends_withSpan_inside {P : State → Prop} {off : BitVec 8} {n : Nat} {k : Result}
    (hr : ∀ st d, P (s.respond st d)) (hk : off.toNat + n ≤ 128 → Result.Ends P k) :
    Result.Ends P (withSpan s off n k) := by
  intro t h
  rcases withSpan_next h with ⟨_, _, rfl⟩ | ⟨hin, h⟩
  · exact hr _ _
  · exact hk hin t h

theorem tsUnary_inv (h : s.Inv) (f : Timestamp → Timestamp) (rd ra : RegNum) :
    Result.Ends State.Inv (tsUnary f rd ra s) :=
  ends_admitWrite (inv_respond h) fun ha => ends_withSource (inv_respond h) fun _ =>
    reply_atRest_inv h ha rfl rfl h.memory h.frameLen

theorem tsBinary_inv (h : s.Inv) (f : Timestamp → Timestamp → Timestamp) (rd ra rb : RegNum) :
    Result.Ends State.Inv (tsBinary f rd ra rb s) :=
  ends_admitWrite (inv_respond h) fun ha => ends_withSource (inv_respond h) fun _ =>
    ends_withSource (inv_respond h) fun _ => reply_atRest_inv h ha rfl rfl h.memory h.frameLen

theorem tsVerdict_inv (h : s.Inv) (f : Timestamp → Timestamp → BitVec 4) (ra rb : RegNum) :
    Result.Ends State.Inv (tsVerdict f ra rb s) :=
  ends_withSource (inv_respond h) fun _ => ends_withSource (inv_respond h) fun _ => reply_inv h _ _

/-- A distance may come to exist between exchanges. -/
theorem replyEstimate_inv (h : s.Inv) (ha : s.state.isActive = false) (e : Estimate) :
    Result.Ends State.Inv (replyEstimate s e) := by
  cases e with
  | tof q => exact reply_inv (s := s.setTof q) (inv_inactive ha h.memory h.frameLen h.templates h.outcome h.loaded) _ _
  | degenerate => exact reply_inv h _ _
  | badK => exact reply_inv h _ _

theorem execTofss_inv (h : s.Inv) : Result.Ends State.Inv (execTofss s) :=
  ends_admitWrite (inv_respond h) fun ha => ends_withWritten (inv_respond h) (replyEstimate_inv h ha _)

theorem execTofds_inv (h : s.Inv) : Result.Ends State.Inv (execTofds s) :=
  ends_admitWrite (inv_respond h) fun ha => ends_withWritten (inv_respond h) (replyEstimate_inv h ha _)

theorem execTofrd_inv (h : s.Inv) : Result.Ends State.Inv (execTofrd s) :=
  ends_ite (fun _ => reply_inv h _ _) fun _ => ends_ite (fun _ => reply_inv h _ _) fun _ => reply_inv h _ _

/-- Encode keeps the buffer canonical and its length inside it (R60, R157, R159). -/
theorem encodeFrame_buffer {k : FrameKind} (hl : s.layoutOK k = true) (m : Memory.wf s.fb) :
    Memory.wf (s.encodeFrame k).fb ∧ (s.encodeFrame k).fbLen.toNat ≤ 128 := by
  have hl' := (layoutOK_iff s k).mp hl
  obtain ⟨m', -⟩ := encodeFrame_spec hl' m
  obtain ⟨⟨-, hmax⟩, -⟩ := hl'
  exact ⟨m', hmax⟩

theorem execFenc_inv (h : s.Inv) (k : FrameKind) : Result.Ends State.Inv (execFenc k s) := by
  refine ends_admitWrite (inv_respond h) fun ha => ends_ite (fun _ => reply_inv h _ _) fun hl =>
    ends_withWritten (inv_respond h) (ends_ite (fun _ => reply_inv h _ _) fun _ => ?_)
  obtain ⟨m, l⟩ := encodeFrame_buffer (by simpa using hl) h.memory
  exact reply_atRest_inv h ha rfl rfl m l

theorem execFdec_inv (h : s.Inv) (k : FrameKind) : Result.Ends State.Inv (execFdec k s) := by
  refine ends_admitWrite (inv_respond h) fun ha => ends_ite (fun _ => reply_inv h _ _) fun _ => ?_
  obtain ⟨ts, tsw, ctr, he⟩ := extractFields_frame s.clearSeqByte (s.fields k)
  rcases decodeFrame_shape s k with hd | hd | hd <;> rw [hd]
  · exact reply_inv h _ _
  · exact reply_atRest_inv h ha rfl rfl (wf_clearSeqByte h.memory) h.frameLen
  · rw [he]
    exact reply_atRest_inv h ha rfl rfl (wf_clearSeqByte h.memory) h.frameLen

theorem execFput32_inv (h : s.Inv) (rs : RegNum) (off : BitVec 8) : Result.Ends State.Inv (execFput32 rs off s) :=
  ends_admitWrite (inv_respond h) fun ha => ends_withSpan_inside (inv_respond h) fun hin =>
    ends_withSource (inv_respond h) fun _ =>
      reply_atRest_inv h ha rfl rfl (Memory.wf_write32 h.memory hin) h.frameLen

theorem execFget32_inv (h : s.Inv) (rd : RegNum) (off : BitVec 8) : Result.Ends State.Inv (execFget32 rd off s) :=
  ends_admitWrite (inv_respond h) fun ha => ends_withSpan (inv_respond h) <|
    reply_atRest_inv h ha rfl rfl h.memory h.frameLen

theorem execFbwr_inv (h : s.Inv) (off : BitVec 8) : Result.Ends State.Inv (execFbwr off s) :=
  ends_admitWrite (inv_respond h) fun ha => ends_withSpan_inside (inv_respond h) fun hin =>
    reply_atRest_inv h ha rfl rfl (Memory.wf_write h.memory hin) h.frameLen

theorem execFlenw_inv (h : s.Inv) : Result.Ends State.Inv (execFlenw s) :=
  ends_admitWrite (inv_respond h) fun ha => ends_ite (fun _ => reply_inv h _ _) fun hl =>
    reply_atRest_inv h ha rfl rfl h.memory (not_lt.mp hl)

/-- A load of the key or the IV precedes the first exchange start (R182, R183). -/
theorem stsLoad_inv (h : s.Inv) (ht : s.state.isActive = false → s.firstDone = false → t.Inv) :
    Result.Ends State.Inv (stsLoad s t) :=
  ends_admitIdle (inv_respond h) fun hi => ends_ite (fun _ => reply_inv h _ _) fun hf =>
    reply_inv (ht (by rw [hi]; rfl) (by simpa using hf)) _ _

theorem execStskey_inv (h : s.Inv) : Result.Ends State.Inv (execStskey s) :=
  stsLoad_inv h fun ha hf => inv_inactive ha h.memory h.frameLen h.templates h.outcome (by simp [hf])

theorem execStsiv_inv (h : s.Inv) : Result.Ends State.Inv (execStsiv s) :=
  stsLoad_inv h fun ha hf => inv_inactive ha h.memory h.frameLen h.templates h.outcome (by simp [hf])

/-- The session starts only once key and IV are loaded (R184). -/
theorem execStsbegin_inv (h : s.Inv) : Result.Ends State.Inv (execStsbegin s) :=
  ends_admitWrite (inv_respond h) fun ha => ends_ite (fun _ => reply_inv h _ _) fun hk =>
    ends_ite (fun _ => reply_inv h _ _) fun hi => by
      have hloaded : s.keySet = true ∧ s.ivSet = true := by simpa using And.intro hk hi
      obtain ⟨iv, cs, he⟩ := stsStarted_frame s
      rw [exchangeStart_eq, he]
      refine reply_inv ?_ _ _
      exact inv_inactive ha h.memory h.frameLen h.templates h.outcome fun _ => hloaded

theorem execStsresync_inv (h : s.Inv) : Result.Ends State.Inv (execStsresync s) :=
  write_inv h (State.resync_state s) (held_resync s) (by simpa using h.memory) (by simpa using h.frameLen)

/-- A configuration that XSTART accepts with STS has key and IV loaded (R272). -/
theorem loaded_of_configOK (hok : s.configOK = true) (hu : s.usesSts = true) : s.keySet = true ∧ s.ivSet = true := by
  obtain ⟨-, -, -, -, hloaded⟩ := (configOK_iff s).mp hok
  exact hloaded hu

/-- The first state of an exchange reads no register, and nothing is suppressed in it. `fd` is `FIRST_DONE` after the
exchange-start action. -/
theorem started_inv {fd : Bool} (x : SeqState) (h : s.Inv) (hok : s.configOK = true) (hs : t.state = x)
    (hx : x = .pollSent ∨ x = .awaitPoll) (role : s.isResponder = decide (x = .awaitPoll))
    (hh : t.held = { s.held with session := true, tofValid := false, outcome := .none, firstDone := fd })
    (first : fd = true → s.firstDone = true ∨ s.usesSts = true) (m : Memory.wf t.fb) (l : t.fbLen.toNat ≤ 128) :
    t.Inv := by
  subst hs
  have hcfg : t.cfg = s.cfg := congrArg Held.cfg hh
  have hkey : t.keySet = s.keySet := congrArg Held.keySet hh
  have hiv : t.ivSet = s.ivSet := congrArg Held.ivSet hh
  have hfirst : t.firstDone = fd := congrArg Held.firstDone hh
  have hnone : t.outcome = .none := congrArg Held.outcome hh
  exact
    { memory := m
      frameLen := l
      templates := by rw [hcfg]; exact h.templates
      outcome := by rcases hx with hx | hx <;> simp [hx, hnone, outcomeFits]
      role := by rw [stateFits_eq_moved hcfg]; rcases hx with hx | hx <;> simp [stateFits, hx, role]
      active := fun _ => ⟨congrArg Held.session hh, (configOK_congr hcfg hkey hiv).trans hok⟩
      written := by rcases hx with hx | hx <;> simp [writtenBy, hx]
      noTof := fun _ => congrArg Held.tofValid hh
      suppressed := by rcases hx with hx | hx <;> simp [hx, SeqState.replyExchanged]
      loaded := fun hf => by
        rw [hkey, hiv]
        exact (first (hfirst ▸ hf)).elim h.loaded (loaded_of_configOK hok) }

theorem execXstart_inv (h : s.Inv) : Result.Ends State.Inv (execXstart s) := by
  refine ends_admitIdle (inv_respond h) fun _ => ends_ite (fun _ => reply_inv h _ _) fun hok => ?_
  replace hok : s.configOK = true := by simpa using hok
  obtain ⟨iv, fd, cs, he, -, -, first⟩ := startSts_frame s.createExchange
  refine ends_ite (fun hr => reply_inv ?_ _ _) fun hr => reply_inv ?_ _ _
  · rw [State.startResponder, he]
    exact started_inv .awaitPoll h hok rfl (.inr rfl) hr rfl first h.memory h.frameLen
  · have hl : s.createExchange.startSts.layoutOK .poll = true :=
      (layoutOK_congr (s := s) (by simp) .poll).trans (layoutOK_of_configOK hok).1
    obtain ⟨m, l⟩ := encodeFrame_buffer hl (by simpa using h.memory)
    rw [he] at m l
    rw [State.startInitiator, he]
    exact started_inv .pollSent h hok rfl (.inl rfl) (by simpa using hr) rfl first m l

theorem execXclr_inv (h : s.Inv) : Result.Ends State.Inv (execXclr s) :=
  ends_admitTerminal (inv_respond h) fun _ =>
    reply_inv (s := s.clear) (inv_inactive rfl h.memory h.frameLen h.templates rfl h.loaded) _ _

/-- A register write between exchanges leaves the templates' byte 2 hardwired (R25). -/
theorem writeReg_inv (h : s.Inv) (ha : s.state.isActive = false) (r : CfgReg) : (s.writeReg r).Inv := by
  have hw := writeReg_frame s r
  have tpl := writeReg_templates h.templates r
  generalize s.writeReg r = u at hw tpl ⊢
  rw [hw]
  exact inv_inactive ha h.memory h.frameLen tpl h.outcome h.loaded

theorem execCfgw_inv (h : s.Inv) (idx : BitVec 8) : Result.Ends State.Inv (execCfgw idx s) := by
  unfold execCfgw
  cases s.regAt idx with
  | none => exact reply_inv h _ _
  | some r =>
    cases hc : regClass r with
    | ro => simpa only [hc] using reply_inv h _ _
    | cfg =>
      simp only [hc]
      exact ends_admitIdle (inv_respond h) fun hi => ends_ite (fun _ => reply_inv h _ _) fun _ =>
        reply_inv (writeReg_inv h (by rw [hi]; rfl) r) _ _
    | opd =>
      simp only [hc]
      exact ends_admitWrite (inv_respond h) fun ha => reply_inv (writeReg_inv h ha r) _ _

theorem execCfgr_inv (h : s.Inv) (idx : BitVec 8) : Result.Ends State.Inv (execCfgr idx s) := by
  unfold execCfgr
  split <;> exact reply_inv h _ _

theorem replyClassified_inv (h : s.Inv) (st : BitVec 8) : Result.Ends State.Inv (replyClassified s st) :=
  ends_ite (fun _ => reply_inv h _ _) fun _ => ends_ite (fun _ => reply_inv h _ _) fun _ => reply_inv h _ _

theorem execAeslen_inv (h : s.Inv) : Result.Ends State.Inv (execAeslen s) :=
  ends_withAes (inv_respond h) <| ends_ite (fun _ => reply_inv h _ _) fun _ => reply_inv h _ _

theorem execAesprot_inv (h : s.Inv) : Result.Ends State.Inv (execAesprot s) :=
  ends_withAes (inv_respond h) <| ends_admitWrite (inv_respond h) fun _ =>
    ends_ite (fun _ => reply_inv h _ _) fun _ => replyClassified_inv (call_inv h _) _

/-- Every host command keeps the invariant. -/
theorem exec_command_inv {i : Instr} (h : s.Inv) (hi : isEventWord i = false) : Result.Ends State.Inv (exec i s) := by
  have refusal := inv_respond h
  cases i with
  | nop => exact reply_inv h _ _
  | tsld rd => exact write_inv h rfl rfl h.memory h.frameLen
  | tsrd rs => exact ends_withSource refusal fun _ => reply_inv h _ _
  | tsmov rd ra => exact tsUnary_inv h _ rd ra
  | tscaptx rd => exact write_inv h rfl rfl h.memory h.frameLen
  | tscaprx rd => exact write_inv h rfl rfl h.memory h.frameLen
  | tsadd rd ra rb => exact tsBinary_inv h _ rd ra rb
  | tssub rd ra rb => exact tsBinary_inv h _ rd ra rb
  | tssub32 rd ra rb => exact tsBinary_inv h _ rd ra rb
  | tslo32 rd ra => exact tsUnary_inv h _ rd ra
  | tsalign rd ra => exact tsUnary_inv h _ rd ra
  | tssched rd ra rb => exact tsBinary_inv h _ rd ra rb
  | tscmp ra rb => exact tsVerdict_inv h (fun a b => compareVerdict (a - b)) ra rb
  | tscmp32 ra rb => exact tsVerdict_inv h (fun a b => compareVerdict (delta32 a b)) ra rb
  | tofss => exact execTofss_inv h
  | tofds => exact execTofds_inv h
  | tofrd => exact execTofrd_inv h
  | fenc k => exact execFenc_inv h k
  | fdec k => exact execFdec_inv h k
  | fput32 rs off => exact execFput32_inv h rs off
  | fget32 rd off => exact execFget32_inv h rd off
  | fbwr off => exact execFbwr_inv h off
  | fbrd off => exact ends_withSpan refusal (reply_inv h _ _)
  | flenw => exact execFlenw_inv h
  | flenr => exact reply_inv h _ _
  | stskey => exact execStskey_inv h
  | stsiv => exact execStsiv_inv h
  | stsbegin => exact execStsbegin_inv h
  | stschk => exact write_inv h rfl rfl h.memory h.frameLen
  | stsresync => exact execStsresync_inv h
  | stslock => exact write_inv h rfl rfl h.memory h.frameLen
  | stsunlock => exact write_inv h rfl rfl h.memory h.frameLen
  | xstart => exact execXstart_inv h
  | xclr => exact execXclr_inv h
  | cfgw idx => exact execCfgw_inv h idx
  | cfgr idx => exact execCfgr_inv h idx
  | aesnonce => exact ends_withAes refusal (reply_inv h _ _)
  | aeslen => exact execAeslen_inv h
  | aescls => exact ends_withAes refusal (replyClassified_inv h _)
  | aesprot => exact execAesprot_inv h
  | evGood | evRxErr | evRxTo | evTxDone => cases hi

end

/-! ## Good frames -/

section
variable {s v : State}

/-- Acceptance ends with an error, or hands on a state in which the fields of the frame are stored (R203). -/
theorem accept_inv {k : FrameKind} {acc : State → Result} (h : s.Inv)
    (hacc : ∀ v, Progress ((timestampFields s k).map Prod.fst) s v → v.resyncPending = s.resyncPending →
      Result.Ends State.Inv (acc v)) : Result.Ends State.Inv (accept k s acc) := by
  intro t ht
  obtain ⟨ho, v, fb, ts, tsw, ctr, rfl, hwf, htags, hend⟩ := accept_next ht
  have m : Memory.wf fb := hwf h.memory
  have l : (BitVec.ofNat 8 s.ans.frameLen).toNat ≤ 128 := by
    have : s.ans.frameLen ≤ 128 ∧ _ := of_decide_eq_true ho
    simp only [BitVec.toNat_ofNat]
    omega
  rcases hend with rfl | ⟨hfields, -, ⟨-, ht⟩ | ⟨-, ht⟩ | ⟨-, rfl⟩⟩
  · exact raise_inv_of_held .badFrame h rfl m l
  · refine hacc _ ?_ ?_ t ht
    exacts [⟨rfl, m, l, htags, hfields⟩, rfl]
  · refine hacc _ ?_ ?_ t ht
    exacts [⟨rfl, m, l, htags, hfields⟩, rfl]
  · split
    · exact raise_inv_of_held .badSts h (held_resync _) (by simpa using m) (by simpa using l)
    · exact raise_inv_of_held .badSts h rfl m l

/-- The reply: with SS-TWR it is a Report, which brings `T1` and `T2` (R210, R211). -/
theorem acceptedReply_inv (h : s.Inv) (hs : s.state = .awaitResponse)
    (hv : Progress ((timestampFields s s.replyKind).map Prod.fst) s v) :
    Result.Ends State.Inv (acceptedReply v) := by
  rw [acceptedReply_eq]
  refine ends_next (goesOn_inv .respondValid h (hv.stamp rfl rfl rfl rfl) (by rw [hs]; rfl) rfl rfl ?role ?covered
    fun _ => rfl)
  case role => simpa [stateFits, hs] using h.role
  case covered => cases hd : s.isDoubleSided <;> simp [writtenBy, hs, hd, State.replyKind, timestampFields]

/-- The acknowledgement ends the exchange (R218). -/
theorem acceptedAck_inv {new : List RegNum} (h : s.Inv) (hv : Progress new s v) :
    Result.Ends State.Inv (acceptedAck v) :=
  ends_next (conclude_inv hv.memory hv.frameLen (held_templates h hv.held) (held_loaded h hv.held))

theorem acceptedPoll_inv (h : s.Inv) (hs : s.state = .awaitPoll)
    (hv : Progress ((timestampFields s .poll).map Prod.fst) s v) :
    Result.Ends State.Inv (acceptedPoll v) := by
  refine ends_next (goesOn_inv .pollValid h (hv.stamp rfl rfl rfl rfl) (by rw [hs]; rfl) rfl rfl ?role ?covered nofun)
  case role => simpa [stateFits, hs] using h.role
  case covered => simp [writtenBy, timestampFields]

/-- The Final brings `T0`, `T3` and `T4`; the reply was sent before (R225). -/
theorem acceptedFinal_inv (h : s.Inv) (hs : s.state = .awaitFinal)
    (hv : Progress ((timestampFields s .final).map Prod.fst) s v) (hr : v.resyncPending = s.resyncPending) :
    Result.Ends State.Inv (acceptedFinal v) := by
  refine ends_next (goesOn_inv .finalValid h (hv.stamp rfl rfl rfl rfl) (by rw [hs]; rfl) rfl rfl ?role ?covered
    fun _ => hr.trans (h.suppressed (by rw [hs]; rfl)))
  case role => simpa [stateFits, hs] using h.role
  case covered => simp [writtenBy, hs, timestampFields]

end

/-! ## Event words -/

section
variable {s : State}

/-- An event word: nothing happens where nothing waits; else what follows runs with the wait recorded. -/
theorem onEvent_inv {ev : EventBits} {k : State → Result} (h : s.Inv)
    (hk : ∀ u : State, u.Inv → Result.Ends State.Inv (k u)) :
    Result.Ends State.Inv (onEvent ev s k) := by
  intro t ht
  rcases onEvent_next ht with ⟨-, rfl⟩ | ⟨mask, timeout, -, -, ht⟩
  · exact h
  · exact hk _ (call_inv h (.awaitStatus mask timeout)) t ht

theorem execEvGood_inv (h : s.Inv) : Result.Ends State.Inv (execEvGood s) := by
  refine onEvent_inv h fun u hu => ?_
  split
  · exact accept_inv hu fun v hv _ => acceptedReply_inv hu ‹_› hv
  · exact accept_inv hu fun v hv _ => acceptedAck_inv hu hv
  · exact accept_inv hu fun v hv _ => acceptedPoll_inv hu ‹_› hv
  · exact accept_inv hu fun v hv hr => acceptedFinal_inv hu ‹_› hv hr
  all_goals exact ends_fault _

/-- A reception failure raises its error (R208, R209). -/
theorem onEvent_raise_inv {ev : EventBits} (h : s.Inv) (e : ErrorKind) :
    Result.Ends State.Inv (onEvent ev s fun u => .next (u.raise e)) :=
  onEvent_inv h fun _ hu => ends_next (raise_inv e hu.memory hu.frameLen hu.templates hu.loaded)

theorem pollTransmitted_inv (h : s.Inv) (hs : s.state = .pollSent) : (pollTransmitted s).Inv := by
  refine goesOn_inv .awaitResponse h ((Progress.start h).stamp rfl rfl rfl rfl) (by rw [hs]; rfl) rfl rfl ?role
    ?covered nofun
  case role => simpa [stateFits, hs] using h.role
  case covered => simp [writtenBy]

theorem finalTransmitted_inv (h : s.Inv) (hs : s.state = .finalSent) : (finalTransmitted s).Inv := by
  unfold finalTransmitted
  split
  · rename_i hack
    refine goesOn_inv .awaitAck h (.of_tsw rfl h.memory h.frameLen rfl) (by rw [hs]; rfl) rfl rfl ?role ?covered
      fun _ => h.suppressed (by rw [hs]; rfl)
    case role => simpa [stateFits, hs, hack] using h.role
    case covered => simp [writtenBy, hs]
  · exact conclude_inv h.memory h.frameLen h.templates h.loaded

/-- The reply suppresses resynchronisation; with SS-TWR it ends the exchange (R181, R223). -/
theorem replyTransmitted_inv (h : s.Inv) (hs : s.state = .respSent) : (replyTransmitted s).Inv := by
  unfold replyTransmitted
  dsimp only
  split
  · rename_i hd
    replace hd : s.isDoubleSided = true := hd
    refine goesOn_inv .awaitFinal h (.of_tsw rfl h.memory h.frameLen rfl) (by rw [hs]; rfl) rfl rfl ?role ?covered
      fun _ => rfl
    case role => simpa [stateFits, hs, hd] using h.role
    case covered => simp [writtenBy, hs]
  · exact conclude_inv h.memory h.frameLen h.templates h.loaded

theorem execEvTxDone_inv (h : s.Inv) : Result.Ends State.Inv (execEvTxDone s) := by
  refine onEvent_inv h fun u hu => ?_
  split
  · exact ends_next (pollTransmitted_inv hu ‹_›)
  · exact ends_next (finalTransmitted_inv hu ‹_›)
  · exact ends_next (replyTransmitted_inv hu ‹_›)
  all_goals exact ends_fault _

/-- Every event word keeps the invariant. -/
theorem exec_event_inv {i : Instr} (h : s.Inv) (hi : isEventWord i = true) : Result.Ends State.Inv (exec i s) := by
  cases i with
  | evGood => exact execEvGood_inv h
  | evRxErr => exact onEvent_raise_inv h .rxError
  | evRxTo => exact onEvent_raise_inv h .rxTimeout
  | evTxDone => exact execEvTxDone_inv h
  | _ => cases hi

theorem strayEvent_inv (h : s.Inv) : Result.Ends State.Inv (strayEvent s) := by
  unfold strayEvent
  split
  · exact ends_next h
  · exact ends_fault _

/-! ## The core's own step -/

/-- A delayed transmission writes the buffer as encode does, and its predicted time into `T[tx]`. -/
theorem sendDelayed_inv {rx tx : RegNum} {delay : Timestamp} {k : FrameKind} {window : Option (BitVec 32)}
    {after : SeqState} (h : s.Inv) (ha : s.state.isActive = true) (hafter : after.isActive = true)
    (role : stateFits (s.moved after) = true)
    (covered : writtenBy (s.moved after) ⊆ writtenBy s ++ [tx])
    (suppressed : after.replyExchanged = true → s.state.replyExchanged = true) :
    Result.Ends State.Inv (sendDelayed rx tx delay k window after s) := by
  have buffer : s.layoutOK k = true →
      Memory.wf (s.sent rx tx delay k).fb ∧ (s.sent rx tx delay k).fbLen.toNat ≤ 128 := fun hl =>
    encodeFrame_buffer (s := s.setT tx (s.txstamp (sched s.ts[rx] delay))) ((layoutOK_congr rfl k).trans hl) h.memory
  rcases sendDelayed_cases rx tx delay k window after s with ⟨-, hd⟩ | ⟨hl, -, hd⟩ | ⟨hl, -, hd⟩ <;> rw [hd]
  · exact ends_fault _
  · obtain ⟨m, l⟩ := buffer hl
    exact ends_next (raise_inv_of_held .lateStart h rfl m l)
  · obtain ⟨m, l⟩ := buffer hl
    have hp : Progress [] s { s with fb := (s.sent rx tx delay k).fb, fbLen := (s.sent rx tx delay k).fbLen } :=
      .of_tsw rfl m l rfl
    exact ends_next (goesOn_inv after h (hp.stamp rfl rfl rfl rfl) ha hafter rfl role covered
      fun hr => h.suppressed (suppressed hr))

theorem concludeEstimate_inv (h : s.Inv) (e : Estimate) : (concludeEstimate s e).Inv := by
  have hraise := raise_inv .degenerateTiming h.memory h.frameLen h.templates h.loaded
  cases e with
  | tof q => exact conclude_inv (u := s.setTof q) h.memory h.frameLen h.templates h.loaded
  | degenerate => exact hraise
  | badK => exact hraise

theorem tauRespondValid_inv (h : s.Inv) (hs : s.state = .respondValid) :
    Result.Ends State.Inv (tauRespondValid s) := by
  refine ends_ite (fun hd => ?_) fun _ => ends_next (concludeEstimate_inv h _)
  refine sendDelayed_inv h (by rw [hs]; rfl) rfl ?role ?covered fun _ => by rw [hs]; rfl
  case role => simpa [stateFits, hs, hd] using h.role
  case covered => simp [writtenBy, hs, hd]

theorem tauPollValid_inv (h : s.Inv) (hs : s.state = .pollValid) : Result.Ends State.Inv (tauPollValid s) := by
  refine sendDelayed_inv h (by rw [hs]; rfl) rfl ?role ?covered nofun
  case role => simpa [stateFits, hs] using h.role
  case covered => simp [writtenBy, hs]

/-- The core's own step keeps the invariant. -/
theorem coreStep_inv (h : s.Inv) : Result.Ends State.Inv (coreStep s) := by
  unfold coreStep
  split
  · exact tauRespondValid_inv h ‹_›
  · exact tauPollValid_inv h ‹_›
  · exact ends_next (concludeEstimate_inv h _)
  all_goals exact ends_next h

/-! ## Every step -/

theorem latch_inv (h : s.Inv) (o : Datum) (a : HalAnswers) (rest : List Input) : (s.latch o a rest).Inv :=
  inv_ports h rest o a s.calls s.responses s.draws

theorem drawFree_inv (h : s.Inv) : s.drawFree.Inv := inv_ports h s.inputs s.opnd _ s.calls s.responses _

/-- A reset input gives the reset state, the ports apart (R320). -/
theorem resetEvent_inv (s : State) : s.resetEvent.Inv :=
  inv_inactive rfl invAtReset.memory invAtReset.frameLen invAtReset.templates rfl invAtReset.loaded

end

/-- Settles O51, by the next input: a command, an event word or a stray answer, the core's own step, or reset. -/
theorem stepKeepsInv : Obligations.StepKeepsInv := by
  intro s t h ht
  rcases step_cases s with ⟨-, he⟩ | ⟨w, o, a, rest, -, ⟨i, hd, he⟩ | he⟩ |
      ⟨ev, a, rest, -, ⟨i, hd, he⟩ | ⟨-, he⟩⟩ | ⟨a, rest, -, he⟩ | ⟨rest, -, he⟩ <;> rw [he] at ht
  · refine coreStep_inv ?_ t ht
    split
    · exact drawFree_inv h
    · exact h
  · exact exec_command_inv (latch_inv h o a rest) (decodeCommand_not_event hd) t ht
  · exact reply_inv (latch_inv h o a rest) .errIllegal 0 t ht
  · exact exec_event_inv (latch_inv h s.opnd a rest) (decodeEvent_isEventWord hd) t ht
  · exact strayEvent_inv (latch_inv h s.opnd a rest) t ht
  · exact coreStep_inv (latch_inv h s.opnd a rest) t ht
  · exact ends_next (resetEvent_inv _) t ht

end Sys2Proof.Machine
end

section
/-! PROOF. The encoder and the decoder are inverse to each other, and the words they share are those of the opcode
table (spec/30_encoding.md R81 to R83, R96, R98). -/

namespace Sys2Proof

open Machine (commandRows)

/-! ## The fields of an encoded word -/

/-- A field of a word, from its bits. -/
theorem field_of_bits {w : CmdWord} {n k : Nat} {v : BitVec k} (h : ∀ i < k, w.getLsbD (n + i) = v.getLsbD i) :
    w.extractLsb' n k = v :=
  BitVec.eq_of_getLsbD_eq fun i hi => by simp [hi, h i hi]

/-- A register field, from its bits. -/
theorem reg_of_bits {w : CmdWord} {n : Nat} {r : RegNum} (h : ∀ i < 3, w.getLsbD (n + i) = (regBits r).getLsbD i) :
    (w.extractLsb' n 3).toFin = r :=
  congrArg BitVec.toFin (field_of_bits h)

theorem fieldRd_encR1 (op : BitVec 8) (rd : RegNum) : fieldRd (encR1 op rd) = rd := by
  refine reg_of_bits fun i hi => ?_
  rw [encR1_bit]
  simp only [BitVec.getLsbD_append]
  interval_cases i <;> simp

theorem fieldRd_encR2 (op : BitVec 8) (rd ra : RegNum) : fieldRd (encR2 op rd ra) = rd := by
  refine reg_of_bits fun i hi => ?_
  rw [encR2_bit]
  simp only [BitVec.getLsbD_append]
  interval_cases i <;> simp

theorem fieldRa_encR2 (op : BitVec 8) (rd ra : RegNum) : fieldRa (encR2 op rd ra) = ra := by
  refine reg_of_bits fun i hi => ?_
  rw [encR2_bit]
  simp only [BitVec.getLsbD_append]
  interval_cases i <;> simp

theorem fieldRd_encR3 (op : BitVec 8) (rd ra rb : RegNum) : fieldRd (encR3 op rd ra rb) = rd := by
  refine reg_of_bits fun i hi => ?_
  rw [encR3_bit]
  simp only [BitVec.getLsbD_append]
  interval_cases i <;> simp

theorem fieldRa_encR3 (op : BitVec 8) (rd ra rb : RegNum) : fieldRa (encR3 op rd ra rb) = ra := by
  refine reg_of_bits fun i hi => ?_
  rw [encR3_bit]
  simp only [BitVec.getLsbD_append]
  interval_cases i <;> simp

theorem fieldRb_encR3 (op : BitVec 8) (rd ra rb : RegNum) : fieldRb (encR3 op rd ra rb) = rb := by
  refine reg_of_bits fun i hi => ?_
  rw [encR3_bit]
  simp only [BitVec.getLsbD_append]
  interval_cases i <;> simp

theorem fieldRa_encRC (op : BitVec 8) (ra rb : RegNum) : fieldRa (encRC op ra rb) = ra := by
  refine reg_of_bits fun i hi => ?_
  rw [encRC_bit]
  simp only [BitVec.getLsbD_append]
  interval_cases i <;> simp

theorem fieldRb_encRC (op : BitVec 8) (ra rb : RegNum) : fieldRb (encRC op ra rb) = rb := by
  refine reg_of_bits fun i hi => ?_
  rw [encRC_bit]
  simp only [BitVec.getLsbD_append]
  interval_cases i <;> simp

theorem fieldKind_encK (op : BitVec 8) (k : FrameKind) : fieldKind (encK op k) = k := by
  refine (congrArg kindOfBits (field_of_bits fun i hi => ?_)).trans (kindOfBits_kindBits k)
  rw [encK_bit]
  simp only [BitVec.getLsbD_append]
  interval_cases i <;> simp

theorem fieldRd_encFO (op : BitVec 8) (r : RegNum) (off : BitVec 8) : fieldRd (encFO op r off) = r := by
  refine reg_of_bits fun i hi => ?_
  rw [encFO_bit]
  simp only [BitVec.getLsbD_append]
  interval_cases i <;> simp

theorem fieldOff_encFO (op : BitVec 8) (r : RegNum) (off : BitVec 8) : fieldOff (encFO op r off) = off := by
  refine field_of_bits fun i hi => ?_
  rw [encFO_bit]
  simp only [BitVec.getLsbD_append]
  interval_cases i <;> simp

theorem fieldOff_encO (op off : BitVec 8) : fieldOff (encO op off) = off := by
  refine field_of_bits fun i hi => ?_
  rw [encO_bit]
  simp only [BitVec.getLsbD_append]
  interval_cases i <;> simp

theorem fieldIdx_encC (op idx : BitVec 8) : fieldIdx (encC op idx) = idx := by
  refine field_of_bits fun i hi => ?_
  rw [encC_bit]
  simp only [BitVec.getLsbD_append]
  interval_cases i <;> simp

/-! ## Decoding an encoded word, format by format -/

theorem checked_pass {w m : CmdWord} {op : BitVec 8} {i : Instr} (hop : opcode w = op)
    (hm : w &&& m = op.setWidth 32 <<< 24) : checked w m i = .ok i := by
  rw [checked, if_pos (by rw [hop, hm])]

section
variable {op : BitVec 8}

/-- A row of format N: the arm of its opcode reads no field. -/
theorem decode_encN {i : Instr} (arm : ∀ w, opcode w = op → decodeCommand w = checked w maskN i) :
    decode (.command (encN op)) = .ok i :=
  (arm _ (encN_opcode op)).trans (checked_pass (encN_opcode op) (encN_mask op))

theorem decode_encR1 {f : RegNum → Instr} (rd : RegNum)
    (arm : ∀ w, opcode w = op → decodeCommand w = checked w maskR1 (f (fieldRd w))) :
    decode (.command (encR1 op rd)) = .ok (f rd) := by
  rw [decode, arm _ (encR1_opcode op rd), checked_pass (encR1_opcode op rd) (encR1_mask op rd), fieldRd_encR1]

theorem decode_encR2 {f : RegNum → RegNum → Instr} (rd ra : RegNum)
    (arm : ∀ w, opcode w = op → decodeCommand w = checked w maskR2 (f (fieldRd w) (fieldRa w))) :
    decode (.command (encR2 op rd ra)) = .ok (f rd ra) := by
  rw [decode, arm _ (encR2_opcode op rd ra), checked_pass (encR2_opcode op rd ra) (encR2_mask op rd ra),
    fieldRd_encR2, fieldRa_encR2]

theorem decode_encR3 {f : RegNum → RegNum → RegNum → Instr} (rd ra rb : RegNum)
    (arm : ∀ w, opcode w = op → decodeCommand w = checked w maskR3 (f (fieldRd w) (fieldRa w) (fieldRb w))) :
    decode (.command (encR3 op rd ra rb)) = .ok (f rd ra rb) := by
  rw [decode, arm _ (encR3_opcode op rd ra rb), checked_pass (encR3_opcode op rd ra rb) (encR3_mask op rd ra rb),
    fieldRd_encR3, fieldRa_encR3, fieldRb_encR3]

theorem decode_encRC {f : RegNum → RegNum → Instr} (ra rb : RegNum)
    (arm : ∀ w, opcode w = op → decodeCommand w = checked w maskRC (f (fieldRa w) (fieldRb w))) :
    decode (.command (encRC op ra rb)) = .ok (f ra rb) := by
  rw [decode, arm _ (encRC_opcode op ra rb), checked_pass (encRC_opcode op ra rb) (encRC_mask op ra rb),
    fieldRa_encRC, fieldRb_encRC]

theorem decode_encK {f : FrameKind → Instr} (k : FrameKind)
    (arm : ∀ w, opcode w = op → decodeCommand w = checked w maskK (f (fieldKind w))) :
    decode (.command (encK op k)) = .ok (f k) := by
  rw [decode, arm _ (encK_opcode op k), checked_pass (encK_opcode op k) (encK_mask op k), fieldKind_encK]

theorem decode_encFO {f : RegNum → BitVec 8 → Instr} (r : RegNum) (off : BitVec 8)
    (arm : ∀ w, opcode w = op → decodeCommand w = checked w maskFO (f (fieldRd w) (fieldOff w))) :
    decode (.command (encFO op r off)) = .ok (f r off) := by
  rw [decode, arm _ (encFO_opcode op r off), checked_pass (encFO_opcode op r off) (encFO_mask op r off),
    fieldRd_encFO, fieldOff_encFO]

theorem decode_encO {f : BitVec 8 → Instr} (off : BitVec 8)
    (arm : ∀ w, opcode w = op → decodeCommand w = checked w maskO (f (fieldOff w))) :
    decode (.command (encO op off)) = .ok (f off) := by
  rw [decode, arm _ (encO_opcode op off), checked_pass (encO_opcode op off) (encO_mask op off), fieldOff_encO]

theorem decode_encC {f : BitVec 8 → Instr} (idx : BitVec 8)
    (arm : ∀ w, opcode w = op → decodeCommand w = checked w maskC (f (fieldIdx w))) :
    decode (.command (encC op idx)) = .ok (f idx) := by
  rw [decode, arm _ (encC_opcode op idx), checked_pass (encC_opcode op idx) (encC_mask op idx), fieldIdx_encC]

end

/-- Settles O1: the arm of an instruction's opcode checks the mask of its format and reads its fields back. -/
theorem decodeOfEncode : Obligations.DecodeOfEncode := by
  intro i
  cases i with
  | nop | tofss | tofds | tofrd | flenw | flenr | stskey | stsiv | stsbegin | stschk | stsresync | stslock
  | stsunlock | xstart | xclr | aesnonce | aeslen | aescls | aesprot =>
    exact decode_encN fun w h => by unfold decodeCommand; rw [h]; rfl
  | tsld rd | tsrd rd | tscaptx rd | tscaprx rd =>
    exact decode_encR1 rd fun w h => by unfold decodeCommand; rw [h]; rfl
  | tsmov rd ra | tslo32 rd ra | tsalign rd ra =>
    exact decode_encR2 rd ra fun w h => by unfold decodeCommand; rw [h]; rfl
  | tsadd rd ra rb | tssub rd ra rb | tssub32 rd ra rb | tssched rd ra rb =>
    exact decode_encR3 rd ra rb fun w h => by unfold decodeCommand; rw [h]; rfl
  | tscmp ra rb | tscmp32 ra rb => exact decode_encRC ra rb fun w h => by unfold decodeCommand; rw [h]; rfl
  | fenc k | fdec k => exact decode_encK k fun w h => by unfold decodeCommand; rw [h]; rfl
  | fput32 r off | fget32 r off => exact decode_encFO r off fun w h => by unfold decodeCommand; rw [h]; rfl
  | fbwr off | fbrd off => exact decode_encO off fun w h => by unfold decodeCommand; rw [h]; rfl
  | cfgw idx | cfgr idx => exact decode_encC idx fun w h => by unfold decodeCommand; rw [h]; rfl
  | evGood | evRxErr | evRxTo | evTxDone => rfl

/-! ## The words of a row, rebuilt from their fields -/

theorem encN_of_masked {op : BitVec 8} {w v : CmdWord} (h : w &&& maskN = v) (hv : v = op.setWidth 32 <<< 24) :
    PortWord.command (encN op) = .command w := by
  rw [encN_fields op w, ← hv, ← word_of_masked h]

theorem encR1_of_masked {op : BitVec 8} {w v : CmdWord} (h : w &&& maskR1 = v) (hv : v = op.setWidth 32 <<< 24) :
    PortWord.command (encR1 op (fieldRd w)) = .command w := by
  rw [encR1_fields, ← hv, ← word_of_masked h]

theorem encR2_of_masked {op : BitVec 8} {w v : CmdWord} (h : w &&& maskR2 = v) (hv : v = op.setWidth 32 <<< 24) :
    PortWord.command (encR2 op (fieldRd w) (fieldRa w)) = .command w := by
  rw [encR2_fields, ← hv, ← word_of_masked h]

theorem encR3_of_masked {op : BitVec 8} {w v : CmdWord} (h : w &&& maskR3 = v) (hv : v = op.setWidth 32 <<< 24) :
    PortWord.command (encR3 op (fieldRd w) (fieldRa w) (fieldRb w)) = .command w := by
  rw [encR3_fields, ← hv, ← word_of_masked h]

theorem encRC_of_masked {op : BitVec 8} {w v : CmdWord} (h : w &&& maskRC = v) (hv : v = op.setWidth 32 <<< 24) :
    PortWord.command (encRC op (fieldRa w) (fieldRb w)) = .command w := by
  rw [encRC_fields, ← hv, ← word_of_masked h]

theorem encK_of_masked {op : BitVec 8} {w v : CmdWord} (h : w &&& maskK = v) (hv : v = op.setWidth 32 <<< 24) :
    PortWord.command (encK op (fieldKind w)) = .command w := by
  rw [encK_fields, ← hv, ← word_of_masked h]

theorem encFO_of_masked {op : BitVec 8} {w v : CmdWord} (h : w &&& maskFO = v) (hv : v = op.setWidth 32 <<< 24) :
    PortWord.command (encFO op (fieldRd w) (fieldOff w)) = .command w := by
  rw [encFO_fields, ← hv, ← word_of_masked h]

theorem encO_of_masked {op : BitVec 8} {w v : CmdWord} (h : w &&& maskO = v) (hv : v = op.setWidth 32 <<< 24) :
    PortWord.command (encO op (fieldOff w)) = .command w := by
  rw [encO_fields, ← hv, ← word_of_masked h]

theorem encC_of_masked {op : BitVec 8} {w v : CmdWord} (h : w &&& maskC = v) (hv : v = op.setWidth 32 <<< 24) :
    PortWord.command (encC op (fieldIdx w)) = .command w := by
  rw [encC_fields, ← hv, ← word_of_masked h]

/-! ## The table -/

/-- The word of a row is the one word of the instruction that the row reads from it (R81, R82). -/
theorem encode_of_row (w : CmdWord) :
    ∀ r ∈ commandRows true, w &&& r.1 = r.2 → ∃ i, encode i = .command w := by
  simp only [commandRows, if_true, List.cons_append, List.nil_append, List.forall_mem_cons]
  exact ⟨fun h => ⟨.nop, encN_of_masked h rfl⟩, fun h => ⟨.tsld (fieldRd w), encR1_of_masked h rfl⟩,
    fun h => ⟨.tsrd (fieldRd w), encR1_of_masked h rfl⟩,
    fun h => ⟨.tsmov (fieldRd w) (fieldRa w), encR2_of_masked h rfl⟩,
    fun h => ⟨.tscaptx (fieldRd w), encR1_of_masked h rfl⟩, fun h => ⟨.tscaprx (fieldRd w), encR1_of_masked h rfl⟩,
    fun h => ⟨.tsadd (fieldRd w) (fieldRa w) (fieldRb w), encR3_of_masked h rfl⟩,
    fun h => ⟨.tssub (fieldRd w) (fieldRa w) (fieldRb w), encR3_of_masked h rfl⟩,
    fun h => ⟨.tssub32 (fieldRd w) (fieldRa w) (fieldRb w), encR3_of_masked h rfl⟩,
    fun h => ⟨.tslo32 (fieldRd w) (fieldRa w), encR2_of_masked h rfl⟩,
    fun h => ⟨.tsalign (fieldRd w) (fieldRa w), encR2_of_masked h rfl⟩,
    fun h => ⟨.tssched (fieldRd w) (fieldRa w) (fieldRb w), encR3_of_masked h rfl⟩,
    fun h => ⟨.tscmp (fieldRa w) (fieldRb w), encRC_of_masked h rfl⟩,
    fun h => ⟨.tscmp32 (fieldRa w) (fieldRb w), encRC_of_masked h rfl⟩, fun h => ⟨.tofss, encN_of_masked h rfl⟩,
    fun h => ⟨.tofds, encN_of_masked h rfl⟩, fun h => ⟨.tofrd, encN_of_masked h rfl⟩,
    fun h => ⟨.fenc (fieldKind w), encK_of_masked h rfl⟩, fun h => ⟨.fdec (fieldKind w), encK_of_masked h rfl⟩,
    fun h => ⟨.fput32 (fieldRd w) (fieldOff w), encFO_of_masked h rfl⟩,
    fun h => ⟨.fget32 (fieldRd w) (fieldOff w), encFO_of_masked h rfl⟩,
    fun h => ⟨.fbwr (fieldOff w), encO_of_masked h rfl⟩, fun h => ⟨.fbrd (fieldOff w), encO_of_masked h rfl⟩,
    fun h => ⟨.flenw, encN_of_masked h rfl⟩, fun h => ⟨.flenr, encN_of_masked h rfl⟩,
    fun h => ⟨.stskey, encN_of_masked h rfl⟩, fun h => ⟨.stsiv, encN_of_masked h rfl⟩,
    fun h => ⟨.stsbegin, encN_of_masked h rfl⟩, fun h => ⟨.stschk, encN_of_masked h rfl⟩,
    fun h => ⟨.stsresync, encN_of_masked h rfl⟩, fun h => ⟨.stslock, encN_of_masked h rfl⟩,
    fun h => ⟨.stsunlock, encN_of_masked h rfl⟩, fun h => ⟨.xstart, encN_of_masked h rfl⟩,
    fun h => ⟨.xclr, encN_of_masked h rfl⟩, fun h => ⟨.cfgw (fieldIdx w), encC_of_masked h rfl⟩,
    fun h => ⟨.cfgr (fieldIdx w), encC_of_masked h rfl⟩, fun h => ⟨.aesnonce, encN_of_masked h rfl⟩,
    fun h => ⟨.aeslen, encN_of_masked h rfl⟩, fun h => ⟨.aescls, encN_of_masked h rfl⟩,
    fun h => ⟨.aesprot, encN_of_masked h rfl⟩, by simp⟩

/-- A word that passes its arm's check matches the row of that arm's mask and opcode. -/
theorem matches_of_checked {w m : CmdWord} {i j : Instr} {n : Nat} (hop : (opcode w).toNat = n)
    (hrow : (commandRows true).contains (m, BitVec.ofNat 32 n <<< 24) = true) (h : checked w m j = .ok i) :
    ∃ r ∈ commandRows true, w &&& r.1 = r.2 := by
  unfold checked at h
  split at h
  · rename_i hm
    exact ⟨_, List.contains_iff_mem.mp hrow, hm.trans (by rw [← hop, BitVec.ofNat_toNat])⟩
  · cases h

/-- The decoder has an arm for no opcode outside the table, and each arm has its row's mask (R83). -/
theorem row_of_decodeCommand {w : CmdWord} {i : Instr} (h : decodeCommand w = .ok i) :
    ∃ r ∈ commandRows true, w &&& r.1 = r.2 := by
  unfold decodeCommand at h
  split at h
  case h_41 => cases h
  all_goals exact matches_of_checked ‹_› (by decide) h

theorem decodeCommand_of_encode {w : CmdWord} {i : Instr} (h : encode i = .command w) : decodeCommand w = .ok i := by
  have hi := decodeOfEncode i
  rwa [h] at hi

theorem encode_of_decodeCommand {w : CmdWord} {i : Instr} (h : decodeCommand w = .ok i) :
    encode i = .command w := by
  obtain ⟨r, hr, hm⟩ := row_of_decodeCommand h
  obtain ⟨j, hj⟩ := encode_of_row w r hr hm
  cases h.symm.trans (decodeCommand_of_encode hj)
  exact hj

/-- Settles O2: a command word that decodes matches a row and so is the word of an instruction, which O1 says is the
one decoded; an event word is one of the four. -/
theorem encodeOfDecode : Obligations.EncodeOfDecode := by
  intro p i h
  cases p with
  | command w => exact encode_of_decodeCommand h
  | event ev =>
    rcases Machine.decodeEvent_cases h with ⟨rfl, rfl⟩ | ⟨rfl, rfl⟩ | ⟨rfl, rfl⟩ | ⟨rfl, rfl⟩ <;> rfl

/-- The command words that decode, read off the table (R82, R83). -/
theorem decodeCommand_iff_row (w : CmdWord) :
    (∃ i, decodeCommand w = .ok i) ↔ ∃ r ∈ commandRows true, w &&& r.1 = r.2 := by
  refine ⟨fun ⟨_, h⟩ => row_of_decodeCommand h, fun ⟨r, hr, hm⟩ => ?_⟩
  obtain ⟨i, hi⟩ := encode_of_row w r hr hm
  exact ⟨i, decodeCommand_of_encode hi⟩

/-- The opcode byte of a row's match. -/
def rowOpcode (r : CmdWord × CmdWord) : BitVec 8 := opcode r.2

/-- Every mask covers the opcode, so a word has the opcode of the row that it matches. -/
theorem opcode_of_row {w : CmdWord} {r : CmdWord × CmdWord} (hr : r ∈ commandRows true) (h : w &&& r.1 = r.2) :
    opcode w = rowOpcode r := by
  have covered : (commandRows true).all (fun r => opcode r.1 = BitVec.allOnes 8) = true := by decide
  have hmask : opcode r.1 = BitVec.allOnes 8 := by simpa using List.all_eq_true.mp covered r hr
  rw [rowOpcode, ← h, opcode, opcode, BitVec.extractLsb'_and, ← opcode, ← opcode, hmask, BitVec.and_allOnes]

/-- No two rows have the same opcode (R83). -/
theorem rowOpcode_injective {r q : CmdWord × CmdWord} (hr : r ∈ commandRows true) (hq : q ∈ commandRows true)
    (h : rowOpcode r = rowOpcode q) : r = q := by
  have nodup : ((commandRows true).map rowOpcode).Nodup := by decide
  exact List.inj_on_of_nodup_map nodup hr hq h

/-- Settles O3: decoding follows the rows, and two rows that a word matches share its opcode. -/
theorem decodedWordsMatchTheTable : Obligations.DecodedWordsMatchTheTable :=
  ⟨decodeCommand_iff_row, fun _ _ hr _ hq h h' =>
    rowOpcode_injective hr hq ((opcode_of_row hr h).symm.trans (opcode_of_row hq h'))⟩

/-- Settles O4: each word is run through the decoder, and the sixteen event answers are checked one by one. -/
theorem writtenOutWordsDecode : Obligations.WrittenOutWordsDecode :=
  ⟨rfl, rfl, rfl, rfl, rfl, rfl, rfl, rfl, rfl, rfl, rfl, rfl, by decide⟩

end Sys2Proof
end

section
/-! PROOF. Commands that are refused, commands that only read, and the one answer of each (spec/30_encoding.md R80,
R91 to R93, R96). -/

namespace Sys2Proof.Machine

/-! ## Illegal words -/

/-- A word that encodes nothing is answered ERR_ILLEGAL (R96). -/
theorem step_of_decodeCommand_error {s : State} {w : CmdWord} {o : Datum} {a : HalAnswers} {rest : List Input}
    {e : DecodeError} (hin : s.inputs = .command w o a :: rest) (hdec : decodeCommand w = .error e) :
    step s = .next ((s.latch o a rest).answered .errIllegal 0) := by
  simp only [step, fetch, hin, hdec, illegalWord, reply_zero]

/-- A command of the AES unit is answered ERR_ILLEGAL where the unit is absent (R93 (1)). -/
theorem exec_aes_absent {s : State} {i : Instr} (hi : i ∈ [Instr.aesnonce, .aeslen, .aescls, .aesprot])
    (h : s.hasAes = false) : exec i s = .next (s.answered .errIllegal 0) := by
  simp only [List.mem_cons, List.not_mem_nil, or_false] at hi
  rcases hi with rfl | rfl | rfl | rfl <;> exact withAes_absent h

/-- A word that decodes, but matches no row that is there without the unit, is one of the unit's commands. -/
theorem aes_of_unlisted {w : CmdWord} {i : Instr} (hdec : decodeCommand w = .ok i)
    (hno : ∀ r ∈ commandRows false, w &&& r.1 ≠ r.2) : i ∈ [Instr.aesnonce, .aeslen, .aescls, .aesprot] := by
  obtain ⟨r, hr, hm⟩ := row_of_decodeCommand hdec
  have rows : commandRows true = commandRows false ++
      [0x60000000, 0x61000000, 0x62000000, 0x63000000].map fun v : CmdWord => (maskN, v) := rfl
  rw [rows] at hr
  rcases List.mem_append.mp hr with hr | hr
  · exact absurd hm (hno r hr)
  · obtain ⟨v, hv, rfl⟩ := List.mem_map.mp hr
    have hw : w = v := BitVec.and_allOnes.symm.trans hm
    subst hw
    simp only [List.mem_cons, List.not_mem_nil, or_false] at hv
    rcases hv with rfl | rfl | rfl | rfl <;> cases hdec <;> simp

/-- Settles O6: a word outside the table does not decode, or decodes to a command of the absent unit. -/
theorem illegalWordsAreRefused : Obligations.IllegalWordsAreRefused := by
  intro s w o a rest hin hno
  cases hdec : decodeCommand w with
  | error e => exact step_of_decodeCommand_error hin hdec
  | ok i =>
    rcases Bool.eq_false_or_eq_true s.hasAes with haes | haes
    · obtain ⟨r, hr, hm⟩ := row_of_decodeCommand hdec
      exact absurd hm (hno r (haes ▸ hr))
    · rw [step_of_fetch_run (fetch_of_decodeCommand hin hdec)]
      exact exec_aes_absent (s := s.latch o a rest) (aes_of_unlisted hdec (haes ▸ hno)) haes

/-! ## CFGW refused -/

/-- An index that names no register here, or a read-only one (R274). -/
theorem exec_cfgw_illegal {s : State} {idx : BitVec 8} (h : ∀ r, s.regAt idx = some r → regClass r = .ro) :
    exec (.cfgw idx) s = .next (s.answered .errIllegal 0) := by
  cases hat : s.regAt idx with
  | none => simp only [exec, execCfgw, hat, reply_zero]
  | some r => simp only [exec, execCfgw, hat, h r hat, reply_zero]

theorem exec_cfgw_busy {s : State} {idx : BitVec 8} {r : CfgReg} (hat : s.regAt idx = some r)
    (hro : regClass r ≠ .ro) (ha : s.state.isActive = true) :
    exec (.cfgw idx) s = .next (s.answered .errBusy 0) := by
  simp only [exec, execCfgw, hat]
  cases hc : regClass r with
  | ro => exact absurd hc hro
  | cfg => exact admitIdle_active ha
  | opd => exact admitWrite_active ha

theorem exec_cfgw_cfg {s : State} {idx : BitVec 8} {r : CfgReg} (hat : s.regAt idx = some r)
    (hc : regClass r = .cfg) :
    exec (.cfgw idx) s =
      admitIdle s (if s.session then reply s .errLocked 0 else reply (s.writeReg r) .ok 0) := by
  simp only [exec, execCfgw, hat, hc]

/-- Settles O37: the map says which indexes name a writable register; the class then gives the order of R93. -/
theorem cfgwRefusals : Obligations.CfgwRefusals := by
  intro idx s
  refine ⟨fun h => exec_cfgw_illegal fun r hr => ?_, fun bits isCfg hmem haes => ?_⟩
  · obtain ⟨hidx, hhas⟩ := regAt_some.mp hr
    rcases h with hnot | ⟨hi, hno⟩
    · by_contra hro
      exact hnot (List.mem_map.mpr ⟨_, mem_writableRegisters.mpr ⟨r, hidx, hro, rfl, rfl⟩, rfl⟩)
    · exact absurd (hhas ((aesIndex_iff hidx).mp hi)) (by simp [hno])
  · obtain ⟨r, hidx, hro, rfl, rfl⟩ := mem_writableRegisters.mp hmem
    have hat : s.regAt idx = some r := regAt_some.mpr ⟨hidx, fun h => haes ((aesIndex_iff hidx).mpr h)⟩
    refine ⟨exec_cfgw_busy hat hro, fun hc ht => ?_, fun hc hidle hses => ?_⟩
    · rw [exec_cfgw_cfg hat (by simpa using hc), admitIdle_terminal ht]
    · rw [exec_cfgw_cfg hat (by simpa using hc), admitIdle_idle hidle, if_pos hses, reply_zero]

/-! ## Commands of an active state -/

theorem writable_of_wellFormed {idx : BitVec 8} (h : (Instr.cfgw idx).wellFormed = true) :
    ∃ r, regOf idx = some r ∧ regClass r ≠ .ro := by
  simp only [Instr.wellFormed] at h
  cases hidx : regOf idx with
  | none => simp [hidx] at h
  | some r => exact ⟨r, rfl, by simpa [hidx] using h⟩

/-- Settles O55: every class but the read class is refused first for the active state. -/
theorem activeExchangesAreUndisturbed : Obligations.ActiveExchangesAreUndisturbed := by
  intro i s ha hev hread hwf haes
  cases i with
  | tsld | tsmov | tscaptx | tscaprx | tsadd | tssub | tssub32 | tslo32 | tsalign | tssched | tofss | tofds | fenc
  | fdec | fput32 | fget32 | fbwr | flenw | stsbegin | stschk | stsresync | stslock | stsunlock =>
    exact admitWrite_active ha
  | stskey | stsiv | xstart => exact admitIdle_active ha
  | xclr => exact admitTerminal_active ha
  | cfgw idx =>
    obtain ⟨r, hidx, hro⟩ := writable_of_wellFormed hwf
    exact exec_cfgw_busy (regAt_some.mpr ⟨hidx, fun h => haes (.inr ⟨idx, rfl, (aesIndex_iff hidx).mpr h⟩)⟩) hro ha
  | aesprot => exact (withAes_present (haes (.inl rfl))).trans (admitWrite_active ha)
  | nop | tsrd | tscmp | tscmp32 | tofrd | fbrd | flenr | cfgr | aesnonce | aeslen | aescls => cases hread
  | evGood | evRxErr | evRxTo | evTxDone => cases hev

/-! ## One answer -/

/-- The result is one response, given in a state and with a status that have the property. -/
def Result.Answers (P : State → Status → Prop) (r : Result) : Prop := ∃ u st d, P u st ∧ r = reply u st d

section
variable {P : State → Status → Prop} {s u : State} {k : Result}

theorem answers_reply {st : Status} (h : P u st) (d : Datum) : Result.Answers P (reply u st d) := ⟨u, st, d, h, rfl⟩

theorem answers_ite {c : Prop} [Decidable c] {k₁ k₂ : Result} (h₁ : c → Result.Answers P k₁)
    (h₂ : ¬ c → Result.Answers P k₂) : Result.Answers P (if c then k₁ else k₂) := by
  split
  · exact h₁ ‹_›
  · exact h₂ ‹_›

theorem answers_admitWrite (hr : P s .errBusy) (hk : Result.Answers P k) : Result.Answers P (admitWrite s k) :=
  answers_ite (fun _ => answers_reply hr 0) fun _ => hk

theorem answers_admitIdle (hb : P s .errBusy) (hs : P s .errState) (hk : Result.Answers P k) :
    Result.Answers P (admitIdle s k) :=
  answers_ite (fun _ => answers_reply hb 0) fun _ => answers_ite (fun _ => answers_reply hs 0) fun _ => hk

theorem answers_admitTerminal (hb : P s .errBusy) (hs : P s .errState) (hk : Result.Answers P k) :
    Result.Answers P (admitTerminal s k) :=
  answers_ite (fun _ => answers_reply hb 0) fun _ => answers_ite (fun _ => hk) fun _ => answers_reply hs 0

theorem answers_withSource {r : RegNum} {f : Timestamp → Result} (hr : P s .errUnwritten)
    (hk : ∀ v, Result.Answers P (f v)) : Result.Answers P (withSource s r f) :=
  answers_ite (fun _ => hk _) fun _ => answers_reply hr _

theorem answers_withWritten {rs : List RegNum} (hr : P s .errUnwritten) (hk : Result.Answers P k) :
    Result.Answers P (withWritten s rs k) := by
  unfold withWritten
  split
  · exact answers_reply hr _
  · exact hk

theorem answers_withSpan {off : BitVec 8} {n : Nat} (hr : P s .errRange) (hk : Result.Answers P k) :
    Result.Answers P (withSpan s off n k) :=
  answers_ite (fun _ => hk) fun _ => answers_reply hr 0

theorem answers_withAes (hr : P s .errIllegal) (hk : Result.Answers P k) : Result.Answers P (withAes s k) :=
  answers_ite (fun _ => hk) fun _ => answers_reply hr 0

theorem answers_replyClassified {st : BitVec 8} (hok : P u .ok) (hl : P u .lengthError) (hc : P u .cryptoError) :
    Result.Answers P (replyClassified u st) :=
  answers_ite (fun _ => answers_reply hl _) fun _ =>
    answers_ite (fun _ => answers_reply hc _) fun _ => answers_reply hok 0

end

/-! ## The read class -/

/-- A read-class answer: the state is as it was, and the status is none of admission. -/
def ReadAnswer (s u : State) (st : Status) : Prop := u = s ∧ st ≠ .errBusy ∧ st ≠ .errState

theorem readAnswer (s : State) {st : Status} (hb : st ≠ .errBusy := by decide) (hs : st ≠ .errState := by decide) :
    ReadAnswer s s st := ⟨rfl, hb, hs⟩

theorem tsVerdict_reads (f : Timestamp → Timestamp → BitVec 4) (ra rb : RegNum) (s : State) :
    Result.Answers (ReadAnswer s) (tsVerdict f ra rb s) :=
  answers_withSource (readAnswer s) fun _ => answers_withSource (readAnswer s) fun _ => answers_reply (readAnswer s) _

theorem execTofrd_reads (s : State) : Result.Answers (ReadAnswer s) (execTofrd s) :=
  answers_ite (fun _ => answers_reply (readAnswer s) _) fun _ =>
    answers_ite (fun _ => answers_reply (readAnswer s) _) fun _ => answers_reply (readAnswer s) _

theorem execCfgr_reads (idx : BitVec 8) (s : State) : Result.Answers (ReadAnswer s) (execCfgr idx s) := by
  unfold execCfgr
  split <;> exact answers_reply (readAnswer s) _

theorem execAeslen_reads (s : State) : Result.Answers (ReadAnswer s) (execAeslen s) :=
  answers_withAes (readAnswer s) <|
    answers_ite (fun _ => answers_reply (readAnswer s) _) fun _ => answers_reply (readAnswer s) _

/-- Every read-class command, by its meaning. -/
theorem exec_read {i : Instr} (s : State) (hi : isReadClass i = true) :
    Result.Answers (ReadAnswer s) (exec i s) := by
  have ok : ReadAnswer s s .ok := readAnswer s
  cases i with
  | nop | flenr => exact answers_reply ok _
  | tsrd rs => exact answers_withSource (readAnswer s) fun _ => answers_reply ok _
  | tscmp ra rb => exact tsVerdict_reads (fun a b => compareVerdict (a - b)) ra rb s
  | tscmp32 ra rb => exact tsVerdict_reads (fun a b => compareVerdict (delta32 a b)) ra rb s
  | tofrd => exact execTofrd_reads s
  | fbrd off => exact answers_withSpan (readAnswer s) (answers_reply ok _)
  | cfgr idx => exact execCfgr_reads idx s
  | aesnonce => exact answers_withAes (readAnswer s) (answers_reply ok _)
  | aeslen => exact execAeslen_reads s
  | aescls =>
    exact answers_withAes (readAnswer s) (answers_replyClassified ok (readAnswer s) (readAnswer s))
  | _ => cases hi

/-- Settles O54: a read-class answer is given in the state as it was. -/
theorem readClassChangesNothing : Obligations.ReadClassChangesNothing := by
  refine ⟨fun s => reply_zero s .ok, fun i s hi => ?_⟩
  obtain ⟨u, st, d, ⟨rfl, hbusy, hstate⟩, he⟩ := exec_read s hi
  exact ⟨st, d, hbusy, hstate, he⟩

/-! ## Every command -/

/-- The state that a command answers in, and its status: a refusal comes before anything is written, but for FDEC's
cleared byte and AESPROT's job (R91, R160, R264). -/
structure CommandAnswer (i : Instr) (s u : State) (st : Status) : Prop where
  responses : u.responses = s.responses
  state : i ≠ .xstart → i ≠ .xclr → u.state = s.state
  refused : st ≠ .ok → u = s ∨ (∃ k, i = .fdec k) ∧ st = .mismatch ∧ u = s.clearSeqByte ∨
    i = .aesprot ∧ (st = .lengthError ∨ st = .cryptoError) ∧ u = s.call (.doAes s.aes.job)

section
variable {i : Instr} {s u : State} {k : Result}

/-- An answer in the state as it was. -/
theorem CommandAnswer.unchanged (st : Status) : CommandAnswer i s s st := ⟨rfl, fun _ _ => rfl, fun _ => .inl rfl⟩

theorem CommandAnswer.ok (hr : u.responses = s.responses) (hs : u.state = s.state) : CommandAnswer i s u .ok :=
  ⟨hr, fun _ _ => hs, fun h => absurd rfl h⟩

theorem answers_unchanged (st : Status) (d : Datum) : Result.Answers (CommandAnswer i s) (reply s st d) :=
  answers_reply (.unchanged st) d

theorem answers_ok {d : Datum} (hr : u.responses = s.responses) (hs : u.state = s.state) :
    Result.Answers (CommandAnswer i s) (reply u .ok d) :=
  answers_reply (.ok hr hs) d

theorem answers_write (hk : Result.Answers (CommandAnswer i s) k) :
    Result.Answers (CommandAnswer i s) (admitWrite s k) :=
  answers_admitWrite (.unchanged _) hk

theorem answers_idle (hk : Result.Answers (CommandAnswer i s) k) :
    Result.Answers (CommandAnswer i s) (admitIdle s k) :=
  answers_admitIdle (.unchanged _) (.unchanged _) hk

end

theorem tsUnary_answers {i : Instr} (f : Timestamp → Timestamp) (rd ra : RegNum) (s : State) :
    Result.Answers (CommandAnswer i s) (tsUnary f rd ra s) :=
  answers_write <| answers_withSource (.unchanged _) fun _ => answers_ok rfl rfl

theorem tsBinary_answers {i : Instr} (f : Timestamp → Timestamp → Timestamp) (rd ra rb : RegNum) (s : State) :
    Result.Answers (CommandAnswer i s) (tsBinary f rd ra rb s) :=
  answers_write <| answers_withSource (.unchanged _) fun _ =>
    answers_withSource (.unchanged _) fun _ => answers_ok rfl rfl

theorem replyEstimate_answers {i : Instr} (s : State) (e : Estimate) :
    Result.Answers (CommandAnswer i s) (replyEstimate s e) := by
  cases e with
  | tof q => exact answers_ok rfl rfl
  | degenerate | badK => exact answers_unchanged _ _

theorem execFenc_answers (k : FrameKind) (s : State) :
    Result.Answers (CommandAnswer (.fenc k) s) (execFenc k s) :=
  answers_write <| answers_ite (fun _ => answers_unchanged _ _) fun _ =>
    answers_withWritten (.unchanged _) <| answers_ite (fun _ => answers_unchanged _ _) fun _ => answers_ok rfl rfl

/-- FDEC with a differing header has cleared byte 2 of the buffer (R160). -/
theorem execFdec_answers (k : FrameKind) (s : State) :
    Result.Answers (CommandAnswer (.fdec k) s) (execFdec k s) := by
  refine answers_write <| answers_ite (fun _ => answers_unchanged _ _) fun _ => ?_
  rcases decodeFrame_shape s k with hd | hd | hd <;> rw [hd]
  · exact answers_unchanged _ _
  · exact answers_reply ⟨rfl, fun _ _ => rfl, fun _ => .inr (.inl ⟨⟨k, rfl⟩, rfl, rfl⟩)⟩ _
  · exact answers_ok (by simp) (by simp)

theorem stsLoad_answers {i : Instr} {s t : State} (hr : t.responses = s.responses) (hs : t.state = s.state) :
    Result.Answers (CommandAnswer i s) (stsLoad s t) :=
  answers_idle <| answers_ite (fun _ => answers_unchanged _ _) fun _ => answers_ok hr hs

theorem execStsbegin_answers (s : State) : Result.Answers (CommandAnswer .stsbegin s) (execStsbegin s) :=
  answers_write <| answers_ite (fun _ => answers_unchanged _ _) fun _ =>
    answers_ite (fun _ => answers_unchanged _ _) fun _ => answers_ok (by simp) (by simp)

theorem execXstart_answers (s : State) : Result.Answers (CommandAnswer .xstart s) (execXstart s) :=
  answers_idle <| answers_ite (fun _ => answers_unchanged _ _) fun _ =>
    answers_ite
      (fun _ => answers_reply ⟨by simp [State.startResponder], fun h => absurd rfl h, fun h => absurd rfl h⟩ _)
      fun _ => answers_reply ⟨by simp [State.startInitiator], fun h => absurd rfl h, fun h => absurd rfl h⟩ _

theorem execXclr_answers (s : State) : Result.Answers (CommandAnswer .xclr s) (execXclr s) :=
  answers_admitTerminal (.unchanged _) (.unchanged _) <|
    answers_reply ⟨rfl, fun _ h => absurd rfl h, fun h => absurd rfl h⟩ _

theorem writeReg_answers {i : Instr} (s : State) (r : CfgReg) :
    Result.Answers (CommandAnswer i s) (reply (s.writeReg r) .ok 0) := by
  rw [writeReg_frame]
  exact answers_ok rfl rfl

theorem execCfgw_answers (idx : BitVec 8) (s : State) :
    Result.Answers (CommandAnswer (.cfgw idx) s) (execCfgw idx s) := by
  unfold execCfgw
  split
  · exact answers_unchanged _ _
  · split
    · exact answers_unchanged _ _
    · exact answers_idle <| answers_ite (fun _ => answers_unchanged _ _) fun _ => writeReg_answers s _
    · exact answers_write (writeReg_answers s _)

/-- AESPROT checks the length before it hands over the job, and classifies the answer after (R264). -/
theorem execAesprot_answers (s : State) : Result.Answers (CommandAnswer .aesprot s) (execAesprot s) := by
  refine answers_withAes (.unchanged _) <| answers_write <| answers_ite (fun _ => answers_unchanged _ _) fun _ => ?_
  have handed : ∀ st : Status, st = .lengthError ∨ st = .cryptoError →
      CommandAnswer .aesprot s (s.call (.doAes s.aes.job)) st :=
    fun _ hst => ⟨rfl, fun _ _ => rfl, fun _ => .inr (.inr ⟨rfl, hst, rfl⟩)⟩
  exact answers_replyClassified (.ok rfl rfl) (handed _ (.inl rfl)) (handed _ (.inr rfl))

/-- A read-class command answers in the state as it was. -/
theorem answers_of_read {i : Instr} {s : State} (hi : isReadClass i = true) :
    Result.Answers (CommandAnswer i s) (exec i s) := by
  obtain ⟨u, st, d, ⟨rfl, -⟩, he⟩ := exec_read s hi
  exact ⟨u, st, d, .unchanged st, he⟩

/-- Every host command, by its meaning. -/
theorem exec_command_answers {i : Instr} (s : State) (hi : isEventWord i = false) :
    Result.Answers (CommandAnswer i s) (exec i s) := by
  cases i with
  | nop | tsrd | tscmp | tscmp32 | tofrd | fbrd | flenr | cfgr | aesnonce | aeslen | aescls =>
    exact answers_of_read rfl
  | tsld | tscaptx | tscaprx | stschk | stslock | stsunlock => exact answers_write (answers_ok rfl rfl)
  | tsmov rd ra | tslo32 rd ra | tsalign rd ra => exact tsUnary_answers _ rd ra s
  | tsadd rd ra rb | tssub rd ra rb | tssub32 rd ra rb | tssched rd ra rb => exact tsBinary_answers _ rd ra rb s
  | tofss | tofds => exact answers_write <| answers_withWritten (.unchanged _) (replyEstimate_answers s _)
  | fenc k => exact execFenc_answers k s
  | fdec k => exact execFdec_answers k s
  | fput32 rs off =>
    exact answers_write <| answers_withSpan (.unchanged _) <|
      answers_withSource (.unchanged _) fun _ => answers_ok rfl rfl
  | fget32 rd off | fbwr off => exact answers_write <| answers_withSpan (.unchanged _) (answers_ok rfl rfl)
  | flenw => exact answers_write <| answers_ite (fun _ => answers_unchanged _ _) fun _ => answers_ok rfl rfl
  | stskey | stsiv => exact stsLoad_answers rfl rfl
  | stsbegin => exact execStsbegin_answers s
  | stsresync => exact answers_write (answers_ok (State.resync_responses s) (State.resync_state s))
  | xstart => exact execXstart_answers s
  | xclr => exact execXclr_answers s
  | cfgw idx => exact execCfgw_answers idx s
  | aesprot => exact execAesprot_answers s
  | evGood | evRxErr | evRxTo | evTxDone => cases hi

/-- Settles O53: the one response is appended to the state that the command answers in. -/
theorem everyCommandIsAnsweredOnce : Obligations.EveryCommandIsAnsweredOnce := by
  intro i s hi
  obtain ⟨u, st, d, ⟨hresp, hstate, hrefused⟩, he⟩ := exec_command_answers s hi
  refine ⟨u.respond st d, st, d, he, by simp [State.respond, hresp], hstate, fun hst => ?_⟩
  rcases hrefused hst with rfl | ⟨hk, rfl, rfl⟩ | ⟨ha, hc, rfl⟩
  · exact .inl rfl
  · exact .inr (.inl ⟨hk, rfl, rfl⟩)
  · exact .inr (.inr ⟨ha, hc, rfl⟩)

end Sys2Proof.Machine
end

section
/-! PROOF. The timestamp unit: what each shape of command answers, the comparisons and differences as numbers, and as
the order and the distance of two instants of an unbounded device time (spec/40_timestamp_unit.md R111 to R125). -/

namespace Sys2Proof.Machine

section
variable {s : State} {rd ra rb : RegNum}

/-! ## Loads and captures -/

theorem exec_tsld_admitted (hs : s.state.isActive = false) :
    exec (.tsld rd) s = .next (s.wroteT rd s.opnd.toNat) := by
  rw [exec, execTsld, admitWrite_inactive hs, reply_setT, State.opndLow_toNat,
    State.wroteT_congr _ _ (Nat.mod_mod _ _)]

/-- A capture makes its call and writes the low 40 bits of the answer (R99, R115, R116). -/
theorem tsCapture_admitted (which : TxRx) (hs : s.state.isActive = false) :
    tsCapture which rd s =
      .next { s.wroteT rd s.ans.timestamp.toNat with calls := s.calls ++ [.readTimestamp which] } := by
  rw [tsCapture, admitWrite_inactive hs, reply_setT, State.answerTime, BitVec.toNat_setWidth,
    State.wroteT_congr _ _ (Nat.mod_mod _ _)]
  rfl

/-! ## Commands of one source -/

theorem tsUnary_written (f : Timestamp → Timestamp) (hs : s.state.isActive = false) (ha : s.tsw[ra] = true) :
    tsUnary f rd ra s = .next (s.wroteT rd (f s.ts[ra]).toNat) := by
  rw [tsUnary, admitWrite_inactive hs, withSource_written ha, reply_setT]

theorem tsUnary_unwritten (f : Timestamp → Timestamp) (hs : s.state.isActive = false) (ha : s.tsw[ra] = false) :
    tsUnary f rd ra s = .next (s.answered .errUnwritten ra) := by
  rw [tsUnary, admitWrite_inactive hs, withSource_unwritten ha]

theorem exec_eq_tsUnary {i : Instr} (hi : i ∈ [Instr.tsmov rd ra, .tslo32 rd ra, .tsalign rd ra]) (s : State) :
    ∃ f, exec i s = tsUnary f rd ra s := by
  simp only [List.mem_cons, List.not_mem_nil, or_false] at hi
  obtain rfl | rfl | rfl := hi <;> exact ⟨_, rfl⟩

theorem exec_tsmov_written (hs : s.state.isActive = false) (ha : s.tsw[ra] = true) :
    exec (.tsmov rd ra) s = .next (s.wroteT rd s.ts[ra].toNat) :=
  tsUnary_written _ hs ha

theorem exec_tslo32_written (hs : s.state.isActive = false) (ha : s.tsw[ra] = true) :
    exec (.tslo32 rd ra) s = .next (s.wroteT rd (s.ts[ra].toNat % 2 ^ 32)) := by
  have h : exec (.tslo32 rd ra) s = _ := tsUnary_written (fun a => (lo32 a).setWidth 40) hs ha
  rw [h, BitVec.toNat_setWidth_of_le (by decide), lo32_toNat]

theorem exec_tsalign_written (hs : s.state.isActive = false) (ha : s.tsw[ra] = true) :
    exec (.tsalign rd ra) s = .next (s.wroteT rd (s.ts[ra].toNat - s.ts[ra].toNat % 512)) := by
  have h : exec (.tsalign rd ra) s = _ := tsUnary_written align512 hs ha
  rw [h, align512_toNat, ← Nat.div_mul_self_eq_mod_sub_self]

/-! ## Commands of two sources -/

theorem tsBinary_written (f : Timestamp → Timestamp → Timestamp) (hs : s.state.isActive = false)
    (ha : s.tsw[ra] = true) (hb : s.tsw[rb] = true) :
    tsBinary f rd ra rb s = .next (s.wroteT rd (f s.ts[ra] s.ts[rb]).toNat) := by
  rw [tsBinary, admitWrite_inactive hs, withSource_written ha, withSource_written hb, reply_setT]

theorem tsBinary_first_unwritten (f : Timestamp → Timestamp → Timestamp) (hs : s.state.isActive = false)
    (ha : s.tsw[ra] = false) : tsBinary f rd ra rb s = .next (s.answered .errUnwritten ra) := by
  rw [tsBinary, admitWrite_inactive hs, withSource_unwritten ha]

theorem tsBinary_second_unwritten (f : Timestamp → Timestamp → Timestamp) (hs : s.state.isActive = false)
    (ha : s.tsw[ra] = true) (hb : s.tsw[rb] = false) :
    tsBinary f rd ra rb s = .next (s.answered .errUnwritten rb) := by
  rw [tsBinary, admitWrite_inactive hs, withSource_written ha, withSource_unwritten hb]

theorem exec_eq_tsBinary {i : Instr}
    (hi : i ∈ [Instr.tsadd rd ra rb, .tssub rd ra rb, .tssub32 rd ra rb, .tssched rd ra rb]) (s : State) :
    ∃ f, exec i s = tsBinary f rd ra rb s := by
  simp only [List.mem_cons, List.not_mem_nil, or_false] at hi
  obtain rfl | rfl | rfl | rfl := hi <;> exact ⟨_, rfl⟩

theorem exec_tsadd_written (hs : s.state.isActive = false) (ha : s.tsw[ra] = true) (hb : s.tsw[rb] = true) :
    exec (.tsadd rd ra rb) s = .next (s.wroteT rd (s.ts[ra] + s.ts[rb]).toNat) :=
  tsBinary_written _ hs ha hb

theorem exec_tssub_written (hs : s.state.isActive = false) (ha : s.tsw[ra] = true) (hb : s.tsw[rb] = true) :
    exec (.tssub rd ra rb) s = .next (s.wroteT rd (s.ts[ra] - s.ts[rb]).toNat) :=
  tsBinary_written _ hs ha hb

/-- The zero extension to the register's width keeps the delta (R119). -/
theorem exec_tssub32_written (hs : s.state.isActive = false) (ha : s.tsw[ra] = true) (hb : s.tsw[rb] = true) :
    exec (.tssub32 rd ra rb) s = .next (s.wroteT rd (delta32 s.ts[ra] s.ts[rb]).toNat) := by
  have h : exec (.tssub32 rd ra rb) s = _ := tsBinary_written (fun a b => (delta32 a b).setWidth 40) hs ha hb
  rw [h, BitVec.toNat_setWidth_of_le (by decide)]

theorem exec_tssched_written (hs : s.state.isActive = false) (ha : s.tsw[ra] = true) (hb : s.tsw[rb] = true) :
    exec (.tssched rd ra rb) s = .next (s.wroteT rd (sched s.ts[ra] s.ts[rb]).toNat) :=
  tsBinary_written _ hs ha hb

/-! ## Comparisons -/

/-- The verdict of a modular difference, as the number that the host reads. -/
theorem tsVerdict_written {w : Nat} (d : Timestamp → Timestamp → BitVec (w + 1)) (ha : s.tsw[ra] = true)
    (hb : s.tsw[rb] = true) :
    tsVerdict (fun a b => compareVerdict (d a b)) ra rb s =
      .next (s.answered .ok (verdictNumber (d s.ts[ra] s.ts[rb]).toNat (2 ^ w))) := by
  rw [tsVerdict, withSource_written ha, withSource_written hb, reply_setWidth, compareVerdict_toNat]

theorem tsVerdict_first_unwritten (f : Timestamp → Timestamp → BitVec 4) (ha : s.tsw[ra] = false) :
    tsVerdict f ra rb s = .next (s.answered .errUnwritten ra) := by
  rw [tsVerdict, withSource_unwritten ha]

theorem tsVerdict_second_unwritten (f : Timestamp → Timestamp → BitVec 4) (ha : s.tsw[ra] = true)
    (hb : s.tsw[rb] = false) : tsVerdict f ra rb s = .next (s.answered .errUnwritten rb) := by
  rw [tsVerdict, withSource_written ha, withSource_unwritten hb]

theorem exec_eq_tsVerdict {i : Instr} (hi : i ∈ [Instr.tscmp ra rb, .tscmp32 ra rb]) (s : State) :
    ∃ f, exec i s = tsVerdict f ra rb s := by
  simp only [List.mem_cons, List.not_mem_nil, or_false] at hi
  obtain rfl | rfl := hi
  · exact ⟨fun a b => compareVerdict (a - b), rfl⟩
  · exact ⟨fun a b => compareVerdict (delta32 a b), rfl⟩

theorem exec_tscmp_written (ha : s.tsw[ra] = true) (hb : s.tsw[rb] = true) :
    exec (.tscmp ra rb) s = .next (s.answered .ok (verdictNumber (s.ts[ra] - s.ts[rb]).toNat (2 ^ 39))) :=
  tsVerdict_written (w := 39) (fun a b => a - b) ha hb

theorem exec_tscmp32_written (ha : s.tsw[ra] = true) (hb : s.tsw[rb] = true) :
    exec (.tscmp32 ra rb) s =
      .next (s.answered .ok (verdictNumber (delta32 s.ts[ra] s.ts[rb]).toNat (2 ^ 31))) :=
  tsVerdict_written (w := 31) delta32 ha hb

end

/-! ## Two instants of an unbounded device time (R125, R330) -/

/-- The modular difference of two instants is their distance, whatever wraps lie between. -/
theorem ofNat_sub_earlier (w earlier elapsed : Nat) :
    BitVec.ofNat w (earlier + elapsed) - BitVec.ofNat w earlier = BitVec.ofNat w elapsed := by
  rw [BitVec.ofNat_add, BitVec.add_comm, BitVec.add_sub_cancel]

theorem ofNat_sub_later (w earlier elapsed : Nat) :
    BitVec.ofNat w earlier - BitVec.ofNat w (earlier + elapsed) = -BitVec.ofNat w elapsed := by
  rw [← ofNat_sub_earlier w earlier elapsed, neg_sub]

theorem delta32_ofNat (m n : Nat) :
    delta32 (BitVec.ofNat 40 m) (BitVec.ofNat 40 n) = BitVec.ofNat 32 m - BitVec.ofNat 32 n := by
  rw [delta32, lo32, lo32, BitVec.setWidth_ofNat_of_le (by decide), BitVec.setWidth_ofNat_of_le (by decide)]

/-- Below half the range the verdict is GT alone. -/
theorem verdictNumber_below_half {d half : Nat} (h0 : 0 < d) (h : d < half) : verdictNumber d half = 4 := by
  simp [verdictNumber, h0, h, h0.ne', h.ne, Nat.not_le.mpr h]

/-- Above half the range the verdict is LT alone. -/
theorem verdictNumber_above_half {d half : Nat} (h : half < d) : verdictNumber d half = 2 := by
  simp [verdictNumber, h.le, h.ne', (Nat.zero_lt_of_lt h).ne', Nat.not_lt.mpr h.le]

section
variable {w earlier elapsed : Nat}

/-- The later instant against the earlier one: GT. -/
theorem verdictNumber_later (h0 : 0 < elapsed) (h : elapsed < 2 ^ w) :
    verdictNumber (BitVec.ofNat (w + 1) (earlier + elapsed) - BitVec.ofNat (w + 1) earlier).toNat (2 ^ w) = 4 := by
  rw [ofNat_sub_earlier, BitVec.toNat_ofNat, Nat.mod_eq_of_lt (by omega)]
  exact verdictNumber_below_half h0 h

/-- The earlier instant against the later one: LT, since the difference wraps to above half the range. -/
theorem verdictNumber_earlier (h0 : 0 < elapsed) (h : elapsed < 2 ^ w) :
    verdictNumber (BitVec.ofNat (w + 1) earlier - BitVec.ofNat (w + 1) (earlier + elapsed)).toNat (2 ^ w) = 2 := by
  have hwrap : (-BitVec.ofNat (w + 1) elapsed).toNat = 2 ^ (w + 1) - elapsed := by
    rw [BitVec.toNat_neg, BitVec.toNat_ofNat, Nat.mod_eq_of_lt (a := elapsed) (by omega), Nat.mod_eq_of_lt (by omega)]
  rw [ofNat_sub_later, hwrap]
  exact verdictNumber_above_half (by omega)

end

/-! ## Results -/

/-- Settles O12: each is a command of one source, and its function is read as a number. -/
theorem oneSourceCommands : Obligations.OneSourceCommands := by
  intro rd ra s
  refine ⟨fun hs ha => ⟨exec_tsmov_written hs ha, exec_tslo32_written hs ha, exec_tsalign_written hs ha⟩,
    fun i hi => ?_⟩
  obtain ⟨f, hf⟩ := exec_eq_tsUnary hi s
  rw [hf]
  exact ⟨tsUnary_unwritten f, admitWrite_active⟩

/-- Settles O13: each is a command of two sources, and its function is read as a number. -/
theorem twoSourceCommands : Obligations.TwoSourceCommands := by
  intro rd ra rb s
  refine ⟨fun hs ha hb => ⟨?_, ?_, ?_, ?_⟩, fun i hi => ?_⟩
  · rw [exec_tsadd_written hs ha hb, BitVec.toNat_add]
  · rw [exec_tssub_written hs ha hb, sub_toNat_lt]
  · rw [exec_tssub32_written hs ha hb, delta32_eq_delta]
  · rw [exec_tssched_written hs ha hb, sched_toNat]
  · obtain ⟨f, hf⟩ := exec_eq_tsBinary hi s
    rw [hf]
    exact ⟨tsBinary_first_unwritten f, tsBinary_second_unwritten f, admitWrite_active⟩

/-- Settles O14: the verdict bits of each modular difference as a number, with no admission test before. -/
theorem comparisonVerdicts : Obligations.ComparisonVerdicts := by
  intro ra rb s
  refine ⟨fun ha hb => ⟨?_, ?_⟩, fun i hi => ?_⟩
  · rw [exec_tscmp_written ha hb, sub_toNat_lt]
  · rw [exec_tscmp32_written ha hb, delta32_eq_delta]
  · obtain ⟨f, hf⟩ := exec_eq_tsVerdict hi s
    rw [hf]
    exact ⟨tsVerdict_first_unwritten f, tsVerdict_second_unwritten f⟩

/-- Settles O15: the difference one way is the distance, the other way its complement above half the range. -/
theorem comparisonGivesTheTrueOrder : Obligations.ComparisonGivesTheTrueOrder := by
  intro ra rb s earlier elapsed ha hb h0 hta htb
  refine ⟨fun h => ⟨?_, ?_⟩, fun h => ⟨?_, ?_⟩⟩
  · rw [exec_tscmp_written ha hb, hta, htb, verdictNumber_later h0 h]
  · rw [exec_tscmp_written hb ha, hta, htb, verdictNumber_earlier h0 h]
  · rw [exec_tscmp32_written ha hb, hta, htb, delta32_ofNat, verdictNumber_later h0 h]
  · rw [exec_tscmp32_written hb ha, hta, htb, delta32_ofNat, verdictNumber_earlier h0 h]

/-- Settles O16: the modular difference is the distance, modulo 2^40 and modulo 2^32. -/
theorem differencesAreElapsedTime : Obligations.DifferencesAreElapsedTime := by
  intro rd ra rb s earlier elapsed hs ha hb hta htb
  refine ⟨fun h => ?_, ?_⟩
  · rw [exec_tssub_written hs ha hb, hta, htb, ofNat_sub_earlier, BitVec.toNat_ofNat, Nat.mod_eq_of_lt h]
  · rw [exec_tssub32_written hs ha hb, hta, htb, delta32_ofNat, ofNat_sub_earlier, BitVec.toNat_ofNat]

/-- Settles O10: the three writes in an admitted state, and the refusal of a write-class command. -/
theorem loadsAndCaptures : Obligations.LoadsAndCaptures := by
  intro rd s
  refine ⟨fun hs => ⟨exec_tsld_admitted hs, tsCapture_admitted .tx hs, tsCapture_admitted .rx hs⟩,
    fun hs i hi => ?_⟩
  simp only [List.mem_cons, List.not_mem_nil, or_false] at hi
  obtain rfl | rfl | rfl := hi <;> exact admitWrite_active hs

/-- Settles O11: TSRD tests its source and nothing else. -/
theorem tsrdReadsWrittenRegisters : Obligations.TsrdReadsWrittenRegisters := by
  intro rs s
  refine ⟨fun h => ?_, fun h => ?_⟩
  · rw [exec, execTsrd, withSource_written h, reply_setWidth]
  · rw [exec, execTsrd, withSource_unwritten h]

end Sys2Proof.Machine
end

section
/-! PROOF. The time-of-flight estimator: the common shape of TOFSS and TOFDS, the two exact estimates, the integer view,
and the dependence on the deltas alone (spec/41_tof_estimator.md R141 to R148). -/

namespace Sys2Proof.Machine

/-! ## The shape of an estimating command -/

/-- What TOFSS and TOFDS share: admission, the written sources, the end of the estimate (R143, R144). -/
def estimateCommand (rs : List RegNum) (e : Estimate) (s : State) : Result :=
  admitWrite s <| withWritten s rs <| replyEstimate s e

theorem exec_tofss_eq (s : State) : exec .tofss s = estimateCommand [0, 1, 2, 3] s.estimateSingle s := rfl

theorem exec_tofds_eq (s : State) : exec .tofds s = estimateCommand [0, 1, 2, 3, 4, 5] s.estimateDouble s := rfl

section
variable {s : State} {rs : List RegNum} {e : Estimate}

theorem estimateCommand_active (hs : s.state.isActive = true) :
    estimateCommand rs e s = .next (s.answered .errBusy 0) :=
  admitWrite_active hs

theorem estimateCommand_missing {r : RegNum} (hrs : rs.Pairwise (· < ·)) (hs : s.state.isActive = false)
    (h : s.firstMissing rs r) : estimateCommand rs e s = .next (s.answered .errUnwritten r) := by
  rw [estimateCommand, admitWrite_inactive hs, withWritten_missing hrs h]

theorem estimateCommand_written (hs : s.state.isActive = false) (h : s.allWritten rs) :
    estimateCommand rs e s = replyEstimate s e := by
  rw [estimateCommand, admitWrite_inactive hs, withWritten_all h]

end

theorem replyEstimate_tof (s : State) (q : ℚ) :
    replyEstimate s (.tof q) = .next (State.answered { s with tof := q, tofValid := true } .ok 0) := rfl

theorem replyEstimate_degenerate (s : State) : replyEstimate s .degenerate = .next (s.answered .degenerate 0) := rfl

theorem replyEstimate_badK (s : State) : replyEstimate s .badK = .next (s.answered .errBadK 0) := rfl

/-! ## The estimates of the deltas -/

/-- A symmetric exchange, where both devices measure the same round trip and reply: the denominator `2 (R + D)` cancels
against `R^2 - D^2` (R148 (1)). -/
theorem symmetric_quotient {r d : Nat} (h : 0 < r + d) :
    ((r : ℚ) * r - (d : ℚ) * d) / ((r : ℚ) + r + d + d) = ((r : ℚ) - d) / 2 := by
  have hpos : (0 : ℚ) < (r : ℚ) + d := by exact_mod_cast h
  have hden : (r : ℚ) + r + d + d ≠ 0 := by linarith
  rw [div_eq_div_iff hden two_ne_zero]
  ring

section
variable {s : State}

/-- A finite ratio and a non-zero delta: the formula of R143. -/
theorem exec_tofss_estimates (hs : s.state.isActive = false) (hw : s.allWritten [0, 1, 2, 3]) (hk : ¬ nonFinite s.k)
    (hd : ¬ (s.delta 3 0 = 0 ∧ s.delta 2 1 = 0)) :
    exec .tofss s = .next (State.answered
      { s with tof := ((s.delta 3 0 : ℚ) - (s.delta 2 1 : ℚ) * (1 - ratioOfPattern s.k)) / 2, tofValid := true }
      .ok 0) := by
  rw [exec_tofss_eq, estimateCommand_written hs hw]
  obtain ⟨hk', -⟩ | ⟨-, hd', -⟩ | ⟨-, -, he⟩ := s.estimateSingle_cases
  · exact absurd hk' hk
  · exact absurd hd' hd
  · rw [he, replyEstimate_tof]

/-- A non-zero denominator: the quotient of R144. -/
theorem exec_tofds_estimates (hs : s.state.isActive = false) (hw : s.allWritten [0, 1, 2, 3, 4, 5])
    (hd : s.delta 3 0 + s.delta 5 2 + s.delta 4 3 + s.delta 2 1 ≠ 0) :
    exec .tofds s = .next (State.answered
      { s with
        tof := ((s.delta 3 0 : ℚ) * s.delta 5 2 - (s.delta 4 3 : ℚ) * s.delta 2 1) /
          ((s.delta 3 0 : ℚ) + s.delta 5 2 + s.delta 4 3 + s.delta 2 1), tofValid := true }
      .ok 0) := by
  rw [exec_tofds_eq, estimateCommand_written hs hw]
  obtain ⟨hd', -⟩ | ⟨-, he⟩ := s.estimateDouble_cases
  · exact absurd hd' hd
  · rw [he, replyEstimate_tof]

/-! ## The integer view -/

theorem exec_tofrd_invalid (h : s.tofValid = false) : exec .tofrd s = .next (s.answered .errUnwritten 0x10) := by
  rw [exec, execTofrd, if_pos h]
  rfl

theorem exec_tofrd_outside (h : s.tofValid = true) (hq : trunc0 s.tof < -2 ^ 63 ∨ 2 ^ 63 ≤ trunc0 s.tof) :
    exec .tofrd s = .next (s.answered .errRange 0) := by
  rw [exec, execTofrd, if_neg (by simp [h]), if_pos hq, reply_zero]

theorem exec_tofrd_inside (h : s.tofValid = true) (hq : -2 ^ 63 ≤ trunc0 s.tof ∧ trunc0 s.tof < 2 ^ 63) :
    exec .tofrd s = .next (s.respond .ok (BitVec.ofInt 128 (trunc0 s.tof))) := by
  rw [exec, execTofrd, if_neg (by simp [h]), if_neg (by omega), reply_def]

end

/-! ## Deltas only (R148 (2)) -/

/-- A constant added to both instants leaves their delta, whatever wraps it causes at 2^40. -/
theorem delta32_add_right (a b c : Timestamp) : delta32 (a + c) (b + c) = delta32 a b := by
  simp only [delta32, lo32, BitVec.setWidth_add _ _ (show 32 ≤ 40 by decide), add_sub_add_right_eq_sub]

section
variable (s : State) (c d : Timestamp)

/-- `Ra` is of one device, `Rb` of the other. -/
theorem estimateSingle_shifted : (s.shifted c d).estimateSingle = s.estimateSingle := by
  have hra : delta32 (s.shifted c d).ts[3] (s.shifted c d).ts[0] = _ := delta32_add_right s.ts[3] s.ts[0] c
  have hrb : delta32 (s.shifted c d).ts[2] (s.shifted c d).ts[1] = _ := delta32_add_right s.ts[2] s.ts[1] d
  simp only [State.estimateSingle, hra, hrb]
  rfl

/-- `Ra` and `Da` are of one device, `Rb` and `Db` of the other. -/
theorem estimateDouble_shifted : (s.shifted c d).estimateDouble = s.estimateDouble := by
  have hra : delta32 (s.shifted c d).ts[3] (s.shifted c d).ts[0] = _ := delta32_add_right s.ts[3] s.ts[0] c
  have hrb : delta32 (s.shifted c d).ts[5] (s.shifted c d).ts[2] = _ := delta32_add_right s.ts[5] s.ts[2] d
  have hda : delta32 (s.shifted c d).ts[4] (s.shifted c d).ts[3] = _ := delta32_add_right s.ts[4] s.ts[3] c
  have hdb : delta32 (s.shifted c d).ts[2] (s.shifted c d).ts[1] = _ := delta32_add_right s.ts[2] s.ts[1] d
  simp only [State.estimateDouble, hra, hrb, hda, hdb]

theorem firstUnwritten_shifted (rs : List RegNum) : (s.shifted c d).firstUnwritten rs = s.firstUnwritten rs := by
  induction rs with
  | nil => rfl
  | cons r rs ih =>
    rw [State.firstUnwritten, State.firstUnwritten, ih]
    rfl

end

/-- The end of an estimate carries the timestamps along. -/
theorem replyEstimate_shifted {s t : State} (c d : Timestamp) {e : Estimate} (h : replyEstimate s e = .next t) :
    replyEstimate (s.shifted c d) e = .next { t with ts := (s.shifted c d).ts } := by
  cases e <;> (obtain rfl := reply_next.mp h; rfl)

/-- With the estimate given, an estimating command reads no timestamp's value. -/
theorem estimateCommand_shifted {s t : State} (c d : Timestamp) {rs : List RegNum} {e : Estimate}
    (h : estimateCommand rs e s = .next t) :
    estimateCommand rs e (s.shifted c d) = .next { t with ts := (s.shifted c d).ts } := by
  have hst : (s.shifted c d).state = s.state := rfl
  cases ha : s.state.isActive with
  | true =>
    rw [estimateCommand_active ha, ← reply_zero] at h
    obtain rfl := reply_next.mp h
    rw [estimateCommand_active (hst ▸ ha)]
    rfl
  | false =>
    rw [estimateCommand, admitWrite_inactive ha, withWritten] at h
    rw [estimateCommand, admitWrite_inactive (hst ▸ ha), withWritten, firstUnwritten_shifted]
    cases hf : s.firstUnwritten rs with
    | none =>
      rw [hf] at h
      exact replyEstimate_shifted c d h
    | some r =>
      rw [hf] at h
      obtain rfl := reply_next.mp h
      rfl

/-! ## Results -/

/-- Settles O17: the three answers of the estimate, and the two refusals before it. -/
theorem tofssEstimates : Obligations.TofssEstimates := by
  intro s
  refine ⟨fun hs hw => ⟨fun hk => ?_, fun hk hd => ?_, exec_tofss_estimates hs hw⟩,
    fun r hs => estimateCommand_missing (by decide) hs, estimateCommand_active⟩
  · rw [exec_tofss_eq, estimateCommand_written hs hw]
    obtain ⟨-, he⟩ | ⟨hk', -⟩ | ⟨hk', -⟩ := s.estimateSingle_cases
    · rw [he, replyEstimate_badK]
    · exact absurd hk hk'
    · exact absurd hk hk'
  · rw [exec_tofss_eq, estimateCommand_written hs hw]
    obtain ⟨hk', -⟩ | ⟨-, -, he⟩ | ⟨-, hd', -⟩ := s.estimateSingle_cases
    · exact absurd hk' hk
    · rw [he, replyEstimate_degenerate]
    · exact absurd hd hd'

/-- Settles O18: the quotient is bounded because each product is at most 2^32 times one of the summands of `DEN`. -/
theorem tofdsEstimates : Obligations.TofdsEstimates := by
  intro s
  refine ⟨?_, fun r hs => estimateCommand_missing (by decide) hs, estimateCommand_active⟩
  rintro hs hw _ _ _ _ rfl rfl rfl rfl
  refine ⟨fun hd => ?_, fun hd => ⟨_, div_mul_cancel₀ _ (by exact_mod_cast hd),
    quotient_bound (s.delta_lt 3 0) (s.delta_lt 5 2) (s.delta_lt 4 3) (s.delta_lt 2 1) hd,
    exec_tofds_estimates hs hw hd⟩⟩
  rw [exec_tofds_eq, estimateCommand_written hs hw]
  obtain ⟨-, he⟩ | ⟨hd', -⟩ := s.estimateDouble_cases
  · rw [he, replyEstimate_degenerate]
  · exact absurd hd hd'

/-- Settles O19: the truncated quotient is the floor or the ceiling by sign, and the answer is in range or refused. -/
theorem tofrdRoundsTowardZero : Obligations.TofrdRoundsTowardZero := by
  intro s
  refine ⟨exec_tofrd_invalid, fun hv q hq => ?_⟩
  obtain rfl : q = trunc0 s.tof := hq.trans (trunc0_eq s.tof).symm
  exact ⟨exec_tofrd_inside hv, exec_tofrd_outside hv⟩

/-- Settles O20: a shift leaves each delta, a symmetric exchange cancels `R + D`, and a zero ratio drops out of
TOFSS. -/
theorem estimatesDependOnDeltasOnly : Obligations.EstimatesDependOnDeltasOnly := by
  refine ⟨fun s t c d i hi h => ?_, ?_⟩
  · simp only [List.mem_cons, List.not_mem_nil, or_false] at hi
    obtain rfl | rfl := hi
    · rw [exec_tofss_eq, estimateSingle_shifted]
      exact estimateCommand_shifted c d h
    · rw [exec_tofds_eq, estimateDouble_shifted]
      exact estimateCommand_shifted c d h
  · intro s r d hs hra hdb hpos
    refine ⟨fun hw hrb hda => ?_, fun hw hk hk0 => ?_⟩
    · rw [exec_tofds_estimates hs hw (by omega), hra, hrb, hda, hdb, symmetric_quotient hpos]
    · rw [exec_tofss_estimates hs hw hk (by omega), hra, hdb, hk0, sub_zero, mul_one]

end Sys2Proof.Machine
end

section
/-! PROOF. The frame codec: what FENC and FDEC answer case by case, the frame between them, and the direct
accesses to the buffer (spec/42_frame_codec.md R156 to R168). -/

namespace Sys2Proof.Machine

/-! ## The fields of a kind -/

theorem encodeSources_eq (s : State) (k : FrameKind) : encodeSources k = (timestampFields s k).map Prod.fst := by
  cases k <;> rfl

theorem encodeSources_pairwise (k : FrameKind) : (encodeSources k).Pairwise (· < ·) := by
  cases k <;> decide

theorem timestampFields_congr {s t : State} (h : t.cfg = s.cfg) (k : FrameKind) :
    timestampFields t k = timestampFields s k := by
  cases k <;> simp only [timestampFields, h]

section
variable {k : FrameKind} {s : State}

/-- The spans that decode reads lie in the payload, so that clearing byte 2 leaves them alone (R157, R160). -/
theorem fieldOffsets_payload (hl : layoutHolds s k) {o : Nat} (ho : o ∈ fieldOffsets s k) : 10 ≤ o := by
  obtain ⟨-, hbounds, -⟩ := hl
  exact (hbounds o ho).1

theorem timestampFields_payload (hl : layoutHolds s k) {p : RegNum × Nat} (hp : p ∈ timestampFields s k) :
    10 ≤ p.2 :=
  fieldOffsets_payload hl (List.mem_append_left _ (List.mem_map_of_mem hp))

theorem pollCtrIdx_payload (hl : layoutHolds s k) (hc : carriesCounter s k) : 10 ≤ s.cfg.pollCtrIdx.toNat :=
  fieldOffsets_payload hl (List.mem_append_right _ (by rw [if_pos hc]; exact List.mem_singleton_self _))

theorem spanNumber_clearSeqByte {a : Nat} (ha : 10 ≤ a) : spanNumber s.clearSeqByte.fb a = spanNumber s.fb a :=
  spanNumber_congr fun j _ => read_clearSeqByte_other (by omega)

/-! ## FENC and FDEC refused -/

theorem layoutOK_ne_false (hl : layoutHolds s k) : ¬ s.layoutOK k = false := by
  rw [(layoutOK_iff s k).mpr hl]
  decide

/-- The two codec commands make the same two tests first: admission and the layout (R157). -/
theorem exec_codec_shape {i : Instr} (hi : i ∈ [Instr.fenc k, .fdec k]) (s : State) :
    ∃ r, exec i s = admitWrite s (if s.layoutOK k = false then reply s .errConfig 0 else r) := by
  simp only [List.mem_cons, List.not_mem_nil, or_false] at hi
  obtain rfl | rfl := hi <;> exact ⟨_, rfl⟩

/-! ## FENC (R159) -/

theorem exec_fenc_layout (hs : s.state.isActive = false) (hl : layoutHolds s k) :
    exec (.fenc k) s = withWritten s (encodeSources k)
      (if k = .poll ∧ s.usesSts = true ∧ s.ivSet = false then reply s .errUnwritten 0x21
        else reply (s.encodeFrame k) .ok ((s.frameLenOf k).setWidth 128)) := by
  rw [exec, execFenc, admitWrite_inactive hs, if_neg (layoutOK_ne_false hl)]

theorem exec_fenc_ready (hs : s.state.isActive = false) (hl : layoutHolds s k) (hr : encodeReady s k) :
    exec (.fenc k) s = .next ((s.encodeFrame k).answered .ok (s.frameLenOf k).toNat) := by
  obtain ⟨hw, hiv⟩ := hr
  have hctr : ¬ (k = .poll ∧ s.usesSts = true ∧ s.ivSet = false) := by
    rintro ⟨hk, hsts, hno⟩
    simp [hiv ⟨hk, hsts⟩] at hno
  rw [exec_fenc_layout hs hl, withWritten_all (encodeSources_eq s k ▸ hw), if_neg hctr, reply_setWidth]

theorem exec_fenc_missing {r : RegNum} (hs : s.state.isActive = false) (hl : layoutHolds s k)
    (h : s.firstMissing ((timestampFields s k).map Prod.fst) r) :
    exec (.fenc k) s = .next (s.answered .errUnwritten r) := by
  rw [exec_fenc_layout hs hl, withWritten_missing (encodeSources_pairwise k) (encodeSources_eq s k ▸ h)]

/-- A Poll has no timestamp source, so that only the counter's flag is tested. -/
theorem exec_fenc_no_counter (hs : s.state.isActive = false) (hl : layoutHolds s k) (hc : carriesCounter s k)
    (hiv : s.ivSet = false) : exec (.fenc k) s = .next (s.answered .errUnwritten 0x21) := by
  obtain ⟨rfl, hsts⟩ := hc
  rw [exec_fenc_layout hs hl, withWritten_all (rs := encodeSources .poll) (List.forall_mem_nil _),
    if_pos ⟨rfl, hsts, hiv⟩]
  exact reply_ofNat s .errUnwritten 0x21

/-! ## FDEC (R160) -/

theorem exec_fdec_wrongLength (hs : s.state.isActive = false) (hl : layoutHolds s k) (hn : s.fbLen ≠ s.frameLenOf k) :
    exec (.fdec k) s = .next (s.answered .mismatch 0) := by
  rw [exec, execFdec, admitWrite_inactive hs, if_neg (layoutOK_ne_false hl), State.decodeFrame, if_pos hn]
  exact reply_zero s .mismatch

theorem exec_fdec_wrongHeader (hs : s.state.isActive = false) (hl : layoutHolds s k) (hn : s.fbLen = s.frameLenOf k)
    (hm : Memory.wf s.fb) (hp : ¬ prefixMatches s k) :
    exec (.fdec k) s = .next (s.clearSeqByte.answered .mismatch 0) := by
  rw [exec, execFdec, admitWrite_inactive hs, if_neg (layoutOK_ne_false hl), State.decodeFrame,
    if_neg (not_not_intro hn), if_neg (mt (clearSeqByte_headerMatches hm).mp hp)]
  exact reply_zero s.clearSeqByte .mismatch

/-- The state that a match leaves: byte 2 cleared, then the fields stored. -/
def State.decoded (s : State) (k : FrameKind) : State := s.clearSeqByte.extractFields (s.fields k)

theorem exec_fdec_matched (hs : s.state.isActive = false) (hl : layoutHolds s k) (hn : s.fbLen = s.frameLenOf k)
    (hm : Memory.wf s.fb) (hp : prefixMatches s k) :
    exec (.fdec k) s = .next ((s.decoded k).answered .ok (kindNumber k)) := by
  rw [exec, execFdec, admitWrite_inactive hs, if_neg (layoutOK_ne_false hl), State.decodeFrame,
    if_neg (not_not_intro hn), if_pos ((clearSeqByte_headerMatches hm).mpr hp), ← reply_ofNat,
    ← kindBits_kindNumber]
  rfl

theorem decoded_fb : (s.decoded k).fb = s.clearSeqByte.fb := State.extractFields_fb _ _

theorem decoded_frame : s.decoded k =
    { s with
      fb := (s.decoded k).fb, ts := (s.decoded k).ts, tsw := (s.decoded k).tsw, pollCtr := (s.decoded k).pollCtr } := by
  obtain ⟨ts, tsw, ctr, h⟩ := extractFields_frame s.clearSeqByte (s.fields k)
  rw [State.decoded, h]
  rfl

theorem decoded_timestamp (hl : layoutHolds s k) {p : RegNum × Nat} (hp : p ∈ timestampFields s k) :
    (s.decoded k).ts[p.1].toNat = spanNumber s.fb p.2 ∧ (s.decoded k).tsw[p.1] = true := by
  obtain ⟨hdest, -⟩ := extractFields_spec s.clearSeqByte k
  rw [← spanNumber_clearSeqByte (timestampFields_payload hl hp)]
  exact hdest p hp

theorem decoded_kept {r : RegNum} (hr : r ∉ (timestampFields s k).map Prod.fst) :
    (s.decoded k).ts[r] = s.ts[r] ∧ (s.decoded k).tsw[r] = s.tsw[r] := by
  obtain ⟨-, hkept, -⟩ := extractFields_spec s.clearSeqByte k
  exact hkept r hr

theorem decoded_counter (hl : layoutHolds s k) (hc : carriesCounter s k) :
    (s.decoded k).pollCtr.toNat = spanNumber s.fb s.cfg.pollCtrIdx.toNat := by
  obtain ⟨-, -, hctr, -⟩ := extractFields_spec s.clearSeqByte k
  rw [← spanNumber_clearSeqByte (pollCtrIdx_payload hl hc)]
  exact hctr hc

theorem decoded_counter_kept (hc : ¬ carriesCounter s k) : (s.decoded k).pollCtr = s.pollCtr := by
  obtain ⟨-, -, -, hkept⟩ := extractFields_spec s.clearSeqByte k
  exact hkept hc

/-! ## FDEC as a test of the frame -/

/-- `FDEC k` answers OK exactly for a frame of the kind. -/
theorem answers_fdec_ok_iff (hs : s.state.isActive = false) (hm : Memory.wf s.fb) :
    answers (.fdec k) s .ok (kindNumber k) ↔ layoutHolds s k ∧ s.fbLen = s.frameLenOf k ∧ prefixMatches s k := by
  constructor
  · rintro ⟨t, he, hr⟩
    obtain ⟨hl, u, hd, -⟩ := fdec_ok hs he hr
    rcases decodeFrame_cases k hm with ⟨-, hx⟩ | ⟨-, -, hx⟩ | ⟨hn, hp, -⟩
    · rw [hx] at hd
      cases hd
    · rw [hx] at hd
      cases hd
    · exact ⟨(layoutOK_iff s k).mp hl, hn, hp⟩
  · rintro ⟨hl, hn, hp⟩
    exact ⟨_, exec_fdec_matched hs hl hn hm hp, by rw [decoded_frame]; rfl⟩

theorem answers_fdec_mismatch (hs : s.state.isActive = false) (hl : layoutHolds s k) (hn : s.fbLen = s.frameLenOf k)
    (hm : Memory.wf s.fb) (hp : ¬ prefixMatches s k) : answers (.fdec k) s .mismatch 0 :=
  ⟨_, exec_fdec_wrongHeader hs hl hn hm hp, rfl⟩

/-- A header byte that differs from one that matched does not match. -/
theorem not_prefixMatches_of_write {j : Nat} {b : Byte} (hm : Memory.wf s.fb) (hp : prefixMatches s k) (hj : j < 10)
    (hj2 : j ≠ 2) (hb : b ≠ Memory.read s.fb j) : ¬ prefixMatches { s with fb := Memory.write s.fb j b } k := by
  intro h
  have hwrite : Memory.read (Memory.write s.fb j b) j = s.tplByte k j := h j hj hj2
  rw [Memory.read_write_same hm] at hwrite
  exact hb (hwrite.trans (hp j hj hj2).symm)

/-- Byte 2 and the payload are not compared. -/
theorem prefixMatches_write {j : Nat} {b : Byte} (hp : prefixMatches s k) (hj : j = 2 ∨ 10 ≤ j) :
    prefixMatches { s with fb := Memory.write s.fb j b } k := fun i hi hi2 =>
  (Memory.read_write_other (by omega)).trans (hp i hi hi2)

end

/-! ## Spans, bytes and the length (R161 to R166) -/

section
variable {r : RegNum} {off : BitVec 8} {s : State}

/-- The two span commands make the same two tests first: admission and the range (R161, R162). -/
theorem exec_span_shape {i : Instr} (hi : i ∈ [Instr.fput32 r off, .fget32 r off]) (s : State) :
    ∃ k, exec i s = admitWrite s (withSpan s off 4 k) := by
  simp only [List.mem_cons, List.not_mem_nil, or_false] at hi
  obtain rfl | rfl := hi <;> exact ⟨_, rfl⟩

theorem exec_fput32_written (hs : s.state.isActive = false) (ho : off.toNat + 4 ≤ 128) (hw : s.tsw[r] = true) :
    exec (.fput32 r off) s =
      .next (State.answered { s with fb := Memory.write32 s.fb off.toNat (lo32 s.ts[r]) } .ok 0) := by
  rw [exec, execFput32, admitWrite_inactive hs, withSpan_inside ho, withSource_written hw, reply_zero]

theorem exec_fput32_unwritten (hs : s.state.isActive = false) (ho : off.toNat + 4 ≤ 128) (hw : s.tsw[r] = false) :
    exec (.fput32 r off) s = .next (s.answered .errUnwritten r) := by
  rw [exec, execFput32, admitWrite_inactive hs, withSpan_inside ho, withSource_unwritten hw]

theorem exec_fget32_inside (hs : s.state.isActive = false) (ho : off.toNat + 4 ≤ 128) :
    exec (.fget32 r off) s = .next (s.wroteT r (spanNumber s.fb off.toNat)) := by
  rw [exec, execFget32, admitWrite_inactive hs, withSpan_inside ho, reply_setT,
    BitVec.toNat_setWidth_of_le (by decide), spanNumber_eq]

theorem exec_fbwr_inside (hs : s.state.isActive = false) (ho : off.toNat < 128) :
    exec (.fbwr off) s = .next (State.answered { s with fb := Memory.write s.fb off.toNat (s.opndLow 8) } .ok 0) := by
  rw [exec, execFbwr, admitWrite_inactive hs, withSpan_inside ho, reply_zero]

theorem exec_fbwr_outside (hs : s.state.isActive = false) (ho : 128 ≤ off.toNat) :
    exec (.fbwr off) s = .next (s.answered .errRange 0) := by
  rw [exec, execFbwr, admitWrite_inactive hs, withSpan_outside (by omega)]

theorem exec_fbrd_inside (ho : off.toNat < 128) :
    exec (.fbrd off) s = .next (s.answered .ok (Memory.read s.fb off.toNat).toNat) := by
  rw [exec, execFbrd, withSpan_inside ho, reply_setWidth]

theorem exec_fbrd_outside (ho : 128 ≤ off.toNat) : exec (.fbrd off) s = .next (s.answered .errRange 0) := by
  rw [exec, execFbrd, withSpan_outside (by omega)]

theorem exec_flenw_inside (hs : s.state.isActive = false) (ho : s.opnd.toNat % 256 ≤ 128) :
    exec .flenw s = .next (State.answered { s with fbLen := BitVec.ofNat 8 s.opnd.toNat } .ok 0) := by
  have hlen : ¬ Config.fbSize < (s.opndLow 8).toNat := by
    rw [State.opndLow_toNat]
    exact Nat.not_lt.mpr ho
  rw [exec, execFlenw, admitWrite_inactive hs, if_neg hlen, reply_zero, BitVec.ofNat_toNat]
  rfl

theorem exec_flenw_outside (hs : s.state.isActive = false) (ho : 128 < s.opnd.toNat % 256) :
    exec .flenw s = .next (s.answered .errRange 0) := by
  have hlen : Config.fbSize < (s.opndLow 8).toNat := by
    rw [State.opndLow_toNat]
    exact ho
  rw [exec, execFlenw, admitWrite_inactive hs, if_pos hlen, reply_zero]

end

/-! ## Results -/

/-- Settles O21: the model's predicate is that of R157, and the two commands test admission and layout before all
else. -/
theorem layoutIsChecked : Obligations.LayoutIsChecked := by
  intro k s
  refine ⟨layoutOK_iff s k, fun i hi => ?_⟩
  obtain ⟨r, hr⟩ := exec_codec_shape hi s
  rw [hr]
  refine ⟨admitWrite_active, fun hs hl => ?_⟩
  have hfail : s.layoutOK k = false := Bool.eq_false_iff.mpr (mt (layoutOK_iff s k).mp hl)
  rw [admitWrite_inactive hs, if_pos hfail, reply_zero]

/-- Settles O22: the encoded frame, byte by byte and field by field, where every source is loaded. -/
theorem fencBuildsTheFrame : Obligations.FencBuildsTheFrame := by
  intro k s hs hl
  refine ⟨fun hm hr => ?_, fun r => exec_fenc_missing hs hl, exec_fenc_no_counter hs hl⟩
  obtain ⟨hwf, hheader, -, hzeros, hbeyond⟩ := encodeFrame_spec hl hm
  exact ⟨_, exec_fenc_ready hs hl hr, rfl, hwf, hheader, encodeFrame_timestamps hl hm, encodeFrame_counter hl hm,
    hzeros, hbeyond⟩

/-- Settles O23: the three ends of the decode, by the length and the header. -/
theorem fdecDecodesTheFrame : Obligations.FdecDecodesTheFrame := by
  intro k s hs hl
  refine ⟨exec_fdec_wrongLength hs hl, fun hn hm => ?_⟩
  by_cases hp : prefixMatches s k
  · refine ⟨_, exec_fdec_matched hs hl hn hm hp, ?_, fun x hx => ?_, fun h => absurd hp h, fun _ => ⟨?_, ?_⟩⟩
    · exact (congrArg (Memory.read · 2) decoded_fb).trans (read_clearSeqByte_same hm)
    · exact (congrArg (Memory.read · x) decoded_fb).trans (read_clearSeqByte_other (by omega))
    · exact congrArg (State.answered · .ok (kindNumber k)) decoded_frame
    · exact ⟨fun p => decoded_timestamp hl, fun r => decoded_kept, decoded_counter hl, decoded_counter_kept⟩
  · exact ⟨_, exec_fdec_wrongHeader hs hl hn hm hp, read_clearSeqByte_same hm,
      fun x hx => read_clearSeqByte_other (by omega), fun _ => rfl, fun h => absurd h hp⟩

/-- Settles O24: the frame that FENC builds is one that FDEC matches, and its spans hold the sources' low words. -/
theorem codecRoundTrip : Obligations.CodecRoundTrip := by
  intro k s hs hl hm hr
  obtain ⟨t, ht, hframe, hwf, hheader, hspans, hcount, -⟩ := (fencBuildsTheFrame k s hs hl).1 hm hr
  have hcfg : t.cfg = s.cfg := by rw [hframe]; rfl
  have hst : t.state.isActive = false := by rw [hframe]; exact hs
  have hlen : t.fbLen = t.frameLenOf k := by rw [hframe]; rfl
  have hp : prefixMatches t k := fun j hj hj2 => by
    rw [hheader j hj, if_neg hj2, State.tplByte, State.tplByte, hcfg]
  obtain ⟨u, hu, hbyte, -, -, hmatch⟩ :=
    (fdecDecodesTheFrame k t hst ((layoutHolds_congr hcfg k).mpr hl)).2 hlen hwf
  obtain ⟨hleft, hdest, -, hctr, -⟩ := hmatch hp
  rw [timestampFields_congr hcfg] at hdest
  rw [carriesCounter, State.usesSts, hcfg] at hctr
  refine ⟨t, u, ht, hu, ?_, fun p hp => ?_, fun hc => (hctr hc).trans (hcount hc), hbyte⟩
  · rw [hleft, hframe, ← BitVec.ofNat_toNat]
    exact List.append_assoc s.responses _ _
  · obtain ⟨hvalue, htag⟩ := hdest p hp
    exact ⟨htag, hvalue.trans (hspans p hp)⟩

/-- Settles O25: a frame is accepted exactly if it is of the kind, and the compare is of the header without byte 2. -/
theorem prefixCorruptionIsDetected : Obligations.PrefixCorruptionIsDetected := by
  intro k s j b hs hm hok
  obtain ⟨hl, hn, hp⟩ := (answers_fdec_ok_iff hs hm).mp hok
  have hwf (hj : j < 128) : Memory.wf (Memory.write s.fb j b) := Memory.wf_write hm hj
  refine ⟨fun hj hj2 hb => ?_, fun hj => ?_⟩
  · exact answers_fdec_mismatch (s := { s with fb := Memory.write s.fb j b }) hs hl hn (hwf (by omega))
      (not_prefixMatches_of_write hm hp hj hj2 hb)
  · exact (answers_fdec_ok_iff (s := { s with fb := Memory.write s.fb j b }) hs (hwf (by omega))).mpr
      ⟨hl, hn, prefixMatches_write hp (by omega)⟩

/-- Settles O26: a span written and a span read, and the range tested before the source. -/
theorem spanAccess : Obligations.SpanAccess := by
  intro r off s
  refine ⟨fun hs ho => ⟨fun hm hw => ?_, exec_fput32_unwritten hs ho, exec_fget32_inside hs ho⟩, fun i hi => ?_⟩
  · refine ⟨_, exec_fput32_written hs ho hw, rfl, Memory.wf_write32 hm ho, ?_,
      fun x hx => Memory.read_write32_other hx⟩
    rw [spanNumber_eq, ← lo32_toNat]
    exact congrArg BitVec.toNat (Memory.read32_write32_same hm ho)
  · obtain ⟨k, hk⟩ := exec_span_shape hi s
    rw [hk]
    exact ⟨fun hs ho => by rw [admitWrite_inactive hs, withSpan_outside ho], admitWrite_active⟩

/-- Settles O27: the one byte written or read, the length, and their ranges. -/
theorem byteAndLengthAccess : Obligations.ByteAndLengthAccess := by
  intro off s
  refine ⟨fun ho => ⟨exec_fbrd_inside ho, fun hs hm => ?_⟩,
    fun ho => ⟨exec_fbrd_outside ho, fun hs => exec_fbwr_outside hs ho⟩, exec_flenw_inside, exec_flenw_outside,
    fun ha => ⟨admitWrite_active ha, admitWrite_active ha⟩, reply_setWidth s .ok s.fbLen⟩
  refine ⟨_, exec_fbwr_inside hs ho, rfl, Memory.wf_write hm ho, ?_, fun x hx => Memory.read_write_other (by omega)⟩
  exact (congrArg BitVec.toNat (Memory.read_write_same hm)).trans (State.opndLow_toNat s 8)

end Sys2Proof.Machine
end

section
/-! PROOF. The STS manager: what each of its commands answers, the realignment of two counters, a frame of bad quality,
and the IV during an exchange (spec/43_sts_sync.md R181 to R192; spec/44_sequencer.md R203, R231). -/

namespace Sys2Proof.Machine

/-! ## STSKEY and STSIV (R182, R183) -/

section
variable {s t : State}

theorem stsLoad_first (hs : s.state = .idle) (hf : s.firstDone = false) : stsLoad s t = .next (t.answered .ok 0) := by
  rw [stsLoad, admitIdle_idle hs, if_neg (ne_true_of_eq_false hf), reply_zero]

theorem stsLoad_locked (hs : s.state = .idle) (hf : s.firstDone = true) :
    stsLoad s t = .next (s.answered .errLocked 0) := by
  rw [stsLoad, admitIdle_idle hs, if_pos hf, reply_zero]

/-- The two loads differ in what they write only. -/
theorem exec_eq_stsLoad {i : Instr} (hi : i ∈ [Instr.stskey, .stsiv]) (s : State) : ∃ t, exec i s = stsLoad s t := by
  simp only [List.mem_cons, List.not_mem_nil, or_false] at hi
  obtain rfl | rfl := hi <;> exact ⟨_, rfl⟩

/-! ## STSBEGIN (R184) -/

theorem exec_stsbegin_loaded (hs : s.state.isActive = false) (hk : s.keySet = true) (hi : s.ivSet = true) :
    exec .stsbegin s = .next (s.stsStarted.answered .ok (s.stsStarted.stsIv.toNat % 2 ^ 32)) := by
  rw [exec, execStsbegin, admitWrite_inactive hs, if_neg (ne_false_of_eq_true hk), if_neg (ne_false_of_eq_true hi),
    reply_setWidth, exchangeStart_eq, stsCtr_toNat]

theorem exec_stsbegin_no_key (hs : s.state.isActive = false) (hk : s.keySet = false) :
    exec .stsbegin s = .next (s.answered .errUnwritten 0x20) := by
  rw [exec, execStsbegin, admitWrite_inactive hs, if_pos hk]
  exact reply_ofNat s .errUnwritten 0x20

theorem exec_stsbegin_no_iv (hs : s.state.isActive = false) (hk : s.keySet = true) (hi : s.ivSet = false) :
    exec .stsbegin s = .next (s.answered .errUnwritten 0x21) := by
  rw [exec, execStsbegin, admitWrite_inactive hs, if_neg (ne_false_of_eq_true hk), if_pos hi]
  exact reply_ofNat s .errUnwritten 0x21

/-- A later exchange start hands the radio the bumped counter, the one that the IV then holds. -/
theorem stsStarted_reloads {c : BitVec 32} (hf : s.firstDone = true)
    (hc : c.toNat = (s.stsIv.toNat + s.cfg.stsCtrInc.toNat) % 2 ^ 32) :
    s.stsStarted.calls = s.calls ++ [.reloadStsCounter c] ∧ s.stsStarted.stsIv.toNat % 2 ^ 32 = c.toNat := by
  obtain ⟨-, hctr⟩ := stsStarted_counter s
  rw [if_pos hf] at hctr
  refine ⟨?_, hctr.trans hc.symm⟩
  have hbump : BitVec.ofNat 32 (s.stsIv.toNat % 2 ^ 32 + s.cfg.stsCtrInc.toNat) = c := by
    apply BitVec.eq_of_toNat_eq
    rw [hc, BitVec.toNat_ofNat, Nat.mod_add_mod]
  rw [State.stsStarted, if_pos hf, hbump]

theorem exec_stsbegin_later {c : BitVec 32} (hs : s.state.isActive = false) (hk : s.keySet = true)
    (hi : s.ivSet = true) (hf : s.firstDone = true)
    (hc : c.toNat = (s.stsIv.toNat + s.cfg.stsCtrInc.toNat) % 2 ^ 32) :
    ∃ t, exec .stsbegin s = .next t ∧ t.calls = s.calls ++ [.reloadStsCounter c] ∧
      t.stsIv.toNat % 2 ^ 32 = c.toNat :=
  ⟨_, exec_stsbegin_loaded hs hk hi, stsStarted_reloads hf hc⟩

/-! ## STSCHK (R185, R186) -/

theorem bit_goodScore_toNat (v : BitVec 16) : (bit (goodScore v)).toNat = if 0 ≤ v.toInt then 1 else 0 := by
  rw [bit, BitVec.toNat_ofBool, Bool.toNat, Bool.cond_eq_ite]
  simp only [goodScore_iff]

theorem exec_stschk_admitted (hs : s.state.isActive = false) :
    exec .stschk s = .next (s.drawScore.answered .ok (if 0 ≤ s.ans.score.toInt then 1 else 0)) := by
  rw [exec, execStschk, admitWrite_inactive hs, reply_setWidth, bit_goodScore_toNat]

/-! ## STSRESYNC, STSLOCK and STSUNLOCK (R187 to R189) -/

theorem exec_stsresync_pending (hs : s.state.isActive = false) (hp : s.resyncPending = true) :
    exec .stsresync s = .next ((s.setStsCtr s.pollCtr).answered .ok 1) := by
  rw [exec, execStsresync, admitWrite_inactive hs, reply_setWidth, resync_pending hp, hp]
  rfl

theorem exec_stsresync_suppressed (hs : s.state.isActive = false) (hp : s.resyncPending = false) :
    exec .stsresync s = .next (s.answered .ok 0) := by
  rw [exec, execStsresync, admitWrite_inactive hs, reply_setWidth, resync_suppressed hp, hp]
  rfl

/-- The counter after an overwrite is the peer's. -/
theorem setStsCtr_counter (s : State) (c : BitVec 32) : (s.setStsCtr c).stsIv.toNat % 2 ^ 32 = c.toNat := by
  rw [← stsCtr_toNat, setStsCtr_stsCtr]

end

/-! ## A frame of bad quality (R187, R203) -/

/-- In a receive wait EV_GOOD runs the acceptance procedure for the awaited kind. -/
theorem exec_evGood_awaits {s : State} {k : FrameKind} (h : s.awaits k) :
    ∃ accepted, exec .evGood s = accept k (s.call (.awaitStatus rxMask s.rxTimeout)) accepted := by
  rw [exec, execEvGood, onEvent_waiting (wait_of_awaits h) (by decide)]
  rcases h with ⟨hs, rfl⟩ | ⟨hs, rfl⟩ | ⟨hs, rfl⟩ | ⟨hs, rfl⟩ <;> simp only [State.call_state, hs] <;> exact ⟨_, rfl⟩

/-- A matched frame with a negative score ends the step in BadSts, whatever would have followed; `v` is the state once
the score is drawn. -/
theorem accept_badQuality {k : FrameKind} {s u v : State} {accepted : State → Result} (ho : s.ans.frameOK = true)
    (hl : s.layoutOK k = true) (hd : s.received.decodeFrame k = .matched u) (hu : u.usesSts = true)
    (hq : u.ans.score.toInt < 0) (hv : State.drawScore { u with calls := s.calls ++ [.readFrame 128] } = v) :
    accept k s accepted = .next ((if k = .poll then v.resync else v).raise .badSts) := by
  subst hv
  rw [accept_eq k s accepted ho, hd]
  simp only [if_neg (ne_false_of_eq_true hl)]
  rcases checkQuality_cases k { u with calls := s.calls ++ [.readFrame 128] } accepted with
    ⟨hno, -⟩ | ⟨-, hgood, -⟩ | ⟨-, -, he⟩
  · exact absurd hu (ne_true_of_eq_false hno)
  · exact absurd hq (not_lt.mpr hgood)
  · exact he

/-- The resynchronisation writes the IV alone. -/
theorem resync_eq (s : State) : s.resync = { s with stsIv := s.resync.stsIv } := by
  unfold State.resync
  split <;> rfl

theorem resync_stsIv_toNat (s : State) : s.resync.stsIv.toNat =
    if s.resyncPending = true then s.stsIv.toNat / 2 ^ 32 * 2 ^ 32 + s.pollCtr.toNat else s.stsIv.toNat := by
  cases hp : s.resyncPending
  · rw [resync_suppressed hp, if_neg Bool.false_ne_true]
  · rw [resync_pending hp, setStsCtr_stsIv_toNat, if_pos rfl]

/-- What a frame of kind `k` and bad quality does to the state: on a Poll, while permitted, the counter takes the
peer's value. -/
theorem resync_on_poll (k : FrameKind) (s : State) : ∃ iv : BitVec 128,
    iv.toNat = (if k = .poll ∧ s.resyncPending = true then s.stsIv.toNat / 2 ^ 32 * 2 ^ 32 + s.pollCtr.toNat
      else s.stsIv.toNat) ∧
    (if k = .poll then s.resync else s) = { s with stsIv := iv } := by
  by_cases hk : k = .poll
  · refine ⟨s.resync.stsIv, ?_, by rw [if_pos hk, ← resync_eq]⟩
    rw [resync_stsIv_toNat]
    simp only [hk, true_and]
  · exact ⟨s.stsIv, by rw [if_neg fun h => hk h.1], if_neg hk⟩

/-- With STS the state that an accepted frame leaves is the decoded one with the score drawn. -/
theorem drawScore_decoded {s : State} (t : State) (h : s.usesSts = true) :
    State.drawScore { s with
      fb := t.fb, fbLen := t.fbLen, ts := t.ts, tsw := t.tsw, pollCtr := t.pollCtr
      calls := s.calls ++ [.awaitStatus rxMask s.rxTimeout] ++ [.readFrame 128] } = s.accepted t := by
  simp [State.accepted, State.receiveCalls, State.drawScore, State.call, h]

/-! ## The IV during an exchange (R190, R231 (3)) -/

section
variable {s : State}

/-- A command in an active state gives its answer and does nothing else. -/
theorem exec_command_active {i : Instr} (ha : s.state.isActive = true) (hi : isEventWord i = false) :
    ∃ st d, exec i s = .next (s.respond st d) := by
  cases hread : isReadClass i
  · cases i with
    | cfgw idx =>
      by_cases hill : ∀ r, s.regAt idx = some r → regClass r = .ro
      · exact ⟨_, _, exec_cfgw_illegal hill⟩
      · push Not at hill
        obtain ⟨r, hat, hro⟩ := hill
        exact ⟨_, _, exec_cfgw_busy hat hro ha⟩
    | aesprot =>
      cases haes : s.hasAes
      · exact ⟨_, _, exec_aes_absent (i := .aesprot) (by simp) haes⟩
      · exact ⟨_, _, activeExchangesAreUndisturbed .aesprot s ha rfl rfl rfl fun _ => haes⟩
    | nop | tsrd | tscmp | tscmp32 | tofrd | fbrd | flenr | cfgr | aesnonce | aeslen | aescls => cases hread
    | evGood | evRxErr | evRxTo | evTxDone => cases hi
    | _ => exact ⟨_, _, activeExchangesAreUndisturbed _ s ha rfl rfl rfl fun h => by simp [needsAes] at h⟩
  · obtain ⟨-, hreads⟩ := readClassChangesNothing
    obtain ⟨st, d, -, -, he⟩ := hreads i s hread
    exact ⟨st, d, he⟩

/-- Every next state of the result has the IV of `s`. -/
abbrev KeepsIv (s : State) (r : Result) : Prop := Result.Ends (fun t => t.stsIv = s.stsIv) r

theorem onEvent_keepsIv {ev : EventBits} {k : State → Result} (hk : ∀ c, KeepsIv s (k (s.call c))) :
    KeepsIv s (onEvent ev s k) := by
  intro t h
  rcases onEvent_next h with ⟨-, rfl⟩ | ⟨mask, timeout, -, -, h⟩
  · rfl
  · exact hk _ t h

/-- The acceptance procedure writes the IV in the resynchronisation of a Poll only. -/
theorem accept_keepsIv {k : FrameKind} {u : State} {accepted : State → Result} (hu : u.stsIv = s.stsIv)
    (hp : k = .poll → u.resyncPending = false) (hacc : ∀ v : State, v.stsIv = s.stsIv → KeepsIv s (accepted v)) :
    KeepsIv s (accept k u accepted) := by
  intro t h
  obtain ⟨-, v, fb, ts, tsw, ctr, hv, -, -, hend⟩ := accept_next h
  have hviv : v.stsIv = s.stsIv := by rw [hv]; exact hu
  rcases hend with rfl | ⟨-, -, ⟨-, h⟩ | ⟨-, h⟩ | ⟨-, rfl⟩⟩
  · exact hviv
  · exact hacc v hviv t h
  · exact hacc v.drawScore hviv t h
  · by_cases hk : k = .poll
    · have hsup : v.drawScore.resyncPending = false := by rw [hv]; exact hp hk
      rw [if_pos hk, resync_suppressed hsup]
      exact hviv
    · rw [if_neg hk]
      exact hviv

theorem acceptedReply_keepsIv {v : State} (hv : v.stsIv = s.stsIv) : KeepsIv s (acceptedReply v) := by
  rw [acceptedReply_eq]
  exact ends_next hv

theorem replyKind_ne_poll (s : State) : s.replyKind ≠ .poll := by
  unfold State.replyKind
  split <;> simp

/-- A good frame: only a Poll is resynchronised on, and a suppressed one is not. -/
theorem execEvGood_keepsIv (h : s.state = .awaitPoll → s.resyncPending = false) : KeepsIv s (execEvGood s) := by
  refine onEvent_keepsIv fun c => ?_
  split
  · exact accept_keepsIv rfl (fun hk => absurd hk (replyKind_ne_poll _)) fun v hv => acceptedReply_keepsIv hv
  · exact accept_keepsIv rfl nofun fun v hv => ends_next hv
  · exact accept_keepsIv rfl (fun _ => h ‹_›) fun v hv => ends_next hv
  · exact accept_keepsIv rfl nofun fun v hv => ends_next hv
  all_goals exact ends_fault _

theorem finalTransmitted_stsIv (s : State) : (finalTransmitted s).stsIv = s.stsIv := by
  unfold finalTransmitted
  split <;> rfl

theorem replyTransmitted_stsIv (s : State) : (replyTransmitted s).stsIv = s.stsIv := by
  unfold replyTransmitted
  dsimp only
  split <;> rfl

theorem execEvTxDone_keepsIv (s : State) : KeepsIv s (execEvTxDone s) := by
  refine onEvent_keepsIv fun c => ?_
  split
  · exact ends_next rfl
  · exact ends_next (finalTransmitted_stsIv _)
  · exact ends_next (replyTransmitted_stsIv _)
  all_goals exact ends_fault _

theorem onEvent_raise_keepsIv {ev : EventBits} (e : ErrorKind) :
    KeepsIv s (onEvent ev s fun u => .next (u.raise e)) :=
  onEvent_keepsIv fun _ => ends_next rfl

theorem exec_event_keepsIv {i : Instr} (hi : isEventWord i = true)
    (h : s.state = .awaitPoll → s.resyncPending = false) : KeepsIv s (exec i s) := by
  cases i with
  | evGood => exact execEvGood_keepsIv h
  | evRxErr => exact onEvent_raise_keepsIv .rxError
  | evRxTo => exact onEvent_raise_keepsIv .rxTimeout
  | evTxDone => exact execEvTxDone_keepsIv s
  | _ => cases hi

theorem strayEvent_keepsIv (s : State) : KeepsIv s (strayEvent s) := by
  unfold strayEvent
  split
  · exact ends_next rfl
  · exact ends_fault _

theorem sendDelayed_keepsIv (rx tx : RegNum) (delay : Timestamp) (k : FrameKind) (window : Option (BitVec 32))
    (after : SeqState) (s : State) : KeepsIv s (sendDelayed rx tx delay k window after s) := by
  rcases sendDelayed_cases rx tx delay k window after s with ⟨-, he⟩ | ⟨-, -, he⟩ | ⟨-, -, he⟩ <;> rw [he]
  · exact ends_fault _
  · exact ends_next rfl
  · exact ends_next rfl

theorem concludeEstimate_stsIv (s : State) (e : Estimate) : (concludeEstimate s e).stsIv = s.stsIv := by
  cases e <;> rfl

theorem coreStep_keepsIv (s : State) : KeepsIv s (coreStep s) := by
  unfold coreStep
  split
  · exact ends_ite (fun _ => sendDelayed_keepsIv _ _ _ _ _ _ s) fun _ => ends_next (concludeEstimate_stsIv s _)
  · exact sendDelayed_keepsIv _ _ _ _ _ _ s
  · exact ends_next (concludeEstimate_stsIv s _)
  all_goals exact ends_next rfl

end

/-! ## Results -/

/-- Settles O28: both loads go through the same admission and the same lock. -/
theorem sessionLoads : Obligations.SessionLoads := by
  intro s
  refine ⟨fun hs hf => ⟨stsLoad_first hs hf, stsLoad_first hs hf⟩, fun i hi => ?_⟩
  obtain ⟨t, ht⟩ := exec_eq_stsLoad hi s
  rw [ht]
  exact ⟨stsLoad_locked, admitIdle_active, admitIdle_terminal⟩

/-- Settles O29: the exchange-start action with its counter, and the two flags tested before it. -/
theorem stsbeginStartsTheExchange : Obligations.StsbeginStartsTheExchange := fun s =>
  ⟨fun hs hk hi => ⟨exec_stsbegin_loaded hs hk hi, stsStarted_counter s⟩, exec_stsbegin_no_key, exec_stsbegin_no_iv,
    admitWrite_active⟩

/-- Settles O30: the sign of the score is the answer. -/
theorem stschkReadsTheQuality : Obligations.StschkReadsTheQuality :=
  fun _ => ⟨exec_stschk_admitted, admitWrite_active⟩

/-- Settles O31: the overwrite by RESYNC_PENDING, and the two writes of that flag. -/
theorem resyncCommands : Obligations.ResyncCommands := by
  intro s
  refine ⟨fun hs => ⟨fun hp => ?_, exec_stsresync_suppressed hs, admitWrite_inactive hs, admitWrite_inactive hs⟩,
    fun ha i hi => ?_⟩
  · exact ⟨_, setStsCtr_stsIv_toNat s s.pollCtr, exec_stsresync_pending hs hp⟩
  · simp only [List.mem_cons, List.not_mem_nil, or_false] at hi
    obtain rfl | rfl | rfl := hi <;> exact admitWrite_active ha

/-- Settles O32: after the overwrite both counters are equal modulo 2^32, and both starts add the same increment. -/
theorem overwriteRealignsTheCounters : Obligations.OverwriteRealignsTheCounters := by
  intro a b ha hb hka hia hkb hib hfa hfb hp hinc hpeer
  obtain ⟨c, hc⟩ : ∃ c : BitVec 32, c.toNat = (a.stsIv.toNat + a.cfg.stsCtrInc.toNat) % 2 ^ 32 :=
    ⟨_, BitVec.toNat_ofNat ..⟩
  have hsame : c.toNat = ((b.setStsCtr b.pollCtr).stsIv.toNat + b.cfg.stsCtrInc.toNat) % 2 ^ 32 := by
    rw [hc, hinc, ← Nat.mod_add_mod, ← hpeer, ← setStsCtr_counter, Nat.mod_add_mod]
  obtain ⟨a', hstartA, hcallsA, hctrA⟩ := exec_stsbegin_later ha hka hia hfa hc
  obtain ⟨b'', hstartB, hcallsB, hctrB⟩ :=
    exec_stsbegin_later (s := (b.setStsCtr b.pollCtr).answered .ok 1) hb hkb hib hfb hsame
  exact ⟨a', _, b'', c, hstartA, exec_stsresync_pending hb hp, hstartB, hc, hcallsA, hcallsB, hctrA, hctrB⟩

/-- Settles O46: the received frame decodes as FDEC decodes it at rest, and the quality test then raises BadSts. -/
theorem badQualityEndsInBadSts : Obligations.BadQualityEndsInBadSts := by
  intro s k hk hm hl hf hof hsts hq
  obtain ⟨t, fb, ts, tsw, ctr, hd, hdec, rfl, hlen, rfl, rfl, rfl⟩ := ofKind_decodes hm hl hf hof
  obtain ⟨accepted, he⟩ := exec_evGood_awaits hk
  have hmatch := decodeFrame_calls s.received k (s.calls ++ [.awaitStatus rxMask s.rxTimeout])
  rw [← hlen] at hd
  rw [hd] at hmatch
  obtain ⟨iv, hiv, hres⟩ := resync_on_poll k (s.accepted t)
  refine ⟨t, iv, hdec, hiv, ?_⟩
  rw [he, accept_badQuality (s := s.call (.awaitStatus rxMask s.rxTimeout)) (decide_eq_true hf)
    ((layoutOK_iff s k).mpr hl) hmatch hsts hq (drawScore_decoded t hsts), hres]
  rfl

/-- Settles O56: a command of an active state only answers, and no sequencer step but the permitted resynchronisation
writes the IV. -/
theorem suppressedCounterIsNotOverwritten : Obligations.SuppressedCounterIsNotOverwritten := by
  intro s t ha hperm hin h
  have hsup : s.state = .awaitPoll → s.resyncPending = false := fun hs =>
    Bool.eq_false_of_not_eq_true fun hp => hperm ⟨hs, hp⟩
  rcases step_cases s with ⟨-, he⟩ | ⟨w, o, a, rest, -, ⟨i, hd, he⟩ | he⟩ |
      ⟨ev, a, rest, -, ⟨i, hd, he⟩ | ⟨-, he⟩⟩ | ⟨a, rest, -, he⟩ | ⟨rest, hi, -⟩
  · rw [he] at h
    refine (coreStep_keepsIv _ t h).trans ?_
    split <;> rfl
  · obtain ⟨st, d, hc⟩ := exec_command_active (s := s.latch o a rest) ha (decodeCommand_not_event hd)
    rw [he, hc] at h
    cases h
    rfl
  · rw [he] at h
    cases h
    rfl
  · exact exec_event_keepsIv (s := s.latch s.opnd a rest) (decodeEvent_isEventWord hd) hsup t (he.symm.trans h)
  · exact strayEvent_keepsIv (s.latch s.opnd a rest) t (he.symm.trans h)
  · exact coreStep_keepsIv (s.latch s.opnd a rest) t (he.symm.trans h)
  · simp [hi] at hin

end Sys2Proof.Machine
end

section
/-! PROOF. The sequencer, transition by transition: the core's turn, the starts of an exchange, the event words, and the
steps that wait on nothing (spec/44_sequencer.md R201 to R228; spec/46_system_commands.md R272). -/

namespace Sys2Proof.Machine

/-! ## The core's turn (R201, R228) -/

theorem isTau_iff {x : SeqState} : x.isTau = true ↔ x ∈ [SeqState.respondValid, .pollValid, .finalValid] := by
  cases x <;> decide

/-- Where no input stands the core takes its own step, with a free start verdict in the states that have one (R6). -/
theorem step_of_no_input {s : State} (hin : s.inputs = []) :
    step s = coreStep (if s.state.isTau then s.drawFree else s) := by
  simp only [step, fetch, hin]

/-- Settles O7: only the three tau states have a step of the core, and only there a verdict is drawn. -/
theorem coreStepsOnlyInTauStates : Obligations.CoreStepsOnlyInTauStates := by
  refine ⟨fun s hin hs => ?_, fun s a rest hin => ?_, fun s hs => coreStep_still hs, fun s hin hs => ?_⟩
  · rw [step_of_no_input hin, if_neg (mt isTau_iff.mp hs), coreStep_still hs]
  · simp only [step, fetch, hin]
    rfl
  · refine ⟨if Config.freeLate s.draws then .lateStart else .ok, ?_⟩
    rw [step_of_no_input hin, if_pos (isTau_iff.mpr hs)]
    rfl

/-! ## Two calls, and the answer of a command -/

theorem call_call (s : State) (c d : HalCall) : (s.call c).call d = { s with calls := s.calls ++ [c, d] } := by
  simp only [State.call, List.append_assoc, List.cons_append, List.nil_append]

/-- The status of an answer is read off the response that it appends. -/
theorem reply_status {s u t : State} {st st' : Status} {d d' : Datum} (hu : u.responses = s.responses)
    (h : reply u st' d' = .next t) (hr : t.responses = s.responses ++ [⟨st, d⟩]) :
    st' = st ∧ t = u.respond st' d' := by
  obtain rfl := reply_next.mp h
  rw [State.respond_responses, hu, List.append_cancel_left_eq, List.singleton_inj] at hr
  exact ⟨congrArg Response.status hr, rfl⟩

/-! ## The starts of an exchange (R205, R219, R272) -/

theorem startSts_createExchange (s : State) : s.createExchange.startSts = s.exchangeStarted := by
  rw [State.startSts, exchangeStart_eq]
  rfl

/-- The exchange as it stands before the first frame: the statements' `exchangeCreated` but for the counter, the flag
and the calls of the exchange-start action, none of which transmits (R184). -/
theorem exchangeStarted_frame (s : State) : ∃ iv fd cs,
    s.exchangeStarted = { s.exchangeCreated with stsIv := iv, firstDone := fd, calls := s.calls ++ cs } ∧
    ∀ f g, HalCall.transmitDelayed f g ∉ cs := by
  obtain ⟨iv, fd, cs, he, hcs, -⟩ := startSts_frame s.createExchange
  exact ⟨iv, fd, cs, (startSts_createExchange s).symm.trans he, hcs⟩

/-- XSTART in Idle with a configuration that the start predicate accepts (R272). -/
theorem exec_xstart_accepted {s : State} (hidle : s.state = .idle) (hok : s.configOK = true) :
    exec .xstart s = .next (State.answered
      (if s.isResponder then s.createExchange.startResponder else s.createExchange.startInitiator) .ok 0) := by
  rw [exec, execXstart, admitIdle_idle hidle, if_neg (ne_false_of_eq_true hok), reply_zero, reply_zero]
  split <;> rfl

/-- Settles O34: the start of the Responder makes one call after the exchange-start action. -/
theorem xstartAsResponder : Obligations.XstartAsResponder := by
  intro s hidle hc hrole
  rw [exec_xstart_accepted hidle ((configOK_iff s).mpr hc), if_pos hrole, State.startResponder,
    startSts_createExchange]
  rfl

/-- A started exchange can build its Poll: the kind reads no register, and with STS the IV is loaded (R159, R272). -/
theorem exec_fenc_poll_started {s : State} (hidle : s.state = .idle) (hc : configHolds s) :
    exec (.fenc .poll) s.exchangeStarted =
      .next ((s.exchangeStarted.encodeFrame .poll).answered .ok (s.frameLenOf .poll).toNat) := by
  obtain ⟨hpoll, -, -, -, hloaded⟩ := hc
  obtain ⟨iv, fd, cs, he, -⟩ := exchangeStarted_frame s
  rw [he]
  refine exec_fenc_ready (congrArg SeqState.isActive hidle) ((layoutHolds_congr rfl .poll).mpr hpoll)
    ⟨List.forall_mem_nil _, fun hctr => ?_⟩
  obtain ⟨-, hiv⟩ := hloaded hctr.2
  exact hiv

/-- Settles O33: the start of the Initiator encodes as FENC does and makes two calls after the exchange-start action. -/
theorem xstartAsInitiator : Obligations.XstartAsInitiator := by
  intro s hidle hc hrole
  refine ⟨_, exec_fenc_poll_started hidle hc, ?_, ?_⟩
  · obtain ⟨iv, fd, cs, he, -⟩ := exchangeStarted_frame s
    rw [he, ← BitVec.ofNat_toNat]
    rfl
  · rw [exec_xstart_accepted hidle ((configOK_iff s).mpr hc), if_neg (ne_true_of_eq_false hrole),
      State.startInitiator, startSts_createExchange, call_call]
    obtain ⟨iv, fd, cs, he, -⟩ := exchangeStarted_frame s
    rw [he]
    rfl

/-! ## Reception failures (R208, R209, R217, R222, R224) -/

theorem exec_evRxTo_awaits {s : State} {k : FrameKind} (h : s.awaits k) :
    exec .evRxTo s = .next ((s.call (.awaitStatus rxMask s.rxTimeout)).raise .rxTimeout) :=
  onEvent_waiting (k := fun u => .next (u.raise .rxTimeout)) (wait_of_awaits h) (by decide)

theorem exec_evRxErr_awaits {s : State} {k : FrameKind} (h : s.awaits k) :
    exec .evRxErr s = .next ((s.call (.awaitStatus rxMask s.rxTimeout)).raise .rxError) :=
  onEvent_waiting (k := fun u => .next (u.raise .rxError)) (wait_of_awaits h) (by decide)

/-- Settles O42: in a receive wait both failures are in the mask, and all that follows the wait is the error entry. -/
theorem receptionFailuresEndTheExchange : Obligations.ReceptionFailuresEndTheExchange :=
  fun _ _ h => ⟨exec_evRxTo_awaits h, exec_evRxErr_awaits h⟩

/-! ## Completed transmissions (R207, R216, R223) -/

/-- What a completed transmission does, by the transmit wait that it answers. -/
def transmittedIn : SeqState → State → State
  | .pollSent => pollTransmitted
  | .finalSent => finalTransmitted
  | .respSent => replyTransmitted
  | _ => id

theorem exec_evTxDone_waiting {s : State} (hs : s.state ∈ [SeqState.pollSent, .finalSent, .respSent]) :
    exec .evTxDone s = .next (transmittedIn s.state (s.call (.awaitStatus txMask 0))) := by
  simp only [List.mem_cons, List.not_mem_nil, or_false] at hs
  have hw : s.wait = some (txMask, 0) := by rcases hs with hs | hs | hs <;> simp only [State.wait, hs]
  rw [exec, execEvTxDone, onEvent_waiting hw (by decide)]
  rcases hs with hs | hs | hs <;> simp only [State.call_state, hs, transmittedIn]

theorem answerTime_eq (s : State) : s.answerTime = BitVec.ofNat 40 s.ans.timestamp.toNat :=
  (BitVec.ofNat_toNat ..).symm

/-- After the Poll, `T0` and the wait for the reply (R207). -/
theorem pollTransmitted_eq (s : State) : pollTransmitted s = { s with
    calls := s.calls ++ [.readTimestamp .tx]
    ts := s.ts.set 0 (BitVec.ofNat 40 s.ans.timestamp.toNat), tsw := s.tsw.set 0 true
    seq := s.seq + 1, state := .awaitResponse } := by
  rw [← answerTime_eq]
  rfl

/-- Settles O43: the successor of each transmit wait, by ACK_EN after the Final and by the scheme after the reply. -/
theorem transmissionsComplete : Obligations.TransmissionsComplete := by
  intro s
  refine ⟨fun hs => ?_, fun hs => ?_, fun hs => ?_⟩ <;>
    rw [exec_evTxDone_waiting (by simp [hs]), hs, transmittedIn]
  · rw [pollTransmitted_eq, State.call_calls, List.append_assoc]
    rfl
  · exact ⟨fun ha => congrArg _ (if_pos ha), fun ha => congrArg _ (if_neg (ne_true_of_eq_false ha))⟩
  · exact ⟨fun hd => congrArg _ (if_pos hd), fun hd => congrArg _ (if_neg (ne_true_of_eq_false hd))⟩

/-! ## Good frames (R203, R210, R211, R218, R220, R225) -/

/-- What follows an accepted frame, by the receive wait that it answers. -/
def acceptedIn : SeqState → State → Result
  | .awaitResponse => acceptedReply
  | .awaitAck => acceptedAck
  | .awaitPoll => acceptedPoll
  | .awaitFinal => acceptedFinal
  | _ => fun _ => .fault .eventOutsideContract

theorem frameOK_of_wholeFrame {s : State} (h : s.wholeFrame) : s.ans.frameOK = true := decide_eq_true h

/-- In a receive wait EV_GOOD runs the acceptance procedure for the awaited kind, then what the wait goes on with. -/
theorem exec_evGood_waiting {s : State} {k : FrameKind} (h : s.awaits k) :
    exec .evGood s = accept k (s.call (.awaitStatus rxMask s.rxTimeout)) (acceptedIn s.state) := by
  rw [exec, execEvGood, onEvent_waiting (wait_of_awaits h) (by decide)]
  rcases h with ⟨hs, rfl⟩ | ⟨hs, rfl⟩ | ⟨hs, rfl⟩ | ⟨hs, rfl⟩ <;> simp only [State.call_state, hs, acceptedIn]
  rfl

/-- The received frame in a receive wait, decoded with the wait's two calls made. -/
theorem decodeFrame_received_waiting (s : State) (k : FrameKind) :
    (s.call (.awaitStatus rxMask s.rxTimeout)).received.decodeFrame k =
      (s.received.decodeFrame k).map fun u => { u with calls := s.calls ++ [.awaitStatus rxMask s.rxTimeout] } :=
  decodeFrame_calls s.received k _

/-- Without STS the state that an accepted frame leaves is the decoded one, no quality being read. -/
theorem decoded_accepted {s : State} (t : State) (h : s.usesSts = false) :
    ({ s with
      fb := t.fb, fbLen := t.fbLen, ts := t.ts, tsw := t.tsw, pollCtr := t.pollCtr
      calls := s.calls ++ [.awaitStatus rxMask s.rxTimeout] ++ [.readFrame 128] } : State) = s.accepted t := by
  simp [State.accepted, State.receiveCalls, h]

/-- A whole frame of the awaited kind and of good quality passes the acceptance procedure with the fields that FDEC
stores. -/
theorem accept_of_qualityPasses {s : State} {k : FrameKind} (hm : Memory.wf s.fb) (hl : layoutHolds s k)
    (hf : s.wholeFrame) (hof : s.ofKind k) (hq : s.qualityPasses) :
    ∃ t, s.decodesTo k .ok (kindNumber k) t ∧ ∀ accepted,
      accept k (s.call (.awaitStatus rxMask s.rxTimeout)) accepted = accepted (s.accepted t) := by
  obtain ⟨t, fb, ts, tsw, ctr, hd, hdec, rfl, hlen, rfl, rfl, rfl⟩ := ofKind_decodes hm hl hf hof
  rw [← hlen] at hd
  refine ⟨t, hdec, fun accepted => ?_⟩
  have hlo : (s.call (.awaitStatus rxMask s.rxTimeout)).layoutOK k = true :=
    (layoutOK_congr rfl k).trans ((layoutOK_iff s k).mpr hl)
  rw [accept_eq k (s.call _) accepted (frameOK_of_wholeFrame hf), decodeFrame_received_waiting, hd]
  simp only [Decoded.map, if_neg (ne_false_of_eq_true hlo)]
  rcases checkQuality_cases k _ accepted with ⟨hu, he⟩ | ⟨hu, -, he⟩ | ⟨hu, hbad, -⟩
  · exact he.trans (congrArg accepted (decoded_accepted t hu))
  · exact he.trans (congrArg accepted (drawScore_decoded t hu))
  · exact absurd (hq hu) (not_le.mpr hbad)

theorem stampRx_eq (s : State) (r : RegNum) : s.stampRx r = { s with
    calls := s.calls ++ [.readTimestamp .rx]
    ts := s.ts.set r (BitVec.ofNat 40 s.ans.timestamp.toNat), tsw := s.tsw.set r true } := by
  rw [← answerTime_eq]
  rfl

/-- Settles O44: the frame passes the acceptance procedure, and each wait goes on in its own way. -/
theorem goodFramesAreAccepted : Obligations.GoodFramesAreAccepted := by
  intro s k hk hm hl hf hof hq
  obtain ⟨t, hdec, hacc⟩ := accept_of_qualityPasses hm hl hf hof hq
  refine ⟨t, hdec, fun hs => ?_, fun hs => ?_, fun hs => ?_, fun hs => ?_⟩ <;>
    rw [exec_evGood_waiting hk, hacc, hs, acceptedIn]
  · rw [acceptedPoll, stampRx_eq]
    rfl
  · rw [acceptedFinal, stampRx_eq]
    rfl
  · rfl
  · rw [acceptedReply_eq, answerTime_eq]
    rfl

/-- Settles O45: the received frame decodes as a mismatch, which the acceptance procedure answers with BadFrame before
it reads the quality. -/
theorem foreignFramesEndInBadFrame : Obligations.ForeignFramesEndInBadFrame := by
  intro s k hk hm hl hf hof
  obtain ⟨t, hdec, hlen, hd⟩ := foreign_decodes hm hl hf hof
  refine ⟨t, hdec, ?_⟩
  rw [exec_evGood_waiting hk, accept_eq k (s.call _) _ (frameOK_of_wholeFrame hf), decodeFrame_received_waiting,
    State.call_calls, List.append_assoc]
  rcases hd with ⟨hd, hfb⟩ | hd
  · rw [hd, hlen, hfb]
    rfl
  · rw [hd]
    rfl

/-! ## The estimating steps (R212, R227) -/

/-- An estimating command at rest and the step that ends with the same estimate: a result concludes the exchange with
it, and either refusal of the estimate ends it in Failed. -/
theorem concludeEstimate_of_command {rs : List RegNum} {e : Estimate} {s t : State} {st : Status}
    (h : estimateCommand rs e s.atRest = .next t) (hr : t.responses = s.responses ++ [⟨st, 0⟩]) :
    (st = .ok → concludeEstimate s e = { s with
      tof := t.tof, tofValid := true, outcome := .success, resyncPending := true, state := .done }) ∧
    (st = .degenerate ∨ st = .errBadK → concludeEstimate s e = { s with
      outcome := .degenerateTiming, resyncPending := true, state := .failed }) := by
  rw [estimateCommand, admitWrite_inactive rfl, withWritten] at h
  split at h
  · obtain ⟨rfl, -⟩ := reply_status (u := s.atRest) rfl h hr
    exact ⟨nofun, nofun⟩
  · cases e with
    | tof q =>
      obtain ⟨rfl, rfl⟩ := reply_status (u := s.atRest.setTof q) rfl h hr
      exact ⟨fun _ => rfl, nofun⟩
    | degenerate =>
      obtain ⟨rfl, -⟩ := reply_status (u := s.atRest) rfl h hr
      exact ⟨nofun, fun _ => rfl⟩
    | badK =>
      obtain ⟨rfl, -⟩ := reply_status (u := s.atRest) rfl h hr
      exact ⟨nofun, fun _ => rfl⟩

theorem coreStep_respondValid_single {s : State} (hs : s.state = .respondValid) (hd : s.isDoubleSided = false) :
    coreStep s = .next (concludeEstimate s s.estimateSingle) := by
  simp only [coreStep, hs, tauRespondValid, hd, Bool.false_eq_true, if_false]

theorem coreStep_finalValid {s : State} (hs : s.state = .finalValid) :
    coreStep s = .next (concludeEstimate s s.estimateDouble) := by
  simp only [coreStep, hs, tauFinalValid]

/-- Settles O47: the step ends with the estimate that the command answers at rest. -/
theorem estimatingStepsConclude : Obligations.EstimatingStepsConclude := by
  rintro s t i st (⟨hs, hd, rfl⟩ | ⟨hs, rfl⟩) hex hr
  · rw [coreStep_respondValid_single hs hd]
    obtain ⟨hok, hfail⟩ := concludeEstimate_of_command (e := s.estimateSingle) hex hr
    exact ⟨fun h => congrArg _ (hok h), fun h => congrArg _ (hfail h)⟩
  · rw [coreStep_finalValid hs]
    obtain ⟨hok, hfail⟩ := concludeEstimate_of_command (e := s.estimateDouble) hex hr
    exact ⟨fun h => congrArg _ (hok h), fun h => congrArg _ (hfail h)⟩

/-! ## The transmitting steps (R213, R215, R221) -/

/-- The frame sent is the one that FENC builds once the predicted timestamp is in its register. -/
theorem sent_eq (s : State) (rx tx : RegNum) (delay : Timestamp) (k : FrameKind) :
    s.sent rx tx delay k = ((s.scheduled rx tx delay).encodeFrame k).call
      (.transmitDelayed ((s.scheduled rx tx delay).encodeFrame k).frame (sched s.ts[rx] delay)) := by
  rw [State.sent, setT_txstamp]

/-- A delayed transmission, from what FENC answers at rest in the scheduled state. -/
theorem sendDelayed_of_fenc {s t : State} {k : FrameKind} {rx tx : RegNum} {delay g : Timestamp} {d : Datum}
    (window : Option (BitVec 32)) (after : SeqState) (hg : g.toNat = targetNumber s.ts[rx] delay)
    (h : exec (.fenc k) (s.scheduled rx tx delay).atRest = .next t) (hr : t.responses = s.responses ++ [⟨.ok, d⟩]) :
    (s.ans.start = .ok → sendDelayed rx tx delay k window after s = .next { s.scheduled rx tx delay with
      fb := t.fb, fbLen := t.fbLen, state := after
      calls := s.calls ++ [.transmitDelayed (Memory.readBytes t.fb 0 t.fbLen.toNat) g]
        ++ (window.map fun d => HalCall.receiveEnable (.delayedFromTimestamp d)).toList }) ∧
    (s.ans.start = .lateStart → sendDelayed rx tx delay k window after s = .next { s.scheduled rx tx delay with
      fb := t.fb, fbLen := t.fbLen
      calls := s.calls ++ [.transmitDelayed (Memory.readBytes t.fb 0 t.fbLen.toNat) g]
      outcome := .lateStart, resyncPending := true, state := .failed }) := by
  obtain ⟨hl, rfl⟩ := fenc_ok rfl h hr
  have hlo : s.layoutOK k = true := (layoutOK_congr rfl k).trans hl
  have hsched : sched s.ts[rx] delay = g := BitVec.eq_of_toNat_eq ((sched_toNat _ _).trans hg.symm)
  rcases sendDelayed_cases rx tx delay k window after s with ⟨hbad, -⟩ | ⟨-, hv, he⟩ | ⟨-, hv, he⟩
  · exact absurd hlo (ne_true_of_eq_false hbad)
  · refine ⟨fun hok => absurd (hv.symm.trans hok) nofun, fun _ => ?_⟩
    rw [he, sent_eq, hsched]
    rfl
  · refine ⟨fun _ => ?_, fun hlate => absurd (hv.symm.trans hlate) nofun⟩
    rw [he, sent_eq, hsched]
    rfl

theorem coreStep_respondValid_double {s : State} (hs : s.state = .respondValid) (hd : s.isDoubleSided = true) :
    coreStep s = sendDelayed .respRx .finalTx s.cfg.finalDelay .final
      (if s.ackEnabled then some s.cfg.dFinal else none) .finalSent s := by
  simp only [coreStep, hs, tauRespondValid, hd, if_true]

theorem coreStep_pollValid {s : State} (hs : s.state = .pollValid) :
    coreStep s = sendDelayed .pollRx .respTx s.cfg.respDelay s.replyKind
      (if s.isDoubleSided then some s.cfg.dResp else none) .respSent s := by
  simp only [coreStep, hs, tauPollValid]

/-- The one call that opens a receive window where one follows. -/
theorem window_calls (c : Bool) (d : BitVec 32) :
    (if c then [HalCall.receiveEnable (.delayedFromTimestamp d)] else []) =
      ((if c then some d else none).map fun d => HalCall.receiveEnable (.delayedFromTimestamp d)).toList := by
  cases c <;> rfl

/-- Settles O48: both steps are the one delayed transmission, with the registers, the kind and the window of each. -/
theorem transmittingStepsScheduleAndSend : Obligations.TransmittingStepsScheduleAndSend := by
  rintro s t k rx tx delay g window after
    (⟨hs, hd, rfl, rfl, rfl, rfl, rfl, rfl⟩ | ⟨hs, rfl, rfl, rfl, rfl, rfl, rfl⟩) hg hex hr
  · rw [coreStep_respondValid_double hs hd, window_calls]
    exact sendDelayed_of_fenc _ _ hg hex hr
  · rw [coreStep_pollValid hs, window_calls]
    exact sendDelayed_of_fenc _ _ hg hex hr

end Sys2Proof.Machine
end

section
/-! PROOF. What holds of every sequencer step: the exchange comes nearer to its end, and a delayed transmission is made
by the core's own step only, aligned (spec/44_sequencer.md R231; spec/70_reset_and_hazards.md R332). -/

namespace Sys2Proof.Machine

/-! ## The steps left (R231 (4)) -/

theorem stepsLeft_eq_zero_iff {x : SeqState} : x.stepsLeft = 0 ↔ x.isActive = false := by
  cases x <;> decide

/-- An end of the exchange is nearer than any active state. -/
theorem stepsLeft_lt_of_ended {x y : SeqState} (hx : x.isActive = true) (hy : y.isActive = false) :
    y.stepsLeft < x.stepsLeft := by
  rw [stepsLeft_eq_zero_iff.mpr hy]
  exact Nat.pos_of_ne_zero fun h => ne_true_of_eq_false (stepsLeft_eq_zero_iff.mp h) hx

/-- Every next state of the result is strictly nearer to the end of the exchange than `x`. -/
abbrev Nearer (x : SeqState) (r : Result) : Prop := Result.Ends (fun t => t.state.stepsLeft < x.stepsLeft) r

section
variable {x : SeqState}

theorem nearer_ended {t : State} (hx : x.isActive = true) (ht : t.state.isActive = false) : Nearer x (.next t) :=
  ends_next (stepsLeft_lt_of_ended hx ht)

theorem nearer_moved {t : State} (y : SeqState) (ht : t.state = y) (hy : y.stepsLeft < x.stepsLeft) :
    Nearer x (.next t) :=
  ends_next (ht ▸ hy)

theorem raise_ended (s : State) (e : ErrorKind) : (s.raise e).state.isActive = false := by
  cases e <;> rfl

/-- An event word in a wait: the step goes on in the waiting state. -/
theorem onEvent_nearer {ev : EventBits} {s : State} {k : State → Result} (hw : s.wait ≠ none)
    (hk : ∀ u : State, s.state.isActive = true → u.state = s.state → Nearer s.state (k u)) :
    Nearer s.state (onEvent ev s k) := by
  intro t h
  rcases onEvent_next h with ⟨hnone, -⟩ | ⟨mask, timeout, hsome, -, h⟩
  · exact absurd hnone hw
  · exact hk _ (wait_active hsome) (State.call_state s _) t h

/-- The acceptance procedure ends the exchange, or hands on in the same state. -/
theorem accept_nearer {k : FrameKind} {s : State} {accepted : State → Result} (hx : x.isActive = true)
    (hacc : ∀ u, Nearer x (accepted u)) : Nearer x (accept k s accepted) := by
  intro t h
  obtain ⟨-, u, fb, ts, tsw, ctr, -, -, -, rfl | ⟨-, -, ⟨-, h⟩ | ⟨-, h⟩ | ⟨-, rfl⟩⟩⟩ := accept_next h
  · exact stepsLeft_lt_of_ended hx (raise_ended u .badFrame)
  · exact hacc _ t h
  · exact hacc _ t h
  · exact stepsLeft_lt_of_ended hx (raise_ended _ .badSts)

theorem execEvGood_nearer {s : State} (hw : s.wait ≠ none) : Nearer s.state (execEvGood s) := by
  refine onEvent_nearer hw fun u ha hu => ?_
  rw [← hu] at ha ⊢
  split <;> rename_i hs <;> rw [hs] at ha ⊢
  · exact accept_nearer ha fun v => by
      rw [acceptedReply_eq]
      exact nearer_moved .respondValid rfl (by decide)
  · exact accept_nearer ha fun v => nearer_ended ha rfl
  · exact accept_nearer ha fun v => nearer_moved .pollValid rfl (by decide)
  · exact accept_nearer ha fun v => nearer_moved .finalValid rfl (by decide)
  all_goals exact ends_fault _

/-- The Final sent ends the exchange, or leaves the acknowledgement to come (R216). -/
theorem finalTransmitted_nearer (s : State) : Nearer .finalSent (.next (finalTransmitted s)) := by
  unfold finalTransmitted
  split
  · exact nearer_moved .awaitAck rfl (by decide)
  · exact nearer_ended rfl rfl

/-- The reply sent ends the exchange, or leaves the Final to come (R223). -/
theorem replyTransmitted_nearer (s : State) : Nearer .respSent (.next (replyTransmitted s)) := by
  unfold replyTransmitted
  dsimp only
  split
  · exact nearer_moved .awaitFinal rfl (by decide)
  · exact nearer_ended rfl rfl

theorem execEvTxDone_nearer {s : State} (hw : s.wait ≠ none) : Nearer s.state (execEvTxDone s) := by
  refine onEvent_nearer hw fun u _ hu => ?_
  rw [← hu]
  split <;> rename_i hs <;> rw [hs]
  · exact nearer_moved .awaitResponse rfl (by decide)
  · exact finalTransmitted_nearer u
  · exact replyTransmitted_nearer u
  all_goals exact ends_fault _

/-- Every event word that answers a wait, by its meaning. -/
theorem exec_event_nearer {i : Instr} {s : State} (hi : isEventWord i = true) (hw : s.wait ≠ none) :
    Nearer s.state (exec i s) := by
  cases i with
  | evGood => exact execEvGood_nearer hw
  | evRxErr => exact onEvent_nearer hw fun u ha _ => nearer_ended ha (raise_ended u .rxError)
  | evRxTo => exact onEvent_nearer hw fun u ha _ => nearer_ended ha (raise_ended u .rxTimeout)
  | evTxDone => exact execEvTxDone_nearer hw
  | _ => cases hi

theorem concludeEstimate_ended (s : State) (e : Estimate) : (concludeEstimate s e).state.isActive = false := by
  cases e <;> rfl

/-- A delayed transmission ends the exchange, or moves to the state given (R215). -/
theorem sendDelayed_nearer {rx tx : RegNum} {delay : Timestamp} {k : FrameKind} {window : Option (BitVec 32)}
    {after : SeqState} {s : State} (hx : x.isActive = true) (hafter : after.stepsLeft < x.stepsLeft) :
    Nearer x (sendDelayed rx tx delay k window after s) := by
  rcases sendDelayed_cases rx tx delay k window after s with ⟨-, h⟩ | ⟨-, -, h⟩ | ⟨-, -, h⟩ <;> rw [h]
  · exact ends_fault _
  · exact nearer_ended hx (raise_ended _ .lateStart)
  · exact ends_next hafter

end

/-- The core's own step in its three states (R212, R213, R221, R227). -/
theorem coreStep_nearer {s : State} (hs : s.state ∈ [SeqState.respondValid, .pollValid, .finalValid]) :
    Nearer s.state (coreStep s) := by
  simp only [List.mem_cons, List.not_mem_nil, or_false] at hs
  rcases hs with hs | hs | hs <;> simp only [coreStep, hs]
  · exact ends_ite (fun _ => sendDelayed_nearer rfl (by decide)) fun _ =>
      nearer_ended rfl (concludeEstimate_ended s _)
  · exact sendDelayed_nearer rfl (by decide)
  · exact nearer_ended rfl (concludeEstimate_ended s _)

/-! ## The start of an exchange (R272) -/

/-- The first state of an exchange, by the role. -/
theorem start_state (s : State) :
    (if s.isResponder then s.createExchange.startResponder else s.createExchange.startInitiator).state =
      if s.isResponder then .awaitPoll else .pollSent := by
  split <;> rfl

/-- XSTART answers OK only where it starts an exchange: in Idle, with the start predicate. -/
theorem exec_xstart_ok {s t : State} {d : Datum} (h : exec .xstart s = .next t)
    (hr : t.responses = s.responses ++ [⟨.ok, d⟩]) : s.state = .idle ∧ s.configOK = true := by
  have refused : ∀ {st : Status}, st ≠ .ok → exec .xstart s ≠ .next (s.answered st 0) := fun hst he =>
    hst (reply_status rfl (he.symm.trans h) hr).1
  have hidle : s.state = .idle := SeqState.idle_iff.mpr
    ⟨Bool.eq_false_of_not_eq_true fun ha => refused (st := .errBusy) nofun (admitIdle_active ha),
      Bool.eq_false_of_not_eq_true fun ht => refused (st := .errState) nofun (admitIdle_terminal ht)⟩
  refine ⟨hidle, ?_⟩
  rw [← Bool.not_eq_false]
  exact fun hbad => refused (st := .errConfig) nofun (exec_xstart_configBad hidle hbad)

/-- Settles O57: the steps left are the measure, which a start sets to five. -/
theorem exchangesEndWithinFiveSteps : Obligations.ExchangesEndWithinFiveSteps := by
  refine ⟨fun i s t hi hw => exec_event_nearer hi hw t, fun s t hs => coreStep_nearer hs t, fun s t d h hr => ?_,
    fun s => stepsLeft_eq_zero_iff⟩
  obtain ⟨hidle, hok⟩ := exec_xstart_ok h hr
  obtain rfl : _ = t := Host.Outcome.next.inj ((exec_xstart_accepted hidle hok).symm.trans h)
  refine ⟨hidle, start_state s, ?_⟩
  rw [show (State.answered _ _ _).state = _ from start_state s]
  split <;> rfl

/-! ## Calls that send nothing delayed (R332) -/

/-- The calls made between `s` and `t` are no delayed transmission. -/
def SendsNoneDelayed (s t : State) : Prop := ∃ cs, t.calls = s.calls ++ cs ∧ ∀ f g, HalCall.transmitDelayed f g ∉ cs

section
variable {s t u : State}

theorem SendsNoneDelayed.of_calls (h : t.calls = s.calls) : SendsNoneDelayed s t := ⟨[], by simp [h], by simp⟩

theorem SendsNoneDelayed.trans (h : SendsNoneDelayed s t) (h' : SendsNoneDelayed t u) : SendsNoneDelayed s u := by
  obtain ⟨cs, hcs, hno⟩ := h
  obtain ⟨cs', hcs', hno'⟩ := h'
  exact ⟨cs ++ cs', by rw [hcs', hcs, List.append_assoc], fun f g hm =>
    (List.mem_append.mp hm).elim (hno f g) (hno' f g)⟩

/-- One more call, which is none of a delayed transmission. -/
theorem SendsNoneDelayed.call {c : HalCall} (h : SendsNoneDelayed s t) (hu : u.calls = t.calls ++ [c])
    (hc : ∀ f g, c ≠ .transmitDelayed f g := by nofun) : SendsNoneDelayed s u :=
  h.trans ⟨[c], hu, fun f g hm => hc f g (List.mem_singleton.mp hm).symm⟩

end

/-- A command answers after calls that send nothing delayed. -/
abbrev AnswersUndelayed (s : State) (r : Result) : Prop := Result.Answers (fun u _ => SendsNoneDelayed s u) r

section
variable {s u : State} {k : Result}

theorem undelayed_self : SendsNoneDelayed s s := .of_calls rfl

theorem undelayed_reply {st : Status} {d : Datum} (h : u.calls = s.calls) : AnswersUndelayed s (reply u st d) :=
  answers_reply (.of_calls h) d

theorem undelayed_write (hk : AnswersUndelayed s k) : AnswersUndelayed s (admitWrite s k) :=
  answers_admitWrite undelayed_self hk

theorem undelayed_idle (hk : AnswersUndelayed s k) : AnswersUndelayed s (admitIdle s k) :=
  answers_admitIdle undelayed_self undelayed_self hk

end

/-! ### Commands -/

theorem tsUnary_undelayed (f : Timestamp → Timestamp) (rd ra : RegNum) (s : State) :
    AnswersUndelayed s (tsUnary f rd ra s) :=
  undelayed_write <| answers_withSource undelayed_self fun _ => undelayed_reply rfl

theorem tsBinary_undelayed (f : Timestamp → Timestamp → Timestamp) (rd ra rb : RegNum) (s : State) :
    AnswersUndelayed s (tsBinary f rd ra rb s) :=
  undelayed_write <| answers_withSource undelayed_self fun _ =>
    answers_withSource undelayed_self fun _ => undelayed_reply rfl

theorem replyEstimate_undelayed (s : State) (e : Estimate) : AnswersUndelayed s (replyEstimate s e) := by
  cases e <;> exact undelayed_reply rfl

theorem execFenc_undelayed (k : FrameKind) (s : State) : AnswersUndelayed s (execFenc k s) :=
  undelayed_write <| answers_ite (fun _ => undelayed_reply rfl) fun _ =>
    answers_withWritten undelayed_self <| answers_ite (fun _ => undelayed_reply rfl) fun _ => undelayed_reply rfl

theorem execFdec_undelayed (k : FrameKind) (s : State) : AnswersUndelayed s (execFdec k s) := by
  refine undelayed_write <| answers_ite (fun _ => undelayed_reply rfl) fun _ => ?_
  rcases decodeFrame_shape s k with hd | hd | hd <;> rw [hd]
  · exact undelayed_reply rfl
  · exact undelayed_reply rfl
  · exact undelayed_reply (State.extractFields_calls _ _)

theorem stsLoad_undelayed {s t : State} (h : t.calls = s.calls) : AnswersUndelayed s (stsLoad s t) :=
  undelayed_idle <| answers_ite (fun _ => undelayed_reply rfl) fun _ => undelayed_reply h

/-- The exchange-start action configures or reloads the radio (R184). -/
theorem exchangeStart_undelayed (s : State) : SendsNoneDelayed s s.exchangeStart := by
  unfold State.exchangeStart
  split <;> exact undelayed_self.call rfl

theorem execStsbegin_undelayed (s : State) : AnswersUndelayed s (execStsbegin s) :=
  undelayed_write <| answers_ite (fun _ => undelayed_reply rfl) fun _ =>
    answers_ite (fun _ => undelayed_reply rfl) fun _ => answers_reply (exchangeStart_undelayed s) _

theorem startSts_undelayed (s : State) : SendsNoneDelayed s s.createExchange.startSts := by
  obtain ⟨iv, fd, cs, he, hno⟩ := exchangeStarted_frame s
  exact ⟨cs, by rw [startSts_createExchange, he], hno⟩

/-- The Poll is sent at once, and the receive window is opened (R205, R219). -/
theorem execXstart_undelayed (s : State) : AnswersUndelayed s (execXstart s) := by
  have hs := startSts_undelayed s
  refine undelayed_idle <| answers_ite (fun _ => undelayed_reply rfl) fun _ => answers_ite
    (fun _ => answers_reply (hs.call rfl) _) fun _ => answers_reply ?_ _
  have hp : SendsNoneDelayed s ((s.createExchange.startSts.encodeFrame .poll).call
      (.transmit (s.createExchange.startSts.encodeFrame .poll).frame true)) := hs.call rfl
  exact hp.call rfl

theorem writeReg_undelayed (s : State) (r : CfgReg) : AnswersUndelayed s (reply (s.writeReg r) .ok 0) := by
  rw [writeReg_frame]
  exact undelayed_reply rfl

theorem execCfgw_undelayed (idx : BitVec 8) (s : State) : AnswersUndelayed s (execCfgw idx s) := by
  unfold execCfgw
  split
  · exact undelayed_reply rfl
  · split
    · exact undelayed_reply rfl
    · exact undelayed_idle <| answers_ite (fun _ => undelayed_reply rfl) fun _ => writeReg_undelayed s _
    · exact undelayed_write (writeReg_undelayed s _)

theorem execAesprot_undelayed (s : State) : AnswersUndelayed s (execAesprot s) := by
  have hjob : SendsNoneDelayed s (s.call (.doAes s.aes.job)) := undelayed_self.call rfl
  exact answers_withAes undelayed_self <| undelayed_write <| answers_ite (fun _ => undelayed_reply rfl) fun _ =>
    answers_replyClassified hjob hjob hjob

theorem read_undelayed {i : Instr} (s : State) (hi : isReadClass i = true) : AnswersUndelayed s (exec i s) := by
  obtain ⟨u, st, d, ⟨rfl, -⟩, he⟩ := exec_read s hi
  exact ⟨u, st, d, undelayed_self, he⟩

/-- Every host command, by its meaning. -/
theorem exec_command_undelayed {i : Instr} (s : State) (hi : isEventWord i = false) :
    AnswersUndelayed s (exec i s) := by
  cases i with
  | nop | tsrd | tscmp | tscmp32 | tofrd | fbrd | flenr | cfgr | aesnonce | aeslen | aescls =>
    exact read_undelayed s rfl
  | tsld | stslock | stsunlock => exact undelayed_write (undelayed_reply rfl)
  | stsresync => exact undelayed_write (undelayed_reply (State.resync_calls s))
  | tscaptx | tscaprx | stschk => exact undelayed_write (answers_reply (undelayed_self.call rfl) _)
  | tsmov rd ra | tslo32 rd ra | tsalign rd ra => exact tsUnary_undelayed _ rd ra s
  | tsadd rd ra rb | tssub rd ra rb | tssub32 rd ra rb | tssched rd ra rb => exact tsBinary_undelayed _ rd ra rb s
  | tofss | tofds => exact undelayed_write <| answers_withWritten undelayed_self (replyEstimate_undelayed s _)
  | fenc k => exact execFenc_undelayed k s
  | fdec k => exact execFdec_undelayed k s
  | fput32 rs off =>
    exact undelayed_write <| answers_withSpan undelayed_self <|
      answers_withSource undelayed_self fun _ => undelayed_reply rfl
  | fget32 rd off | fbwr off => exact undelayed_write <| answers_withSpan undelayed_self (undelayed_reply rfl)
  | flenw => exact undelayed_write <| answers_ite (fun _ => undelayed_reply rfl) fun _ => undelayed_reply rfl
  | stskey | stsiv => exact stsLoad_undelayed rfl
  | stsbegin => exact execStsbegin_undelayed s
  | xstart => exact execXstart_undelayed s
  | xclr => exact answers_admitTerminal undelayed_self undelayed_self (undelayed_reply rfl)
  | cfgw idx => exact execCfgw_undelayed idx s
  | aesprot => exact execAesprot_undelayed s
  | evGood | evRxErr | evRxTo | evTxDone => cases hi

/-! ### Event words -/

/-- Every next state of the result was reached by calls that send nothing delayed. -/
abbrev EndsUndelayed (s : State) (r : Result) : Prop := Result.Ends (SendsNoneDelayed s) r

section
variable {s : State}

theorem onEvent_undelayed {ev : EventBits} {k : State → Result}
    (hk : ∀ u, SendsNoneDelayed s u → EndsUndelayed s (k u)) : EndsUndelayed s (onEvent ev s k) := by
  intro t h
  rcases onEvent_next h with ⟨-, rfl⟩ | ⟨mask, timeout, -, -, h⟩
  · exact undelayed_self
  · exact hk _ (undelayed_self.call rfl) t h

/-- The acceptance procedure reads the frame and the quality (R203). -/
theorem accept_undelayed {k : FrameKind} {u : State} {accepted : State → Result} (hu : SendsNoneDelayed s u)
    (hacc : ∀ v, SendsNoneDelayed s v → EndsUndelayed s (accepted v)) :
    EndsUndelayed s (accept k u accepted) := by
  intro t h
  obtain ⟨-, v, fb, ts, tsw, ctr, hv, -, -, hend⟩ := accept_next h
  have hread : SendsNoneDelayed s v := hu.call (congrArg State.calls hv)
  have hscore : SendsNoneDelayed s v.drawScore := hread.call rfl
  rcases hend with rfl | ⟨-, -, ⟨-, h⟩ | ⟨-, h⟩ | ⟨-, rfl⟩⟩
  · exact hread
  · exact hacc v hread t h
  · exact hacc v.drawScore hscore t h
  · split
    · exact hscore.trans (.of_calls (State.resync_calls _))
    · exact hscore

theorem stampRx_undelayed {v : State} (r : RegNum) (hv : SendsNoneDelayed s v) : SendsNoneDelayed s (v.stampRx r) :=
  hv.call rfl

theorem acceptedReply_undelayed {v : State} (hv : SendsNoneDelayed s v) : EndsUndelayed s (acceptedReply v) := by
  unfold acceptedReply
  dsimp only
  split
  · exact ends_next (stampRx_undelayed .respRx hv)
  · exact ends_next ((stampRx_undelayed .respRx hv).call rfl)

theorem execEvGood_undelayed (s : State) : EndsUndelayed s (execEvGood s) := by
  refine onEvent_undelayed fun u hu => ?_
  split
  · exact accept_undelayed hu fun v hv => acceptedReply_undelayed hv
  · exact accept_undelayed hu fun v hv => ends_next hv
  · exact accept_undelayed hu fun v hv => ends_next (stampRx_undelayed .pollRx hv)
  · exact accept_undelayed hu fun v hv => ends_next (stampRx_undelayed .finalRx hv)
  all_goals exact ends_fault _

theorem finalTransmitted_calls (u : State) : (finalTransmitted u).calls = u.calls := by
  unfold finalTransmitted
  split <;> rfl

theorem replyTransmitted_calls (u : State) : (replyTransmitted u).calls = u.calls := by
  unfold replyTransmitted
  dsimp only
  split <;> rfl

theorem execEvTxDone_undelayed (s : State) : EndsUndelayed s (execEvTxDone s) := by
  refine onEvent_undelayed fun u hu => ?_
  split
  · exact ends_next (hu.call rfl)
  · exact ends_next (hu.trans (.of_calls (finalTransmitted_calls u)))
  · exact ends_next (hu.trans (.of_calls (replyTransmitted_calls u)))
  all_goals exact ends_fault _

end

/-- Every command and event word, by its meaning. -/
theorem exec_undelayed (i : Instr) (s : State) : EndsUndelayed s (exec i s) := by
  cases hi : isEventWord i
  · obtain ⟨u, st, d, hu, he⟩ := exec_command_undelayed s hi
    rw [he]
    exact ends_reply hu
  · cases i with
    | evGood => exact execEvGood_undelayed s
    | evRxErr => exact onEvent_undelayed fun u hu => ends_next (t := u.raise .rxError) hu
    | evRxTo => exact onEvent_undelayed fun u hu => ends_next (t := u.raise .rxTimeout) hu
    | evTxDone => exact execEvTxDone_undelayed s
    | _ => cases hi

/-! ## The core's delayed transmissions (R121, R122) -/

/-- The target time is the sum aligned down. -/
theorem sched_aligned (t d : Timestamp) :
    (sched t d).toNat % 512 = 0 ∧ (sched t d).toNat ≤ (t.toNat + d.toNat) % 2 ^ 40 ∧
      (t.toNat + d.toNat) % 2 ^ 40 ≤ (sched t d).toNat + 511 := by
  rw [sched_toNat, targetNumber]
  omega

/-- A delayed transmission is the first call of its step, and the receive window the only other. -/
theorem sendDelayed_calls (rx tx : RegNum) (delay : Timestamp) (k : FrameKind) (window : Option (BitVec 32))
    (after : SeqState) (s : State) :
    Result.Ends (fun t => ∃ f cs, t.calls = s.calls ++ .transmitDelayed f (sched s.ts[rx] delay) :: cs ∧
      ∀ f' g', HalCall.transmitDelayed f' g' ∉ cs) (sendDelayed rx tx delay k window after s) := by
  rcases sendDelayed_cases rx tx delay k window after s with ⟨-, h⟩ | ⟨-, -, h⟩ | ⟨-, -, h⟩ <;> rw [h]
  · exact ends_fault _
  · exact ends_next ⟨_, [], rfl, by simp⟩
  · refine ends_next ⟨_, _, List.append_assoc .., ?_⟩
    cases window <;> simp

theorem concludeEstimate_calls (s : State) (e : Estimate) : (concludeEstimate s e).calls = s.calls := by
  cases e <;> rfl

/-- Settles O59: no command and no event word sends a frame delayed, and the core's own step sends at most one, at the
aligned sum. -/
theorem delayedTransmissionsAreAligned : Obligations.DelayedTransmissionsAreAligned := by
  refine ⟨fun i s t h => exec_undelayed i s t h, fun s t h => ?_⟩
  by_cases hs : s.state ∈ [SeqState.respondValid, .pollValid, .finalValid]
  · simp only [List.mem_cons, List.not_mem_nil, or_false] at hs
    rcases hs with hs | hs | hs
    · cases hd : s.isDoubleSided
      · rw [coreStep_respondValid_single hs hd] at h
        cases h
        exact .inl (concludeEstimate_calls s _)
      · rw [coreStep_respondValid_double hs hd] at h
        obtain ⟨f, cs, hcalls, hno⟩ := sendDelayed_calls _ _ _ _ _ _ s t h
        exact .inr ⟨f, _, cs, _, hcalls, hno, .inl ⟨hs, rfl⟩, sched_aligned _ _⟩
    · rw [coreStep_pollValid hs] at h
      obtain ⟨f, cs, hcalls, hno⟩ := sendDelayed_calls _ _ _ _ _ _ s t h
      exact .inr ⟨f, _, cs, _, hcalls, hno, .inr ⟨hs, rfl⟩, sched_aligned _ _⟩
    · rw [coreStep_finalValid hs] at h
      cases h
      exact .inl (concludeEstimate_calls s _)
  · rw [coreStep_still hs] at h
    cases h
    exact .inl rfl

end Sys2Proof.Machine
end

section
/-! PROOF. The AES companion unit: the nonce and the length contract as numbers, the classification of a status, and
the one job of AESPROT (spec/45_aes_frame_security.md R261 to R265). -/

namespace Sys2Proof.Machine

section
variable {s : State}

theorem exec_aesnonce_present (h : s.hasAes = true) :
    exec .aesnonce s = .next (s.answered .ok (s.aes.ctr.toNat + 2 ^ 48 * s.aes.src.toNat)) := by
  rw [exec, execAesnonce, withAes_present h, reply_setWidth, nonce_toNat]

/-! ## The length contract (R262) -/

/-- The two halves of the length contract exclude each other. -/
theorem badLength_eq_false {a : AesRegs} (h : 0 ≤ a.payloadLen ∧ a.payloadLen < a.bufCap.toNat) :
    a.badLength = false := by
  rw [Bool.eq_false_iff, Ne, badLength_iff]
  omega

theorem exec_aeslen_inside (h : s.hasAes = true) (hp : 0 ≤ s.aes.payloadLen ∧ s.aes.payloadLen < s.aes.bufCap.toNat) :
    exec .aeslen s = .next (s.respond .ok (BitVec.ofInt 128 s.aes.payloadLen)) := by
  rw [exec, execAeslen, withAes_present h, badLength_eq_false hp, if_neg Bool.false_ne_true, reply_def]

theorem exec_aeslen_outside (h : s.hasAes = true) (hp : s.aes.payloadLen < 0 ∨ s.aes.bufCap.toNat ≤ s.aes.payloadLen) :
    exec .aeslen s = .next (s.respond .lengthError (BitVec.ofInt 128 s.aes.payloadLen)) := by
  rw [exec, execAeslen, withAes_present h, if_pos ((badLength_iff _).mpr hp), reply_def]

/-! ## The classification (R263) -/

theorem exec_aescls_present (h : s.hasAes = true) : exec .aescls s = replyClassified s (s.opndLow 8) := by
  rw [exec, execAescls, withAes_present h]

/-- A status byte that stands in the operand is the one AESCLS reads. -/
theorem opndLow_setWidth {n : Nat} (hn : n ≤ 128) {v : BitVec n} (h : s.opnd = v.setWidth 128) : s.opndLow n = v := by
  rw [State.opndLow, h, BitVec.setWidth_setWidth_of_le _ hn, BitVec.setWidth_eq]

/-! ## The job (R264) -/

theorem exec_aesprot_busy (h : s.hasAes = true) (ha : s.state.isActive = true) :
    exec .aesprot s = .next (s.answered .errBusy 0) := by
  rw [exec, execAesprot, withAes_present h, admitWrite_active ha]

theorem exec_aesprot_outside (h : s.hasAes = true) (ha : s.state.isActive = false)
    (hp : s.aes.payloadLen < 0 ∨ s.aes.bufCap.toNat ≤ s.aes.payloadLen) :
    exec .aesprot s = .next (s.respond .lengthError (BitVec.ofInt 128 s.aes.payloadLen)) := by
  rw [exec, execAesprot, withAes_present h, admitWrite_inactive ha, if_pos ((badLength_iff _).mpr hp), reply_def]

/-- Inside the contract the job is handed over, and the radio's status is classified in the state after the call. -/
theorem exec_aesprot_inside (h : s.hasAes = true) (ha : s.state.isActive = false)
    (hp : 0 ≤ s.aes.payloadLen ∧ s.aes.payloadLen < s.aes.bufCap.toNat) :
    exec .aesprot s = replyClassified (s.call (.doAes s.aes.job)) s.ans.aes := by
  rw [exec, execAesprot, withAes_present h, admitWrite_inactive ha, badLength_eq_false hp, if_neg Bool.false_ne_true]

end

/-- Settles O39: the nonce as a number, the length on both sides of its contract, and the absent unit. -/
theorem aesNonceAndLength : Obligations.AesNonceAndLength := by
  rintro s p rfl
  exact ⟨fun h => ⟨exec_aesnonce_present h, exec_aeslen_inside h, exec_aeslen_outside h⟩,
    fun h => ⟨exec_aes_absent (by simp) h, exec_aes_absent (by simp) h⟩⟩

/-- Settles O40: AESCLS classifies the operand's low byte, and a classification has three answers. -/
theorem aesclsClassifies : Obligations.AesclsClassifies := by
  intro s st hst
  have hlow : s.opndLow 8 = st := BitVec.eq_of_toNat_eq ((State.opndLow_toNat s 8).trans hst.symm)
  refine ⟨fun h => ?_, exec_aes_absent (by simp)⟩
  rw [exec_aescls_present h, hlow]
  exact replyClassified_cases s st

/-- Settles O41: a classification depends on the mask and the status alone, so AESPROT answers in the state after its
call as AESCLS does in any state with that mask and that status. -/
theorem aesprotRunsOneJob : Obligations.AesprotRunsOneJob := by
  rintro s p rfl
  refine ⟨fun h ha => ⟨exec_aesprot_outside h ha, fun hp => ?_⟩, exec_aesprot_busy, exec_aes_absent (by simp)⟩
  obtain ⟨st, d, -, hcls⟩ := replyClassified_uniform s.aes.errMask s.ans.aes
  refine ⟨st, d, s.aes.nonce, nonce_toNat _, fun u hu hmask hopnd => ?_, ?_⟩
  · rw [exec_aescls_present hu, opndLow_setWidth (by decide) hopnd, hcls u hmask]
  · rw [exec_aesprot_inside h ha hp]
    exact hcls (s.call (.doAes s.aes.job)) rfl

end Sys2Proof.Machine
end

section
/-! PROOF. The return from a terminal state, and the refusals of XCLR and XSTART by the class of the sequencer state
(spec/46_system_commands.md R272, R273). -/

namespace Sys2Proof.Machine

/-- XCLR in a terminal state writes the sequencer state and the outcome only (R273). -/
theorem exec_xclr_terminal {s : State} (ht : s.state.isTerminal = true) :
    exec .xclr s = .next (State.answered { s with state := .idle, outcome := .none } .ok 0) := by
  rw [exec, execXclr, admitTerminal_terminal ht, reply_zero, State.clear]

/-- Settles O35: terminal, active and Idle are the three classes of the admission; in Idle XSTART passes it, and the
start predicate decides. -/
theorem xclrReturnsAndXstartIsRefused : Obligations.XclrReturnsAndXstartIsRefused := fun s =>
  ⟨fun ht => ⟨exec_xclr_terminal ht, admitIdle_terminal ht⟩,
    fun ha => ⟨admitTerminal_active ha, admitIdle_active ha⟩,
    fun hidle => ⟨admitTerminal_idle hidle, fun hbad =>
      exec_xstart_configBad hidle (Bool.eq_false_of_not_eq_true (mt (configOK_iff s).mp hbad))⟩⟩

end Sys2Proof.Machine
end

section
/-! PROOF. What stops the model and what does not: the reset input, an answer outside the wait or its mask, and the
progress of every step under the HAL contract (spec/60_exceptions.md R294, R301, R306; spec/70_reset_and_hazards.md
R320). -/

namespace Sys2Proof.Machine

/-! ## The reset input (R320) -/

/-- Settles O8: the reset input is fetched as the reset event, which is that equation. -/
theorem resetInputGivesTheResetState : Obligations.ResetInputGivesTheResetState := by
  intro s rest hin
  simp only [step, fetch, hin]
  rfl

/-! ## Waits and stray answers (R201, R202, R294) -/

theorem strayEvent_none {s : State} (hw : s.wait = none) : strayEvent s = .next s := by
  simp only [strayEvent, hw]

theorem strayEvent_waiting {s : State} {w : EventBits × BitVec 32} (hw : s.wait = some w) :
    strayEvent s = .fault .eventOutsideContract := by
  simp only [strayEvent, hw]

/-- A wait is for a frame of one kind, or for the end of a transmission (R201, R202). -/
theorem wait_cases {s : State} {mask : EventBits} {timeout : BitVec 32} (hw : s.wait = some (mask, timeout)) :
    (mask = rxMask ∧ ∃ k, s.awaits k) ∨ (mask = txMask ∧ s.state ∈ [SeqState.pollSent, .finalSent, .respSent]) := by
  cases hs : s.state <;> simp only [State.wait, hs, Option.some.injEq, Prod.mk.injEq, reduceCtorEq] at hw
  all_goals obtain ⟨rfl, -⟩ := hw
  case pollSent | finalSent | respSent => exact .inr ⟨rfl, by simp⟩
  case awaitResponse => exact .inl ⟨rfl, _, .inl ⟨hs, rfl⟩⟩
  case awaitAck => exact .inl ⟨rfl, _, .inr (.inl ⟨hs, rfl⟩)⟩
  case awaitPoll => exact .inl ⟨rfl, _, .inr (.inr (.inl ⟨hs, rfl⟩))⟩
  case awaitFinal => exact .inl ⟨rfl, _, .inr (.inr (.inr ⟨hs, rfl⟩))⟩

/-- Nothing waits outside the seven wait states (R201). -/
theorem wait_none_iff (s : State) : s.wait = none ↔
    s.state ∉ [.pollSent, .finalSent, .respSent, .awaitResponse, .awaitAck, .awaitPoll, .awaitFinal] := by
  unfold State.wait
  cases s.state <;> simp

/-- Settles O49: an event word or a stray answer does nothing without a wait, and stops the model outside its mask. -/
theorem eventsOutsideAWaitOrItsMask : Obligations.EventsOutsideAWaitOrItsMask := fun s _ =>
  ⟨fun hw _ hi => exec_event_none hi hw, fun hw _ => strayEvent_none hw,
    fun _ _ hw => ⟨fun _ hi hm => exec_event_outside hi hw hm, fun _ => strayEvent_waiting hw⟩, wait_none_iff s⟩

/-! ## Progress under the contract (R301, R306) -/

/-- A host command only answers. -/
theorem exec_command_next {i : Instr} (s : State) (hi : isEventWord i = false) : ∃ t, exec i s = .next t := by
  obtain ⟨u, st, d, -, he⟩ := exec_command_answers s hi
  exact ⟨u.respond st d, he⟩

section
variable {s : State}

/-- The frame that an exchange awaits is of a kind whose layout its configuration guarantees (R30, R272). -/
theorem layoutOK_of_awaits {k : FrameKind} (h : s.Inv) (hk : s.awaits k) : s.layoutOK k = true := by
  have role : stateFits s = true := h.role
  obtain ⟨-, hok⟩ := h.active (wait_active (wait_of_awaits hk))
  obtain ⟨hpoll, hreply, hfinal, hreport⟩ := layoutOK_of_configOK hok
  rcases hk with ⟨-, rfl⟩ | ⟨hs, rfl⟩ | ⟨-, rfl⟩ | ⟨hs, rfl⟩
  · exact hreply
  · have : (s.isResponder = false ∧ s.isDoubleSided = true) ∧ s.ackEnabled = true := by
      simpa [stateFits, hs] using role
    obtain ⟨⟨hinit, hds⟩, hack⟩ := this
    exact hreport hds hinit hack
  · exact hpoll
  · have : s.isResponder = true ∧ s.isDoubleSided = true := by simpa [stateFits, hs] using role
    obtain ⟨-, hds⟩ := this
    exact hfinal hds

/-- What follows an accepted frame ends the step. -/
theorem acceptedIn_next {k : FrameKind} (hk : s.awaits k) (u : State) : ∃ t, acceptedIn s.state u = .next t := by
  rcases hk with ⟨hs, -⟩ | ⟨hs, -⟩ | ⟨hs, -⟩ | ⟨hs, -⟩ <;> rw [hs]
  · exact ⟨_, acceptedReply_eq u⟩
  · exact ⟨u.conclude, rfl⟩
  · exact ⟨{ u.stampRx .pollRx with state := .pollValid }, rfl⟩
  · exact ⟨{ u.stampRx .finalRx with state := .finalValid }, rfl⟩

/-- A whole frame in a receive wait is accepted or ends the exchange (R203). -/
theorem exec_evGood_next {k : FrameKind} (h : s.Inv) (hk : s.awaits k) (ho : s.ans.frameOK = true) :
    ∃ t, exec .evGood s = .next t := by
  rw [exec_evGood_waiting hk]
  exact accept_answers ho ((layoutOK_congr (s := s) rfl k).trans (layoutOK_of_awaits h hk)) (acceptedIn_next hk)

/-- An event word gives a next state: nothing waits, or its bit is in the mask of the wait and a frame that it reads
is whole. -/
theorem exec_event_next {ev : EventBits} {i : Instr} (h : s.Inv) (hi : decodeEvent ev = .ok i)
    (hmask : ∀ mask timeout, s.wait = some (mask, timeout) → ev &&& mask ≠ 0)
    (hframe : ev = 0x1 → s.ans.frameOK = true) : ∃ t, exec i s = .next t := by
  cases hw : s.wait with
  | none => exact ⟨s, exec_event_none hi hw⟩
  | some w =>
    obtain ⟨mask, timeout⟩ := w
    have hm := hmask mask timeout hw
    rcases wait_cases hw with ⟨rfl, k, hk⟩ | ⟨rfl, hs⟩ <;>
      rcases decodeEvent_cases hi with ⟨rfl, rfl⟩ | ⟨rfl, rfl⟩ | ⟨rfl, rfl⟩ | ⟨rfl, rfl⟩
    · exact exec_evGood_next h hk (hframe rfl)
    · exact ⟨_, exec_evRxErr_awaits hk⟩
    · exact ⟨_, exec_evRxTo_awaits hk⟩
    · exact absurd rfl hm
    · exact absurd rfl hm
    · exact absurd rfl hm
    · exact absurd rfl hm
    · exact ⟨_, exec_evTxDone_waiting hs⟩

/-- A delayed transmission of a frame whose layout holds gives a next state, whatever the start verdict. -/
theorem sendDelayed_next {rx tx : RegNum} {delay : Timestamp} {k : FrameKind} {window : Option (BitVec 32)}
    {after : SeqState} (hl : s.layoutOK k = true) : ∃ t, sendDelayed rx tx delay k window after s = .next t := by
  rcases sendDelayed_cases rx tx delay k window after s with ⟨hbad, -⟩ | ⟨-, -, he⟩ | ⟨-, -, he⟩
  · exact absurd hl (ne_true_of_eq_false hbad)
  · exact ⟨_, he⟩
  · exact ⟨_, he⟩

/-- The core's own step: the frames that it sends are of kinds whose layouts the configuration guarantees (R272). -/
theorem coreStep_next (h : s.Inv) : ∃ t, coreStep s = .next t := by
  by_cases hs : s.state ∈ [SeqState.respondValid, .pollValid, .finalValid]
  · have ha : s.state.isActive = true := by
      revert hs
      cases s.state <;> decide
    obtain ⟨-, hok⟩ := h.active ha
    obtain ⟨-, hreply, hfinal, -⟩ := layoutOK_of_configOK hok
    simp only [List.mem_cons, List.not_mem_nil, or_false] at hs
    rcases hs with hs | hs | hs
    · cases hd : s.isDoubleSided with
      | false => exact ⟨_, coreStep_respondValid_single hs hd⟩
      | true =>
        rw [coreStep_respondValid_double hs hd]
        exact sendDelayed_next (hfinal hd)
    · rw [coreStep_pollValid hs]
      exact sendDelayed_next hreply
    · exact ⟨_, coreStep_finalValid hs⟩
  · exact ⟨s, coreStep_still hs⟩

end

/-- Settles O52, by the next input: a command answers, an event word answers the wait or finds none, a stray answer is
outside the contract, the core's own step finds its layouts, and reset always gives a state. -/
theorem noStopUnderTheContract : Obligations.NoStopUnderTheContract := by
  intro s h hc
  rcases step_cases s with ⟨-, he⟩ | ⟨w, o, a, rest, -, ⟨i, hd, he⟩ | he⟩ |
      ⟨ev, a, rest, hin, hev⟩ | ⟨a, rest, -, he⟩ | ⟨rest, -, he⟩
  · rw [he]
    refine coreStep_next ?_
    split
    · exact drawFree_inv h
    · exact h
  · rw [he]
    exact exec_command_next _ (decodeCommand_not_event hd)
  · exact ⟨_, he⟩
  · simp only [State.contractNext, hin] at hc
    obtain ⟨⟨j, hj⟩, hmask, hframe⟩ := hc
    rcases hev with ⟨i, hd, he⟩ | ⟨⟨e, hbad⟩, -⟩
    · rw [he]
      exact exec_event_next (latch_inv h s.opnd a rest) hd hmask hframe
    · exact absurd (hj.symm.trans hbad) nofun
  · rw [he]
    exact coreStep_next (latch_inv h s.opnd a rest)
  · exact ⟨_, he⟩

end Sys2Proof.Machine
end
